-- ==== Sys2Proof/Word.lean ====
section
/-! DEFINITION. The words of the machine (spec/00_scope.md R6, R10): bytes, 16-bit addresses, 14-bit PPU
addresses, and the type in which every memory of the machine is held. -/

namespace Sys2Proof

/-- The 8-bit value every bus access moves (R6, R89). -/
abbrev Byte := BitVec 8

/-- A 16-bit CPU address (R6, R70). -/
abbrev Word := BitVec 16

/-- A 14-bit PPU address (R72, R420). -/
abbrev PpuAddr := BitVec 14

/-- A memory of `w`-bit cells: the (address, value) pairs that differ from the value an unlisted address
reads as, with strictly rising addresses (`Memory.wf` in Machine/Mem.lean). `Memory 8` is a list of
`Host.Cell`. -/
abbrev Memory (w : Nat) := List (Nat × BitVec w)

end Sys2Proof
end

