-- ==== Sys2Proof/Modes.lean ====
section
/-! DEFINITION. The addressing modes as operand forms of instructions (spec/30_encoding.md R122), one type for
each shape of memory instruction (spec/31_addressing_modes.md R151). Which modes a mnemonic has is
`Instr.wf` (WellFormed.lean). -/

namespace Sys2Proof

/-- Modes of the read-class instructions LDA LDX LDY ADC SBC AND ORA EOR CMP CPX CPY BIT (R122, R151). -/
inductive ReadMode where
  /-- `#op8`, R153 -/
  | imm
  /-- `zp`, R154 -/
  | zp
  /-- `zp,X`, R155 -/
  | zpx
  /-- `zp,Y`, R155 -/
  | zpy
  /-- `abs`, R158 -/
  | abs
  /-- `abs,X`, R159 -/
  | abx
  /-- `abs,Y`, R159 -/
  | aby
  /-- `(zp,X)`, R160 -/
  | izx
  /-- `(zp),Y`, R161 -/
  | izy
deriving DecidableEq, Repr

/-- Modes of the write-class instructions STA STX STY (R122, R151). -/
inductive StoreMode where
  /-- `zp`, R154 -/
  | zp
  /-- `zp,X`, R155 -/
  | zpx
  /-- `zp,Y`, R155 -/
  | zpy
  /-- `abs`, R158 -/
  | abs
  /-- `abs,X`, R159 -/
  | abx
  /-- `abs,Y`, R159 -/
  | aby
  /-- `(zp,X)`, R160 -/
  | izx
  /-- `(zp),Y`, R161 -/
  | izy
deriving DecidableEq, Repr

/-- Modes of the read-modify-write instructions on memory (R122, R151). -/
inductive RmwMode where
  /-- `zp`, R154 -/
  | zp
  /-- `zp,X`, R155 -/
  | zpx
  /-- `abs`, R158 -/
  | abs
  /-- `abs,X`, R159 -/
  | abx
deriving DecidableEq, Repr

/-- Operand of ASL LSR ROL ROR: the accumulator (R152) or a memory location (R256 to R259). -/
inductive ShiftMode where
  /-- accumulator, R152 -/
  | acc
  /-- memory, read-modify-write, R151 -/
  | mem (m : RmwMode)
deriving DecidableEq, Repr

/-- Operand of JMP: absolute (R278) or absolute indirect (R163). -/
inductive JumpMode where
  /-- `abs`, R278 -/
  | abs
  /-- `(abs)`, R163 -/
  | ind
deriving DecidableEq, Repr

end Sys2Proof
end

