-- ==== Sys2Proof/Syntax.lean ====
section
/-! DEFINITION. The instructions (spec/opcode_table.json, spec/30_encoding.md R124): one constructor per mnemonic,
whose argument is the addressing mode, so that a row of the table is a constructor at a mode. The 105
unofficial byte values share the mnemonic ILL and its constructor carries the byte. Operand bytes are NOT
part of an instruction: decoding looks at the opcode byte alone (R126), and the operand bytes are fetched
by bus cycles of the instruction itself (R150 to R163; notes/assumptions/1.md). -/

namespace Sys2Proof

/-- A decoded opcode byte. -/
inductive Instr where
  -- Load and store (spec/40_load_store.md)
  /-- LDA, R200 -/
  | lda (m : ReadMode)
  /-- LDX, R201 -/
  | ldx (m : ReadMode)
  /-- LDY, R202 -/
  | ldy (m : ReadMode)
  /-- STA, R203 -/
  | sta (m : StoreMode)
  /-- STX, R204 -/
  | stx (m : StoreMode)
  /-- STY, R205 -/
  | sty (m : StoreMode)
  -- Register transfer and stack (spec/41_transfer_stack.md)
  /-- TAX, R210 -/
  | tax
  /-- TAY, R211 -/
  | tay
  /-- TXA, R212 -/
  | txa
  /-- TYA, R213 -/
  | tya
  /-- TSX, R214 -/
  | tsx
  /-- TXS, R215 -/
  | txs
  /-- PHA, R216 -/
  | pha
  /-- PHP, R217 -/
  | php
  /-- PLA, R218 -/
  | pla
  /-- PLP, R219 -/
  | plp
  -- Arithmetic, logic, compare (spec/42_arith_logic.md)
  /-- ADC, R230 -/
  | adc (m : ReadMode)
  /-- SBC, R231 -/
  | sbc (m : ReadMode)
  /-- AND, R232 -/
  | and (m : ReadMode)
  /-- ORA, R233 -/
  | ora (m : ReadMode)
  /-- EOR, R234 -/
  | eor (m : ReadMode)
  /-- CMP, R235 -/
  | cmp (m : ReadMode)
  /-- CPX, R236 -/
  | cpx (m : ReadMode)
  /-- CPY, R237 -/
  | cpy (m : ReadMode)
  /-- BIT, R238 -/
  | bit (m : ReadMode)
  -- Increment, decrement, shift, rotate (spec/43_incdec_shift.md)
  /-- INC, R250 -/
  | inc (m : RmwMode)
  /-- DEC, R251 -/
  | dec (m : RmwMode)
  /-- INX, R252 -/
  | inx
  /-- INY, R253 -/
  | iny
  /-- DEX, R254 -/
  | dex
  /-- DEY, R255 -/
  | dey
  /-- ASL, R256 -/
  | asl (m : ShiftMode)
  /-- LSR, R257 -/
  | lsr (m : ShiftMode)
  /-- ROL, R258 -/
  | rol (m : ShiftMode)
  /-- ROR, R259 -/
  | ror (m : ShiftMode)
  -- Branch, jump, subroutine (spec/44_branch_jump.md)
  /-- BCC, R270 -/
  | bcc
  /-- BCS, R271 -/
  | bcs
  /-- BEQ, R272 -/
  | beq
  /-- BNE, R273 -/
  | bne
  /-- BMI, R274 -/
  | bmi
  /-- BPL, R275 -/
  | bpl
  /-- BVC, R276 -/
  | bvc
  /-- BVS, R277 -/
  | bvs
  /-- JMP, R278 -/
  | jmp (m : JumpMode)
  /-- JSR, R279 -/
  | jsr
  /-- RTS, R280 -/
  | rts
  -- Flag, system, illegal opcodes (spec/45_flag_system.md)
  /-- CLC, R290 -/
  | clc
  /-- SEC, R291 -/
  | sec
  /-- CLI, R292 -/
  | cli
  /-- SEI, R293 -/
  | sei
  /-- CLV, R294 -/
  | clv
  /-- CLD, R295 -/
  | cld
  /-- SED, R296 -/
  | sed
  /-- NOP, R297 -/
  | nop
  /-- BRK, R298 -/
  | brk
  /-- RTI, R299 -/
  | rti
  /-- ILL, R300 -/
  | ill (op : Byte)
deriving DecidableEq, Repr

end Sys2Proof
end

