-- ==== Sys2Proof/WellFormed.lean ====
section
/-! DEFINITION. Which terms of `Instr` are instructions: the addressing modes each mnemonic has
(spec/30_encoding.md R124) and the byte values that are illegal opcodes (R127). -/

namespace Sys2Proof

/-- The eight modes of LDA ADC SBC AND ORA EOR CMP (R124). -/
def readModes8 : List ReadMode := [.imm, .zp, .zpx, .abs, .abx, .aby, .izx, .izy]

/-- The 18 illegal opcodes of one byte (R127). -/
def illegal1 : List Byte :=
  [0x02, 0x12, 0x22, 0x32, 0x42, 0x52, 0x62, 0x72, 0x92, 0xB2, 0xD2, 0xF2, 0x1A, 0x3A, 0x5A, 0x7A, 0xDA, 0xFA]

/-- The 54 illegal opcodes of two bytes (R127). -/
def illegal2 : List Byte :=
  [0x03, 0x04, 0x07, 0x0B, 0x13, 0x14, 0x17, 0x23, 0x27, 0x2B, 0x33, 0x34, 0x37, 0x43, 0x44, 0x47, 0x4B, 0x53] ++
  [0x54, 0x57, 0x63, 0x64, 0x67, 0x6B, 0x73, 0x74, 0x77, 0x80, 0x82, 0x83, 0x87, 0x89, 0x8B, 0x93, 0x97, 0xA3] ++
  [0xA7, 0xAB, 0xB3, 0xB7, 0xC2, 0xC3, 0xC7, 0xCB, 0xD3, 0xD4, 0xD7, 0xE2, 0xE3, 0xE7, 0xEB, 0xF3, 0xF4, 0xF7]

/-- The 33 illegal opcodes of three bytes (R127). -/
def illegal3 : List Byte :=
  [0x0C, 0x0F, 0x1B, 0x1C, 0x1F, 0x2F, 0x3B, 0x3C, 0x3F, 0x4F, 0x5B, 0x5C, 0x5F, 0x6F, 0x7B, 0x7C, 0x7F] ++
  [0x8F, 0x9B, 0x9C, 0x9E, 0x9F, 0xAF, 0xBB, 0xBF, 0xCF, 0xDB, 0xDC, 0xDF, 0xEF, 0xFB, 0xFC, 0xFF]

/-- `i` is an instruction: its mnemonic has its mode among the 151 official opcodes (R124), or it is one of
the 105 illegal byte values (R127). -/
def Instr.wf : Instr → Bool
  | .lda m => readModes8.contains m
  | .ldx m => [ReadMode.imm, .zp, .zpy, .abs, .aby].contains m
  | .ldy m => [ReadMode.imm, .zp, .zpx, .abs, .abx].contains m
  | .sta m => [StoreMode.zp, .zpx, .abs, .abx, .aby, .izx, .izy].contains m
  | .stx m => [StoreMode.zp, .zpy, .abs].contains m
  | .sty m => [StoreMode.zp, .zpx, .abs].contains m
  | .adc m => readModes8.contains m
  | .sbc m => readModes8.contains m
  | .and m => readModes8.contains m
  | .ora m => readModes8.contains m
  | .eor m => readModes8.contains m
  | .cmp m => readModes8.contains m
  | .cpx m => [ReadMode.imm, .zp, .abs].contains m
  | .cpy m => [ReadMode.imm, .zp, .abs].contains m
  | .bit m => [ReadMode.zp, .abs].contains m
  | .inc _ => true
  | .dec _ => true
  | .asl _ => true
  | .lsr _ => true
  | .rol _ => true
  | .ror _ => true
  | .jmp _ => true
  | .ill op => illegal1.contains op || illegal2.contains op || illegal3.contains op
  | .tax => true
  | .tay => true
  | .txa => true
  | .tya => true
  | .tsx => true
  | .txs => true
  | .pha => true
  | .php => true
  | .pla => true
  | .plp => true
  | .inx => true
  | .iny => true
  | .dex => true
  | .dey => true
  | .bcc => true
  | .bcs => true
  | .beq => true
  | .bne => true
  | .bmi => true
  | .bpl => true
  | .bvc => true
  | .bvs => true
  | .jsr => true
  | .rts => true
  | .clc => true
  | .sec => true
  | .cli => true
  | .sei => true
  | .clv => true
  | .cld => true
  | .sed => true
  | .nop => true
  | .brk => true
  | .rti => true

end Sys2Proof
end

