-- ==== Sys2Proof/Decode.lean ====
section
/-! DEFINITION. Decoding and encoding (spec/30_encoding.md). Decoding is a total function of the opcode byte
(R126): the 16 by 16 matrix of R125. The encoder is written from the list by mnemonic of R124. Around
the two stand the whole-instruction forms: an instruction's bytes with its operand bytes. -/

namespace Sys2Proof

/-- Row 0x of the opcode matrix (R125). -/
def opcodeRow0 : List Instr :=
  [.brk, .ora .izx, .ill 0x02, .ill 0x03, .ill 0x04, .ora .zp, .asl (.mem .zp), .ill 0x07,
   .php, .ora .imm, .asl .acc, .ill 0x0B, .ill 0x0C, .ora .abs, .asl (.mem .abs), .ill 0x0F]

/-- Row 1x of the opcode matrix (R125). -/
def opcodeRow1 : List Instr :=
  [.bpl, .ora .izy, .ill 0x12, .ill 0x13, .ill 0x14, .ora .zpx, .asl (.mem .zpx), .ill 0x17,
   .clc, .ora .aby, .ill 0x1A, .ill 0x1B, .ill 0x1C, .ora .abx, .asl (.mem .abx), .ill 0x1F]

/-- Row 2x of the opcode matrix (R125). -/
def opcodeRow2 : List Instr :=
  [.jsr, .and .izx, .ill 0x22, .ill 0x23, .bit .zp, .and .zp, .rol (.mem .zp), .ill 0x27,
   .plp, .and .imm, .rol .acc, .ill 0x2B, .bit .abs, .and .abs, .rol (.mem .abs), .ill 0x2F]

/-- Row 3x of the opcode matrix (R125). -/
def opcodeRow3 : List Instr :=
  [.bmi, .and .izy, .ill 0x32, .ill 0x33, .ill 0x34, .and .zpx, .rol (.mem .zpx), .ill 0x37,
   .sec, .and .aby, .ill 0x3A, .ill 0x3B, .ill 0x3C, .and .abx, .rol (.mem .abx), .ill 0x3F]

/-- Row 4x of the opcode matrix (R125). -/
def opcodeRow4 : List Instr :=
  [.rti, .eor .izx, .ill 0x42, .ill 0x43, .ill 0x44, .eor .zp, .lsr (.mem .zp), .ill 0x47,
   .pha, .eor .imm, .lsr .acc, .ill 0x4B, .jmp .abs, .eor .abs, .lsr (.mem .abs), .ill 0x4F]

/-- Row 5x of the opcode matrix (R125). -/
def opcodeRow5 : List Instr :=
  [.bvc, .eor .izy, .ill 0x52, .ill 0x53, .ill 0x54, .eor .zpx, .lsr (.mem .zpx), .ill 0x57,
   .cli, .eor .aby, .ill 0x5A, .ill 0x5B, .ill 0x5C, .eor .abx, .lsr (.mem .abx), .ill 0x5F]

/-- Row 6x of the opcode matrix (R125). -/
def opcodeRow6 : List Instr :=
  [.rts, .adc .izx, .ill 0x62, .ill 0x63, .ill 0x64, .adc .zp, .ror (.mem .zp), .ill 0x67,
   .pla, .adc .imm, .ror .acc, .ill 0x6B, .jmp .ind, .adc .abs, .ror (.mem .abs), .ill 0x6F]

/-- Row 7x of the opcode matrix (R125). -/
def opcodeRow7 : List Instr :=
  [.bvs, .adc .izy, .ill 0x72, .ill 0x73, .ill 0x74, .adc .zpx, .ror (.mem .zpx), .ill 0x77,
   .sei, .adc .aby, .ill 0x7A, .ill 0x7B, .ill 0x7C, .adc .abx, .ror (.mem .abx), .ill 0x7F]

/-- Row 8x of the opcode matrix (R125). -/
def opcodeRow8 : List Instr :=
  [.ill 0x80, .sta .izx, .ill 0x82, .ill 0x83, .sty .zp, .sta .zp, .stx .zp, .ill 0x87,
   .dey, .ill 0x89, .txa, .ill 0x8B, .sty .abs, .sta .abs, .stx .abs, .ill 0x8F]

/-- Row 9x of the opcode matrix (R125). -/
def opcodeRow9 : List Instr :=
  [.bcc, .sta .izy, .ill 0x92, .ill 0x93, .sty .zpx, .sta .zpx, .stx .zpy, .ill 0x97,
   .tya, .sta .aby, .txs, .ill 0x9B, .ill 0x9C, .sta .abx, .ill 0x9E, .ill 0x9F]

/-- Row Ax of the opcode matrix (R125). -/
def opcodeRowA : List Instr :=
  [.ldy .imm, .lda .izx, .ldx .imm, .ill 0xA3, .ldy .zp, .lda .zp, .ldx .zp, .ill 0xA7,
   .tay, .lda .imm, .tax, .ill 0xAB, .ldy .abs, .lda .abs, .ldx .abs, .ill 0xAF]

/-- Row Bx of the opcode matrix (R125). -/
def opcodeRowB : List Instr :=
  [.bcs, .lda .izy, .ill 0xB2, .ill 0xB3, .ldy .zpx, .lda .zpx, .ldx .zpy, .ill 0xB7,
   .clv, .lda .aby, .tsx, .ill 0xBB, .ldy .abx, .lda .abx, .ldx .aby, .ill 0xBF]

/-- Row Cx of the opcode matrix (R125). -/
def opcodeRowC : List Instr :=
  [.cpy .imm, .cmp .izx, .ill 0xC2, .ill 0xC3, .cpy .zp, .cmp .zp, .dec .zp, .ill 0xC7,
   .iny, .cmp .imm, .dex, .ill 0xCB, .cpy .abs, .cmp .abs, .dec .abs, .ill 0xCF]

/-- Row Dx of the opcode matrix (R125). -/
def opcodeRowD : List Instr :=
  [.bne, .cmp .izy, .ill 0xD2, .ill 0xD3, .ill 0xD4, .cmp .zpx, .dec .zpx, .ill 0xD7,
   .cld, .cmp .aby, .ill 0xDA, .ill 0xDB, .ill 0xDC, .cmp .abx, .dec .abx, .ill 0xDF]

/-- Row Ex of the opcode matrix (R125). -/
def opcodeRowE : List Instr :=
  [.cpx .imm, .sbc .izx, .ill 0xE2, .ill 0xE3, .cpx .zp, .sbc .zp, .inc .zp, .ill 0xE7,
   .inx, .sbc .imm, .nop, .ill 0xEB, .cpx .abs, .sbc .abs, .inc .abs, .ill 0xEF]

/-- Row Fx of the opcode matrix (R125). -/
def opcodeRowF : List Instr :=
  [.beq, .sbc .izy, .ill 0xF2, .ill 0xF3, .ill 0xF4, .sbc .zpx, .inc .zpx, .ill 0xF7,
   .sed, .sbc .aby, .ill 0xFA, .ill 0xFB, .ill 0xFC, .sbc .abx, .inc .abx, .ill 0xFF]

/-- The opcode matrix (R125): row = `opcode[7:4]`, column = `opcode[3:0]`. -/
def opcodeMatrix : List (List Instr) :=
  [opcodeRow0, opcodeRow1, opcodeRow2, opcodeRow3, opcodeRow4, opcodeRow5, opcodeRow6, opcodeRow7,
   opcodeRow8, opcodeRow9, opcodeRowA, opcodeRowB, opcodeRowC, opcodeRowD, opcodeRowE, opcodeRowF]

/-- The instruction an opcode byte stands for (R126: total, of one byte, of no state). -/
def decodeOpcode (b : Byte) : Instr :=
  (opcodeMatrix.getD (b.toNat / 16) []).getD (b.toNat % 16) (.ill b)

/-- Opcode of the eight-mode instructions LDA ADC SBC AND ORA EOR CMP from their row of R124, given in the
order imm zp zpx abs abx aby izx izy. -/
def encodeRead8 (imm zp zpx abs abx aby izx izy : Byte) : ReadMode → Option Byte
  | .imm => some imm
  | .zp => some zp
  | .zpx => some zpx
  | .zpy => none
  | .abs => some abs
  | .abx => some abx
  | .aby => some aby
  | .izx => some izx
  | .izy => some izy

/-- Opcode of a read-modify-write instruction on memory from its row of R124: zp zpx abs abx. -/
def encodeRmw (zp zpx abs abx : Byte) : RmwMode → Byte
  | .zp => zp
  | .zpx => zpx
  | .abs => abs
  | .abx => abx

/-- Opcode of a shift or rotate from its row of R124: acc zp zpx abs abx. -/
def encodeShift (acc zp zpx abs abx : Byte) : ShiftMode → Byte
  | .acc => acc
  | .mem m => encodeRmw zp zpx abs abx m

/-- The opcode byte of an instruction (R124), `none` for a mode its mnemonic does not have. -/
def encodeOpcode : Instr → Option Byte
  | .lda m => encodeRead8 0xA9 0xA5 0xB5 0xAD 0xBD 0xB9 0xA1 0xB1 m
  | .ldx .imm => some 0xA2
  | .ldx .zp => some 0xA6
  | .ldx .abs => some 0xAE
  | .ldx .zpy => some 0xB6
  | .ldx .aby => some 0xBE
  | .ldx _ => none
  | .ldy .imm => some 0xA0
  | .ldy .zp => some 0xA4
  | .ldy .abs => some 0xAC
  | .ldy .zpx => some 0xB4
  | .ldy .abx => some 0xBC
  | .ldy _ => none
  | .sta .izx => some 0x81
  | .sta .zp => some 0x85
  | .sta .abs => some 0x8D
  | .sta .izy => some 0x91
  | .sta .zpx => some 0x95
  | .sta .aby => some 0x99
  | .sta .abx => some 0x9D
  | .sta _ => none
  | .stx .zp => some 0x86
  | .stx .abs => some 0x8E
  | .stx .zpy => some 0x96
  | .stx _ => none
  | .sty .zp => some 0x84
  | .sty .abs => some 0x8C
  | .sty .zpx => some 0x94
  | .sty _ => none
  | .tax => some 0xAA
  | .tay => some 0xA8
  | .txa => some 0x8A
  | .tya => some 0x98
  | .tsx => some 0xBA
  | .txs => some 0x9A
  | .pha => some 0x48
  | .php => some 0x08
  | .pla => some 0x68
  | .plp => some 0x28
  | .adc m => encodeRead8 0x69 0x65 0x75 0x6D 0x7D 0x79 0x61 0x71 m
  | .sbc m => encodeRead8 0xE9 0xE5 0xF5 0xED 0xFD 0xF9 0xE1 0xF1 m
  | .and m => encodeRead8 0x29 0x25 0x35 0x2D 0x3D 0x39 0x21 0x31 m
  | .ora m => encodeRead8 0x09 0x05 0x15 0x0D 0x1D 0x19 0x01 0x11 m
  | .eor m => encodeRead8 0x49 0x45 0x55 0x4D 0x5D 0x59 0x41 0x51 m
  | .cmp m => encodeRead8 0xC9 0xC5 0xD5 0xCD 0xDD 0xD9 0xC1 0xD1 m
  | .cpx .imm => some 0xE0
  | .cpx .zp => some 0xE4
  | .cpx .abs => some 0xEC
  | .cpx _ => none
  | .cpy .imm => some 0xC0
  | .cpy .zp => some 0xC4
  | .cpy .abs => some 0xCC
  | .cpy _ => none
  | .bit .zp => some 0x24
  | .bit .abs => some 0x2C
  | .bit _ => none
  | .inc m => some (encodeRmw 0xE6 0xF6 0xEE 0xFE m)
  | .dec m => some (encodeRmw 0xC6 0xD6 0xCE 0xDE m)
  | .inx => some 0xE8
  | .iny => some 0xC8
  | .dex => some 0xCA
  | .dey => some 0x88
  | .asl m => some (encodeShift 0x0A 0x06 0x16 0x0E 0x1E m)
  | .lsr m => some (encodeShift 0x4A 0x46 0x56 0x4E 0x5E m)
  | .rol m => some (encodeShift 0x2A 0x26 0x36 0x2E 0x3E m)
  | .ror m => some (encodeShift 0x6A 0x66 0x76 0x6E 0x7E m)
  | .bcc => some 0x90
  | .bcs => some 0xB0
  | .beq => some 0xF0
  | .bne => some 0xD0
  | .bmi => some 0x30
  | .bpl => some 0x10
  | .bvc => some 0x50
  | .bvs => some 0x70
  | .jmp .abs => some 0x4C
  | .jmp .ind => some 0x6C
  | .jsr => some 0x20
  | .rts => some 0x60
  | .clc => some 0x18
  | .sec => some 0x38
  | .cli => some 0x58
  | .sei => some 0x78
  | .clv => some 0xB8
  | .cld => some 0xD8
  | .sed => some 0xF8
  | .nop => some 0xEA
  | .brk => some 0x00
  | .rti => some 0x40
  | .ill op => if Instr.wf (.ill op) then some op else none

/-- Bytes of a read-class instruction by mode (R121, R122). -/
def ReadMode.bytes : ReadMode → Nat
  | .imm => 2
  | .zp => 2
  | .zpx => 2
  | .zpy => 2
  | .abs => 3
  | .abx => 3
  | .aby => 3
  | .izx => 2
  | .izy => 2

/-- Bytes of a write-class instruction by mode (R121, R122). -/
def StoreMode.bytes : StoreMode → Nat
  | .zp => 2
  | .zpx => 2
  | .zpy => 2
  | .abs => 3
  | .abx => 3
  | .aby => 3
  | .izx => 2
  | .izy => 2

/-- Bytes of a read-modify-write instruction by mode (R121, R122). -/
def RmwMode.bytes : RmwMode → Nat
  | .zp => 2
  | .zpx => 2
  | .abs => 3
  | .abx => 3

/-- Bytes of a shift or rotate (R121, R122). -/
def ShiftMode.bytes : ShiftMode → Nat
  | .acc => 1
  | .mem m => m.bytes

/-- Length in bytes of an illegal opcode (R127). -/
def illegalBytes (op : Byte) : Nat :=
  if illegal1.contains op then 1 else if illegal2.contains op then 2 else 3

/-- Length of an instruction in bytes (R120, R124); BRK is one byte, its padding byte is fetched and discarded
(R123). -/
def Instr.bytes : Instr → Nat
  | .lda m => m.bytes
  | .ldx m => m.bytes
  | .ldy m => m.bytes
  | .sta m => m.bytes
  | .stx m => m.bytes
  | .sty m => m.bytes
  | .tax => 1
  | .tay => 1
  | .txa => 1
  | .tya => 1
  | .tsx => 1
  | .txs => 1
  | .pha => 1
  | .php => 1
  | .pla => 1
  | .plp => 1
  | .adc m => m.bytes
  | .sbc m => m.bytes
  | .and m => m.bytes
  | .ora m => m.bytes
  | .eor m => m.bytes
  | .cmp m => m.bytes
  | .cpx m => m.bytes
  | .cpy m => m.bytes
  | .bit m => m.bytes
  | .inc m => m.bytes
  | .dec m => m.bytes
  | .inx => 1
  | .iny => 1
  | .dex => 1
  | .dey => 1
  | .asl m => m.bytes
  | .lsr m => m.bytes
  | .rol m => m.bytes
  | .ror m => m.bytes
  | .bcc => 2
  | .bcs => 2
  | .beq => 2
  | .bne => 2
  | .bmi => 2
  | .bpl => 2
  | .bvc => 2
  | .bvs => 2
  | .jmp _ => 3
  | .jsr => 3
  | .rts => 1
  | .clc => 1
  | .sec => 1
  | .cli => 1
  | .sei => 1
  | .clv => 1
  | .cld => 1
  | .sed => 1
  | .nop => 1
  | .brk => 1
  | .rti => 1
  | .ill op => illegalBytes op

/-- Base cycles of a read-class instruction by mode (R130, R164). -/
def ReadMode.cycles : ReadMode → Nat
  | .imm => 2
  | .zp => 3
  | .zpx => 4
  | .zpy => 4
  | .abs => 4
  | .abx => 4
  | .aby => 4
  | .izx => 6
  | .izy => 5

/-- Cycles of a write-class instruction by mode (R130, R164). -/
def StoreMode.cycles : StoreMode → Nat
  | .zp => 3
  | .zpx => 4
  | .zpy => 4
  | .abs => 4
  | .abx => 5
  | .aby => 5
  | .izx => 6
  | .izy => 6

/-- Cycles of a read-modify-write instruction by mode (R130, R164). -/
def RmwMode.cycles : RmwMode → Nat
  | .zp => 5
  | .zpx => 6
  | .abs => 6
  | .abx => 7

/-- Cycles of a shift or rotate (R130, R164). -/
def ShiftMode.cycles : ShiftMode → Nat
  | .acc => 2
  | .mem m => m.cycles

/-- Base cycle count of an instruction: no page crossed, branch not taken, no DMA or stall (R130, R124); an
illegal opcode takes max(2, L) (R300). -/
def Instr.baseCycles : Instr → Nat
  | .lda m => m.cycles
  | .ldx m => m.cycles
  | .ldy m => m.cycles
  | .sta m => m.cycles
  | .stx m => m.cycles
  | .sty m => m.cycles
  | .tax => 2
  | .tay => 2
  | .txa => 2
  | .tya => 2
  | .tsx => 2
  | .txs => 2
  | .pha => 3
  | .php => 3
  | .pla => 4
  | .plp => 4
  | .adc m => m.cycles
  | .sbc m => m.cycles
  | .and m => m.cycles
  | .ora m => m.cycles
  | .eor m => m.cycles
  | .cmp m => m.cycles
  | .cpx m => m.cycles
  | .cpy m => m.cycles
  | .bit m => m.cycles
  | .inc m => m.cycles
  | .dec m => m.cycles
  | .inx => 2
  | .iny => 2
  | .dex => 2
  | .dey => 2
  | .asl m => m.cycles
  | .lsr m => m.cycles
  | .rol m => m.cycles
  | .ror m => m.cycles
  | .bcc => 2
  | .bcs => 2
  | .beq => 2
  | .bne => 2
  | .bmi => 2
  | .bpl => 2
  | .bvc => 2
  | .bvs => 2
  | .jmp .abs => 3
  | .jmp .ind => 5
  | .jsr => 6
  | .rts => 6
  | .clc => 2
  | .sec => 2
  | .cli => 2
  | .sei => 2
  | .clv => 2
  | .cld => 2
  | .sed => 2
  | .nop => 2
  | .brk => 7
  | .rti => 6
  | .ill op => max 2 (illegalBytes op)

/-- An instruction read off a list of bytes: the decoded opcode, its operand bytes in fetch order (R121), and
the bytes after it. -/
structure Decoded where
  instr : Instr
  operands : List Byte
  rest : List Byte
deriving DecidableEq, Repr

/-- Why a list of bytes is not an instruction. -/
inductive DecodeError where
  /-- there is no opcode byte -/
  | noOpcode
  /-- fewer operand bytes than the opcode's length asks for (R120) -/
  | operandsMissing (op : Byte)
deriving DecidableEq, Repr

/-- Read one instruction off a list of bytes (R120): the opcode byte fixes how many operand bytes follow. -/
def decodeBytes : List Byte → Except DecodeError Decoded
  | [] => .error .noOpcode
  | b :: bs =>
    let i := decodeOpcode b
    let k := i.bytes - 1
    if bs.length < k then .error (.operandsMissing b) else .ok ⟨i, bs.take k, bs.drop k⟩

/-- The bytes of a well-formed instruction with its operand bytes (R121), `none` if it is not well formed or
the operand bytes are not as many as its length asks for. -/
def encode (i : Instr) (operands : List Byte) : Option (List Byte) :=
  match encodeOpcode i with
  | none => none
  | some b => if operands.length = i.bytes - 1 then some (b :: operands) else none

/-- The bytes of an instruction numbered as spec/opcode_table.json numbers its bits: byte `k` is bits
`8k+7 .. 8k` of `w`, bits at and above `nbits` are 0, and three bytes are laid out, the longest length. -/
def tableBytes (nbits w : Nat) : List Byte :=
  let v := w % 2 ^ nbits
  [BitVec.ofNat 8 v, BitVec.ofNat 8 (v >>> 8), BitVec.ofNat 8 (v >>> 16)]

/-- The instruction the decoder reads from an instruction whose bits are `w`. -/
def decodeTableWord (nbits w : Nat) : Option Instr :=
  match decodeBytes (tableBytes nbits w) with
  | .ok d => some d.instr
  | .error _ => none

end Sys2Proof
end

