-- ==== Sys2Proof/Machine/Bits.lean ====
section
/-! DEFINITION. Bit and field notation of spec/00_scope.md R10: `v[i]`, `v[hi:lo]`, writing a field, joining two
bytes, and the bit reversal of spec/61_ppu.md R443. -/

namespace Sys2Proof.Machine

/-- `v[i]` (R10). -/
def bit {n : Nat} (v : BitVec n) (i : Nat) : Bool := v.getLsbD i

/-- `v[lo+len-1 : lo]` (R10). -/
def field {n : Nat} (v : BitVec n) (lo len : Nat) : BitVec len := v.extractLsb' lo len

/-- `v` with the field that starts at bit `lo` and is as wide as `x` replaced by `x`. -/
def putField {n m : Nat} (v : BitVec n) (lo : Nat) (x : BitVec m) : BitVec n :=
  (v &&& ~~~((BitVec.allOnes m).setWidth n <<< lo)) ||| (x.setWidth n <<< lo)

/-- A truth value as a one-bit field (R10: 1 for true, 0 for false). -/
def bit1 (b : Bool) : BitVec 1 := BitVec.ofBool b

/-- `{hi, lo}` of two bytes (R10, R87: little-endian, the first byte is the low one). -/
def word (hi lo : Byte) : Word := hi ++ lo

/-- High byte of an address. -/
def hiByte (a : Word) : Byte := field a 8 8

/-- Low byte of an address. -/
def loByte (a : Word) : Byte := field a 0 8

/-- `zext_16` of a byte (R10). -/
def zext16 (b : Byte) : Word := b.setWidth 16

/-- `sext_16` of a byte (R10, R123). -/
def sext16 (b : Byte) : Word := b.signExtend 16

/-- `bitreverse_8` (R443). -/
def bitReverse8 (b : Byte) : Byte :=
  field b 0 1 ++ field b 1 1 ++ field b 2 1 ++ field b 3 1 ++ field b 4 1 ++ field b 5 1 ++ field b 6 1 ++ field b 7 1

end Sys2Proof.Machine
end

