-- ==== Sys2Proof/Config.lean ====
section
/-! DEFINITION. The parameters of the machine (spec/00_scope.md R7): what a model takes as arguments. The controller
bytes are the host's input (Machine/State.lean, `Controllers`). The mapper is an interface (R84): mapper 0 is
given in full (Machine/Mapper.lean), and what any other mapper answers is left free here. -/

namespace Sys2Proof

/-- The switches of R7; no step changes them. -/
structure Params where
  /-- DUMMY_CYCLES_ON_BUS (R150, decision D1): the `[dummy-B]` cycles are bus accesses, not idle cycles. -/
  dummyCyclesOnBus : Bool
  /-- TICK_BEFORE_ACCESS (R73, decision D2): the devices tick before the access of the same cycle. -/
  tickBeforeAccess : Bool
  /-- IllegalTiming (R300, decision D6): (opcode, cycles) pairs that replace the default max(2, L). -/
  illegalTiming : List (Byte × Nat)
deriving DecidableEq, Repr

/-- The defaults of R7: true, true, max(2, L). -/
def Params.default : Params :=
  { dummyCyclesOnBus := true, tickBeforeAccess := true, illegalTiming := [] }

/-- The machine's state before the first reset sequence where the source fixes none (R7 `PowerOn`, decisions D4
and D15). The memories are lists in the canonical form of `Memory.wf`. -/
structure PowerOn where
  a : Byte
  x : Byte
  y : Byte
  s : Byte
  pc : Word
  n : Bool
  v : Bool
  d : Bool
  i : Bool
  z : Bool
  c : Bool
  ram : Memory 8
  oam : Memory 8
  vram : Memory 8
  palette : Memory 6
  /-- the CHR-RAM of a cartridge that has it (decision D15, U4) -/
  chrRam : Memory 8
  framebuffer : Memory 9
deriving DecidableEq, Repr

/-- The defaults of R20 to R25 as decision D4 gives them (I = 0: notes/assumptions/7.md). The memories, for
which the spec gives no default (D15), hold zeros, the program counter before the reset sequence is 0 and the frame buffer is blank: DESIGN CHOICE,
notes/assumptions/2.md to 4.md. -/
def PowerOn.default : PowerOn :=
  { a := 0, x := 0, y := 0, s := 0, pc := 0,
    n := false, v := false, d := false, i := false, z := false, c := false,
    ram := [], oam := [], vram := [], palette := [], chrRam := [], framebuffer := [] }

/-- Nametable mirroring of the cartridge (R423). -/
inductive Mirroring where
  | horizontal
  | vertical
deriving DecidableEq, Repr, Inhabited

/-- What a cartridge is built of and no access changes: the PRG image, keyed by the offset into it, and the wiring
(R64, R85). -/
structure Board where
  prg : Memory 8
  /-- 32 KiB of PRG instead of 16 KiB, on mapper 0 -/
  prg32 : Bool
  /-- CHR-RAM instead of CHR-ROM -/
  chrRam : Bool
  mirroring : Mirroring
deriving DecidableEq, Repr

/-- The `Mapper` interface (R84), its operations as functions of the board and of the mapper's own state: `regs`, the
bank registers and PRG-RAM that a CPU write may change and every answer may depend on, and `observer`, what
`tick_ppu_address` keeps for `irq` (notes/assumptions/5.md). -/
structure Mapper where
  /-- `cpu_read(a)`: a byte, or not driven -/
  cpuRead : Board → (regs : List Nat) → Word → Option Byte
  /-- `cpu_write(a, v)`: the new registers and observer -/
  cpuWrite : Board → (regs observer : List Nat) → Word → Byte → List Nat × List Nat
  /-- where in CHR `ppu_read(a)` and `ppu_write(a, v)` go: the bank the mapper decides -/
  chrIndex : (regs : List Nat) → PpuAddr → BitVec 21
  /-- `mirroring()` -/
  mirroring : Board → (regs : List Nat) → Mirroring
  /-- `tick_ppu_address(a)`, in the cycle with the given number: the new observer -/
  tickPpuAddress : (regs observer : List Nat) → (cyc : Nat) → PpuAddr → List Nat
  /-- `irq()` -/
  irq : (regs observer : List Nat) → Bool
  /-- the mapper's own registers and observer at power-on (R65) -/
  powerOn : List Nat × List Nat
deriving Inhabited

/-- The mapper of a number other than 0. The spec gives none of their registers (R5, R86, N18): free, so a statement
holds for whatever mapper it is (notes/assumptions/5.md). -/
opaque Config.mapper : (number : Nat) → Mapper

end Sys2Proof
end

