-- ==== Sys2Proof/Machine/Mem.lean ====
section
/-! DEFINITION. Operations on a memory held as a sorted list of the cells that are not 0 (Word.lean): an unlisted
address reads as 0 (notes/assumptions/2.md). -/

namespace Sys2Proof

/-- The value at address `a`. -/
def Memory.get {w : Nat} : Memory w → Nat → BitVec w
  | [], _ => 0
  | (k, x) :: m, a => if k = a then x else Memory.get m a

/-- The memory with `v` at address `a`, in canonical form. -/
def Memory.set {w : Nat} : Memory w → Nat → BitVec w → Memory w
  | [], a, v => if v = 0 then [] else [(a, v)]
  | (k, x) :: m, a, v =>
    if a < k then (if v = 0 then (k, x) :: m else (a, v) :: (k, x) :: m)
    else if a = k then (if v = 0 then m else (a, v) :: m)
    else (k, x) :: Memory.set m a v

/-- Every listed address is at least `lo`, addresses rise strictly, no listed value is 0, and every address is
below `size`. -/
def Memory.wfFrom {w : Nat} (size : Nat) : Nat → Memory w → Bool
  | _, [] => true
  | lo, (k, x) :: m => lo ≤ k && k < size && x != 0 && Memory.wfFrom size (k + 1) m

/-- Canonical form of a memory of `size` cells. -/
def Memory.wf {w : Nat} (size : Nat) (m : Memory w) : Bool := Memory.wfFrom size 0 m

end Sys2Proof
end

