-- ==== Sys2Proof/Machine/Mapper.lean ====
section
/-! DEFINITION. The mappers behind the `Mapper` interface (spec/20_memory.md R84): mapper 0, the reference
instantiation (R85), and the others by their number. -/

namespace Sys2Proof.Machine

/-- Size of a mapper 0 PRG image in bytes (R85). -/
def nromPrgSize (b : Board) : Nat := if b.prg32 then 0x8000 else 0x4000

/-- Mapper 0 (R85): PRG from $8000 up, not driven below, no registers, fixed CHR and mirroring, no IRQ. -/
def nrom : Mapper :=
  { cpuRead := fun b _ a => if 0x8000 ≤ a.toNat then some (b.prg.get ((a.toNat - 0x8000) % nromPrgSize b)) else none,
    cpuWrite := fun _ regs observer _ _ => (regs, observer),
    chrIndex := fun _ a => a.setWidth 21,
    mirroring := fun b _ => b.mirroring,
    tickPpuAddress := fun _ observer _ _ => observer,
    irq := fun _ _ => false,
    powerOn := ([], []) }

/-- The mapper of a number (R84, R86). -/
def mapperOf : Nat → Mapper
  | 0 => nrom
  | n + 1 => Config.mapper (n + 1)

end Sys2Proof.Machine
end

