-- ==== Sys2Proof/Machine/State.lean ====
section
/-! DEFINITION. The state of the machine: everything spec/10_state.md names, the cartridge behind the
mapper interface of spec/20_memory.md R84, the host's controller bytes and the parameters of R7; its power-on value, the state
after reset, and the reasons a step could stop. Field names follow the spec. -/

namespace Sys2Proof.Machine

/-- Nothing in this machine faults (R97, R330: no access and no instruction can), so there is no fault. -/
inductive Fault
deriving DecidableEq, Repr

/-- Reasons a step has no meaning to give. -/
inductive Refusal where
  /-- Raised only by an arm of `exec` whose instruction has no meaning yet (none has it); safe: the model stops
  where the hardware goes on. -/
  | notModelled (mnemonic : String)
deriving DecidableEq, Repr

/-- CPU registers and the six stored flags (R20 to R25). B and bit 5 of the status byte are not stored. -/
structure Cpu where
  a : Byte
  x : Byte
  y : Byte
  s : Byte
  pc : Word
  n : Bool
  v : Bool
  d : Bool
  i : Bool
  z : Bool
  c : Bool
deriving DecidableEq, Repr

/-- Background pipeline (R46): pattern and attribute shifters, the 1-bit latches, the fetch latches. -/
structure Background where
  patLo : BitVec 16
  patHi : BitVec 16
  atLo : Byte
  atHi : Byte
  atLatchLo : Bool
  atLatchHi : Bool
  ntByte : Byte
  atBits : BitVec 2
  patLoLatch : Byte
  patHiLatch : Byte
deriving DecidableEq, Repr

/-- One of the eight sprite units (R47). -/
structure SpriteUnit where
  patLo : Byte
  patHi : Byte
  attr : Byte
  x : Byte
deriving DecidableEq, Repr

/-- `ev_mode` of sprite evaluation (R47, R441). -/
inductive EvMode where
  | scan
  | copy
  | ovf
  | done
deriving DecidableEq, Repr

/-- Sprite evaluation state `ev_n`, `ev_m`, `ev_k`, `ev_byte`, `ev_mode` (R47, R441, R442). -/
structure Evaluation where
  n : BitVec 6
  m : BitVec 2
  k : Nat
  byte : Byte
  mode : EvMode
deriving DecidableEq, Repr

/-- PPU state (R39 to R51). `scanline` and `dot` name the dot the next tick executes (R48). `units` are the
eight sprite units in slot order. The frame buffer is keyed by `256 * scanline + column`. -/
structure Ppu where
  oam : Memory 8
  oam2 : Memory 8
  palette : Memory 6
  vram : Memory 8
  v : BitVec 15
  t : BitVec 15
  fineX : BitVec 3
  w : Bool
  ctrl : Byte
  mask : Byte
  vblank : Bool
  spr0Hit : Bool
  sprOverflow : Bool
  oamaddr : Byte
  readBuffer : Byte
  bg : Background
  units : List SpriteUnit
  sprCount : Nat
  spr0OnLine : Bool
  sprCountNext : Nat
  spr0Next : Bool
  ev : Evaluation
  scanline : Int
  dot : Nat
  oddFrame : Bool
  suppressVbl : Bool
  framebuffer : Memory 9
  frameDone : Bool
deriving DecidableEq, Repr

/-- Envelope unit (R53); `loop` is also the channel's length-counter halt flag. -/
structure Envelope where
  start : Bool
  divider : BitVec 4
  decay : BitVec 4
  loop : Bool
  constVol : Bool
  vol : BitVec 4
deriving DecidableEq, Repr

/-- Sweep unit (R54). -/
structure Sweep where
  enable : Bool
  period : BitVec 3
  negate : Bool
  shift : BitVec 3
  divider : BitVec 3
  reload : Bool
deriving DecidableEq, Repr

/-- Pulse channel (R52). -/
structure Pulse where
  duty : BitVec 2
  seqPos : BitVec 3
  timerPeriod : BitVec 11
  timer : BitVec 11
  length : Byte
  enabled : Bool
  env : Envelope
  sweep : Sweep
deriving DecidableEq, Repr

/-- Triangle channel (R55); `control` is also the length-counter halt flag. -/
structure Triangle where
  timerPeriod : BitVec 11
  timer : BitVec 11
  length : Byte
  control : Bool
  linearReloadValue : BitVec 7
  linear : BitVec 7
  linearReload : Bool
  seqPos : BitVec 5
  enabled : Bool
deriving DecidableEq, Repr

/-- Noise channel (R56). -/
structure Noise where
  period : BitVec 12
  timer : BitVec 12
  length : Byte
  env : Envelope
  lfsr : BitVec 15
  mode : Bool
  enabled : Bool
deriving DecidableEq, Repr

/-- DMC channel (R57), its interrupt flag `dmc_irq` (R61) and `dmc_stall_request` (R36). -/
structure Dmc where
  irqEnable : Bool
  loop : Bool
  period : BitVec 9
  timer : BitVec 9
  level : BitVec 7
  sampleAddr : Word
  sampleLen : BitVec 12
  curAddr : Word
  bytesRemaining : BitVec 12
  buffer : Byte
  bufferEmpty : Bool
  shift : Byte
  bitsRemaining : BitVec 4
  silence : Bool
  irq : Bool
  stallRequest : Bool
deriving DecidableEq, Repr

/-- APU state (R52 to R62). `sample` is the output value of the last tick, an exact rational (R60, R560). -/
structure Apu where
  pulse1 : Pulse
  pulse2 : Pulse
  tri : Triangle
  noise : Noise
  dmc : Dmc
  fcMode : Bool
  fcIrqInhibit : Bool
  fcCycle : Word
  parity : Bool
  sample : Rat
  frameIrq : Bool
deriving DecidableEq, Repr

/-- Controller ports (R63) and the two bytes the host supplies, bit 0 = A to bit 7 = Right (R96). -/
structure Controllers where
  shift0 : Byte
  shift1 : Byte
  strobe : Bool
  pad0 : Byte
  pad1 : Byte
deriving DecidableEq, Repr

/-- The cartridge behind the `Mapper` interface (R84): its board, CHR keyed by the mapper's index (on mapper 0 the PPU
address below $2000, R85), the mapper's number and the mapper's own state (Config.lean, `Mapper`). -/
structure Cartridge extends Board where
  chr : Memory 8
  mapper : Nat
  regs : List Nat
  observer : List Nat
deriving DecidableEq, Repr

/-- The whole machine (spec/10_state.md). `audio` is the APU's output: the value `sample` took in each cycle since
the frame began, newest first (R561, R612, R614). -/
structure State where
  cpu : Cpu
  nmiLatch : Bool
  nmiLinePrev : Bool
  resetPending : Bool
  cyc : Nat
  busLatch : Byte
  ram : Memory 8
  ppu : Ppu
  apu : Apu
  pads : Controllers
  cart : Cartridge
  audio : List Rat
  params : Params
deriving DecidableEq, Repr

/-- An envelope at power-on: all 0 (R53, decision D28). -/
def Envelope.powerOn : Envelope :=
  { start := false, divider := 0, decay := 0, loop := false, constVol := false, vol := 0 }

/-- A sweep unit at power-on: all 0 (R54, decision D28). -/
def Sweep.powerOn : Sweep :=
  { enable := false, period := 0, negate := false, shift := 0, divider := 0, reload := false }

/-- A pulse channel at power-on: all 0 (R52, decision D28). -/
def Pulse.powerOn : Pulse :=
  { duty := 0, seqPos := 0, timerPeriod := 0, timer := 0, length := 0, enabled := false,
    env := .powerOn, sweep := .powerOn }

/-- The triangle channel at power-on: all 0 (R55, decision D28). -/
def Triangle.powerOn : Triangle :=
  { timerPeriod := 0, timer := 0, length := 0, control := false, linearReloadValue := 0, linear := 0,
    linearReload := false, seqPos := 0, enabled := false }

/-- The noise channel at power-on: all 0 but `lfsr` = 1 (R56, decision D28). -/
def Noise.powerOn : Noise :=
  { period := 0, timer := 0, length := 0, env := .powerOn, lfsr := 1, mode := false, enabled := false }

/-- The DMC at power-on: all 0 but `dmc_period` = 428, `dmc_buffer_empty` = 1, `dmc_bits_remaining` = 8,
`dmc_silence` = 1 (R57, decision D28). -/
def Dmc.powerOn : Dmc :=
  { irqEnable := false, loop := false, period := 428, timer := 0, level := 0, sampleAddr := 0,
    sampleLen := 0, curAddr := 0, bytesRemaining := 0, buffer := 0, bufferEmpty := true, shift := 0,
    bitsRemaining := 8, silence := true, irq := false, stallRequest := false }

/-- The APU at power-on (R52 to R62, decision D28). -/
def Apu.powerOn : Apu :=
  { pulse1 := .powerOn, pulse2 := .powerOn, tri := .powerOn, noise := .powerOn, dmc := .powerOn,
    fcMode := false, fcIrqInhibit := false, fcCycle := 0, parity := false, sample := 0, frameIrq := false }

/-- The PPU at power-on: every register, latch and flag 0, `oam2` all $FF, position (0, 0), even frame (R39 to
R51, decision D23); the memories of `PowerOn` (decision D15). -/
def Ppu.powerOn (p : PowerOn) : Ppu :=
  { oam := p.oam, oam2 := (List.range 32).map (fun k => (k, 0xFF#8)), palette := p.palette, vram := p.vram,
    v := 0, t := 0, fineX := 0, w := false, ctrl := 0, mask := 0, vblank := false, spr0Hit := false,
    sprOverflow := false, oamaddr := 0, readBuffer := 0,
    bg := { patLo := 0, patHi := 0, atLo := 0, atHi := 0, atLatchLo := false, atLatchHi := false, ntByte := 0,
            atBits := 0, patLoLatch := 0, patHiLatch := 0 },
    units := List.replicate 8 { patLo := 0, patHi := 0, attr := 0, x := 0 },
    sprCount := 0, spr0OnLine := false, sprCountNext := 0, spr0Next := false,
    ev := { n := 0, m := 0, k := 0, byte := 0, mode := .scan },
    scanline := 0, dot := 0, oddFrame := false, suppressVbl := false,
    framebuffer := p.framebuffer, frameDone := false }

/-- A cartridge of mapper 0 with nothing placed in it: 16 KiB of PRG, 8 KiB of CHR-ROM, horizontal mirroring,
every byte 0 (DESIGN CHOICE, notes/assumptions/5.md). -/
def Cartridge.blank : Cartridge :=
  { prg := [], prg32 := false, chr := [], chrRam := false, mirroring := .horizontal, mapper := 0, regs := [],
    observer := [] }

/-- A cartridge at power-on: CHR-RAM holds what `PowerOn` says, CHR-ROM its image, the mapper its own power-on state
(R65, decision D15, U4). -/
def Cartridge.powerOn (p : PowerOn) (c : Cartridge) : Cartridge :=
  { c with chr := if c.chrRam then p.chrRam else c.chr, regs := (mapperOf c.mapper).powerOn.1,
           observer := (mapperOf c.mapper).powerOn.2 }

/-- The machine at power-on (R600): every element at its power-on value, `reset_pending` = 1, `cyc` = 0. -/
def State.powerOn (p : PowerOn) (cart : Cartridge) (params : Params) : State :=
  { cpu := { a := p.a, x := p.x, y := p.y, s := p.s, pc := p.pc,
             n := p.n, v := p.v, d := p.d, i := p.i, z := p.z, c := p.c },
    nmiLatch := false, nmiLinePrev := false, resetPending := true, cyc := 0, busLatch := 0,
    ram := p.ram, ppu := .powerOn p, apu := .powerOn,
    pads := { shift0 := 0, shift1 := 0, strobe := false, pad0 := 0, pad1 := 0 },
    cart := cart.powerOn p, audio := [], params := params }

/-- The machine right after power-on with the defaults of R7: its next step is the 7-cycle reset sequence, which
loads PC from $FFFC/$FFFD and sets I (R600, R602; notes/assumptions/6.md). -/
def State.reset : State := State.powerOn .default .blank .default

end Sys2Proof.Machine
end

