-- ==== Sys2Proof/Machine/Apu.lean ====
section
/-! DEFINITION. The APU: registers, frame sequencer, channels, DMC and mixer (spec/62_apu.md). -/

namespace Sys2Proof.Machine

/-- `LEN[0..31]` (R509). -/
def lenTable : List Byte :=
  [10, 254, 20, 2, 40, 4, 80, 6, 160, 8, 60, 10, 14, 12, 26, 14] ++
  [12, 16, 24, 18, 48, 20, 96, 22, 192, 24, 72, 26, 16, 28, 32, 30]

/-- `DUTY[duty][seq_pos]`, each row from `seq_pos` 0 to 7 (R522). -/
def dutyTable : List (List Bool) :=
  [[false, true, false, false, false, false, false, false],
   [false, true, true, false, false, false, false, false],
   [false, true, true, true, true, false, false, false],
   [true, false, false, true, true, true, true, true]]

/-- `TRI[0..31]` (R533). -/
def triTable : List Nat :=
  [15, 14, 13, 12, 11, 10, 9, 8, 7, 6, 5, 4, 3, 2, 1, 0] ++
  [0, 1, 2, 3, 4, 5, 6, 7, 8, 9, 10, 11, 12, 13, 14, 15]

/-- `NOISE[0..15]` (R536). -/
def noiseTable : List (BitVec 12) :=
  [4, 8, 16, 32, 64, 96, 128, 160, 202, 254, 380, 508, 762, 1016, 2034, 4068]

/-- `DMCRATE[0..15]` (R546). -/
def dmcRateTable : List (BitVec 9) :=
  [428, 380, 340, 320, 286, 254, 226, 214, 190, 160, 142, 128, 106, 84, 72, 54]

/-- `LEN[val[7:3]]` (R500, R509). -/
def lenOf (v : Byte) : Byte := lenTable.getD (field v 3 5).toNat 0

/-! Units (R511, R523, R524, R531). -/

/-- `EnvelopeClock(c)` (R523). -/
def envelopeClock (e : Envelope) : Envelope :=
  if e.start then { e with start := false, decay := 15, divider := e.vol }
  else if e.divider = 0 then
    { e with divider := e.vol, decay := if e.decay ≠ 0 then e.decay - 1 else if e.loop then 15 else e.decay }
  else { e with divider := e.divider - 1 }

/-- `EnvelopeVolume(c)` (R523). -/
def envelopeVolume (e : Envelope) : Nat := if e.constVol then e.vol.toNat else e.decay.toNat

/-- `SweepTarget(p)` (R524); `one` says that the channel is pulse 1, which negates in ones' complement. -/
def sweepTarget (one : Bool) (p : Pulse) : Nat :=
  let t := p.timerPeriod.toNat
  let change := t >>> p.sweep.shift.toNat
  if p.sweep.negate then (if one then t - change - 1 else t - change) else t + change

/-- `SweepMute(p)` (R524). -/
def sweepMute (one : Bool) (p : Pulse) : Bool := p.timerPeriod.toNat < 8 || 0x7FF < sweepTarget one p

/-- `SweepClock(p)` (R524). -/
def sweepClock (one : Bool) (p : Pulse) : Pulse :=
  let w := p.sweep
  let period :=
    if w.divider == 0 && w.enable && w.shift != 0 && !sweepMute one p then BitVec.ofNat 11 (sweepTarget one p)
    else p.timerPeriod
  let w' :=
    if w.divider == 0 || w.reload then { w with divider := w.period, reload := false }
    else { w with divider := w.divider - 1 }
  { p with timerPeriod := period, sweep := w' }

/-- `LengthClock(c)` on a length counter with its halt flag (R511). -/
def lengthClock (halt : Bool) (length : Byte) : Byte := if !halt && length != 0 then length - 1 else length

/-- `LinearClock()` (R531). -/
def linearClock (t : Triangle) : Triangle :=
  { t with
    linear := if t.linearReload then t.linearReloadValue else if t.linear ≠ 0 then t.linear - 1 else t.linear,
    linearReload := t.linearReload && t.control }

/-! Frame sequencer (R502 to R506). -/

/-- `QuarterFrame()` (R503). -/
def quarterFrame (a : Apu) : Apu :=
  { a with pulse1 := { a.pulse1 with env := envelopeClock a.pulse1.env },
           pulse2 := { a.pulse2 with env := envelopeClock a.pulse2.env },
           noise := { a.noise with env := envelopeClock a.noise.env },
           tri := linearClock a.tri }

/-- The length counters' part of `HalfFrame()` (R504). -/
def lengthClocks (a : Apu) : Apu :=
  { a with pulse1 := { a.pulse1 with length := lengthClock a.pulse1.env.loop a.pulse1.length },
           pulse2 := { a.pulse2 with length := lengthClock a.pulse2.env.loop a.pulse2.length },
           tri := { a.tri with length := lengthClock a.tri.control a.tri.length },
           noise := { a.noise with length := lengthClock a.noise.env.loop a.noise.length } }

/-- `HalfFrame()` (R504). -/
def halfFrame (a : Apu) : Apu :=
  let b := lengthClocks a
  { b with pulse1 := sweepClock true b.pulse1, pulse2 := sweepClock false b.pulse2 }

/-- `FrameCounterStep()` (R502). -/
def frameCounterStep (a : Apu) : Apu :=
  let k := a.fcCycle + 1
  let b := { a with fcCycle := k }
  if k = 7457 then quarterFrame b
  else if k = 14913 then halfFrame (quarterFrame b)
  else if k = 22371 then quarterFrame b
  else if a.fcMode then
    if k = 37281 then halfFrame (quarterFrame b)
    else if k = 37282 then { b with fcCycle := 0 }
    else b
  else
    if k = 29829 then
      let c := halfFrame (quarterFrame b)
      { c with frameIrq := c.frameIrq || !c.fcIrqInhibit }
    else if k = 29830 then { b with fcCycle := 0 }
    else b

/-- `FrameCounterWrite(val)`, write $4017 (R505). -/
def frameCounterWrite (v : Byte) (a : Apu) : Apu :=
  let b := { a with fcMode := bit v 7, fcIrqInhibit := bit v 6, fcCycle := 0,
                    frameIrq := a.frameIrq && !bit v 6 }
  if bit v 7 then halfFrame (quarterFrame b) else b

/-! Channels (R521 to R538). -/

/-- `PulseTimerClock(p)` (R521). -/
def pulseTimerClock (p : Pulse) : Pulse :=
  if p.timer = 0 then { p with timer := p.timerPeriod, seqPos := p.seqPos + 1 } else { p with timer := p.timer - 1 }

/-- `PulseOut(p)` (R525). -/
def pulseOut (one : Bool) (p : Pulse) : Nat :=
  if p.length == 0 || !((dutyTable.getD p.duty.toNat []).getD p.seqPos.toNat false) || sweepMute one p then 0
  else envelopeVolume p.env

/-- `TriangleTimerClock()` (R532). -/
def triangleTimerClock (t : Triangle) : Triangle :=
  if t.timer = 0 then
    { t with timer := t.timerPeriod,
             seqPos := if t.length != 0 && t.linear != 0 then t.seqPos + 1 else t.seqPos }
  else { t with timer := t.timer - 1 }

/-- `TriOut()` (R533). -/
def triOut (t : Triangle) : Nat := triTable.getD t.seqPos.toNat 0

/-- The next value of the shift register (R537). -/
def lfsrNext (mode : Bool) (l : BitVec 15) : BitVec 15 :=
  let fb := bit l 0 ^^ (if mode then bit l 6 else bit l 1)
  (l >>> 1) ||| ((bit1 fb).setWidth 15 <<< 14)

/-- `NoiseTimerClock()` (R537). -/
def noiseTimerClock (n : Noise) : Noise :=
  if n.timer = 0 then
    { n with timer := BitVec.ofNat 12 (n.period.toNat / 2 - 1), lfsr := lfsrNext n.mode n.lfsr }
  else { n with timer := n.timer - 1 }

/-- `NoiseOut()` (R538). -/
def noiseOut (n : Noise) : Nat := if n.length == 0 || bit n.lfsr 0 then 0 else envelopeVolume n.env

/-! DMC (R545 to R553). -/

/-- The output level after one bit of the sample (R549). -/
def dmcLevel (d : Dmc) : BitVec 7 :=
  if d.silence then d.level
  else if bit d.shift 0 then (if d.level ≤ 125 then d.level + 2 else d.level)
  else (if 2 ≤ d.level then d.level - 2 else d.level)

/-- `DmcTimerClock()` (R549). -/
def dmcTimerClock (d : Dmc) : Dmc :=
  if d.timer ≠ 0 then { d with timer := d.timer - 1 }
  else
    let e := { d with timer := d.period - 1, level := dmcLevel d, shift := d.shift >>> 1,
                      bitsRemaining := d.bitsRemaining - 1 }
    if e.bitsRemaining = 0 then
      if d.bufferEmpty then { e with bitsRemaining := 8, silence := true }
      else { e with bitsRemaining := 8, silence := false, shift := d.buffer, bufferEmpty := true }
    else e

/-- The fetch request of a tick (R501, R552). -/
def dmcRequest (d : Dmc) : Dmc :=
  { d with stallRequest := d.stallRequest || (d.bufferEmpty && d.bytesRemaining != 0) }

/-- `DmcLoadSample(b)` (R553). -/
def dmcLoadSample (b : Byte) (d : Dmc) : Dmc :=
  if d.bytesRemaining = 0 then d
  else
    let e := { d with buffer := b, bufferEmpty := false,
                      curAddr := if d.curAddr = 0xFFFF then 0x8000 else d.curAddr + 1,
                      bytesRemaining := d.bytesRemaining - 1 }
    if e.bytesRemaining = 0 then
      if d.loop then { e with curAddr := d.sampleAddr, bytesRemaining := d.sampleLen }
      else { e with irq := d.irq || d.irqEnable }
    else e

/-! Mixer (R560). -/

/-- `pulse_out` for p = pulse 1 + pulse 2 (R560, decision D29). -/
def mixPulse (p : Nat) : Rat := if p = 0 then 0 else (9588 / 100) / (8128 / (p : Rat) + 100)

/-- `tnd_out` (R560, decision D29). -/
def mixTnd (tri noise dmc : Nat) : Rat :=
  let q : Rat := (tri : Rat) / 8227 + (noise : Rat) / 12241 + (dmc : Rat) / 22638
  if q = 0 then 0 else (15979 / 100) / (1 / q + 100)

/-- `Mix()` (R560). -/
def mix (a : Apu) : Rat :=
  mixPulse (pulseOut true a.pulse1 + pulseOut false a.pulse2) + mixTnd (triOut a.tri) (noiseOut a.noise) a.dmc.level.toNat

/-- The timers of a tick, after `apu_parity` has toggled and the frame counter has stepped (R501). -/
def timerClocks (a : Apu) : Apu :=
  let b := { a with tri := triangleTimerClock a.tri, dmc := dmcTimerClock a.dmc }
  if b.parity then
    { b with pulse1 := pulseTimerClock b.pulse1, pulse2 := pulseTimerClock b.pulse2, noise := noiseTimerClock b.noise }
  else b

/-- `ApuTick()` (R501). -/
def apuTick (a : Apu) : Apu :=
  let b := timerClocks (frameCounterStep { a with parity := !a.parity })
  let c := { b with dmc := dmcRequest b.dmc }
  { c with sample := mix c }

/-! Registers (R500, R507, R508). -/

/-- Writes $4000 to $4003 or $4004 to $4007 of a pulse channel (R500). DESIGN CHOICE (notes/assumptions/19.md): the
`if enabled` of $4003 and $4007 gates the length load alone; `seq_pos` and `env_start` are set always. -/
def pulseWrite (r : Nat) (v : Byte) (p : Pulse) : Pulse :=
  match r with
  | 0 => { p with duty := field v 6 2, env := { p.env with loop := bit v 5, constVol := bit v 4, vol := field v 0 4 } }
  | 1 => { p with sweep := { p.sweep with enable := bit v 7, period := field v 4 3, negate := bit v 3,
                                          shift := field v 0 3, reload := true } }
  | 2 => { p with timerPeriod := putField p.timerPeriod 0 v }
  | _ => { p with timerPeriod := putField p.timerPeriod 8 (field v 0 3),
                  length := if p.enabled then lenOf v else p.length,
                  seqPos := 0, env := { p.env with start := true } }

/-- Writes $4008 to $400B (R500). DESIGN CHOICE (notes/assumptions/19.md): the `if enabled` of $400B gates the length
load alone; `linear_reload` is set always. -/
def triWrite (r : Nat) (v : Byte) (t : Triangle) : Triangle :=
  match r with
  | 0 => { t with control := bit v 7, linearReloadValue := field v 0 7 }
  | 1 => t
  | 2 => { t with timerPeriod := putField t.timerPeriod 0 v }
  | _ => { t with timerPeriod := putField t.timerPeriod 8 (field v 0 3),
                  length := if t.enabled then lenOf v else t.length, linearReload := true }

/-- Writes $400C to $400F (R500). DESIGN CHOICE (notes/assumptions/19.md): the `if enabled` of $400F gates the length
load alone; `env_start` is set always. -/
def noiseWrite (r : Nat) (v : Byte) (n : Noise) : Noise :=
  match r with
  | 0 => { n with env := { n.env with loop := bit v 5, constVol := bit v 4, vol := field v 0 4 } }
  | 1 => n
  | 2 => { n with mode := bit v 7, period := noiseTable.getD (field v 0 4).toNat 0 }
  | _ => { n with length := if n.enabled then lenOf v else n.length, env := { n.env with start := true } }

/-- Writes $4010 to $4013 (R500, R545). -/
def dmcWrite (r : Nat) (v : Byte) (d : Dmc) : Dmc :=
  match r with
  | 0 => { d with irqEnable := bit v 7, loop := bit v 6, period := dmcRateTable.getD (field v 0 4).toNat 0,
                  irq := d.irq && bit v 7 }
  | 1 => { d with level := field v 0 7 }
  | 2 => { d with sampleAddr := 0xC000 + (v.setWidth 16 <<< 6) }
  | _ => { d with sampleLen := (v.setWidth 12 <<< 4) + 1 }

/-- `ApuRegWrite(a, val)` for the register `r` = address - $4000 of $4000 to $4013 (R500). -/
def apuRegWrite (r : Nat) (v : Byte) (a : Apu) : Apu :=
  match r / 4 with
  | 0 => { a with pulse1 := pulseWrite (r % 4) v a.pulse1 }
  | 1 => { a with pulse2 := pulseWrite (r % 4) v a.pulse2 }
  | 2 => { a with tri := triWrite (r % 4) v a.tri }
  | 3 => { a with noise := noiseWrite (r % 4) v a.noise }
  | 4 => { a with dmc := dmcWrite (r % 4) v a.dmc }
  | _ => a

/-- The DMC's part of `ApuStatusWrite` (R507). -/
def dmcStatusWrite (on : Bool) (d : Dmc) : Dmc :=
  if !on then { d with bytesRemaining := 0, stallRequest := false, irq := false }
  else if d.bytesRemaining = 0 then { d with curAddr := d.sampleAddr, bytesRemaining := d.sampleLen, irq := false }
  else { d with irq := false }

/-- `ApuStatusWrite(val)`, write $4015 (R507). -/
def apuStatusWrite (v : Byte) (a : Apu) : Apu :=
  { a with pulse1 := { a.pulse1 with enabled := bit v 0, length := if bit v 0 then a.pulse1.length else 0 },
           pulse2 := { a.pulse2 with enabled := bit v 1, length := if bit v 1 then a.pulse2.length else 0 },
           tri := { a.tri with enabled := bit v 2, length := if bit v 2 then a.tri.length else 0 },
           noise := { a.noise with enabled := bit v 3, length := if bit v 3 then a.noise.length else 0 },
           dmc := dmcStatusWrite (bit v 4) a.dmc }

/-- `ApuStatusRead()`, read $4015 (R508), with the value of `bus_latch` at the access. -/
def apuStatusRead (bus : Byte) (a : Apu) : Byte × Apu :=
  (bit1 a.dmc.irq ++ bit1 a.frameIrq ++ field bus 5 1 ++ bit1 (a.dmc.bytesRemaining != 0)
     ++ bit1 (a.noise.length != 0) ++ bit1 (a.tri.length != 0) ++ bit1 (a.pulse2.length != 0)
     ++ bit1 (a.pulse1.length != 0),
   { a with frameIrq := false })

end Sys2Proof.Machine
end

