-- ==== Sys2Proof/Machine/Cart.lean ====
section
/-! DEFINITION. The operations of the mapper interface (spec/20_memory.md R84) on the cartridge of the state. -/

namespace Sys2Proof.Machine

/-- The mapper's logic. -/
def Cartridge.logic (c : Cartridge) : Mapper := mapperOf c.mapper

/-- `Mapper.cpu_read(a)`: a byte, or not driven. Only $4020 and up is the cartridge's (R82). -/
def Cartridge.cpuRead (c : Cartridge) (a : Word) : Option Byte :=
  if a.toNat < 0x4020 then none else c.logic.cpuRead c.toBoard c.regs a

/-- `Mapper.cpu_write(a, v)`: changes the mapper's own state. -/
def Cartridge.cpuWrite (c : Cartridge) (a : Word) (v : Byte) : Cartridge :=
  let r := c.logic.cpuWrite c.toBoard c.regs c.observer a v
  { c with regs := r.1, observer := r.2 }

/-- Where in CHR the PPU address `a` below $2000 is. -/
def Cartridge.chrIndex (c : Cartridge) (a : PpuAddr) : Nat := (c.logic.chrIndex c.regs a).toNat

/-- `Mapper.ppu_read(a)` for `a` below $2000: the CHR byte. -/
def Cartridge.ppuRead (c : Cartridge) (a : PpuAddr) : Byte := c.chr.get (c.chrIndex a)

/-- `Mapper.ppu_write(a, v)` for `a` below $2000: CHR-RAM is written, CHR-ROM is not. -/
def Cartridge.ppuWrite (c : Cartridge) (a : PpuAddr) (v : Byte) : Cartridge :=
  if c.chrRam then { c with chr := c.chr.set (c.chrIndex a) v } else c

/-- `Mapper.mirroring()`. -/
def Cartridge.mirror (c : Cartridge) : Mirroring := c.logic.mirroring c.toBoard c.regs

/-- `PpuBusAddress(a)` for the addresses of a dot or of a register access in cycle `cyc`, in their order: each goes to
`Mapper.tick_ppu_address(a)` (R421). -/
def Cartridge.observe (cyc : Nat) (addrs : List PpuAddr) (c : Cartridge) : Cartridge :=
  { c with observer := addrs.foldl (fun o a => c.logic.tickPpuAddress c.regs o cyc a) c.observer }

/-- `Mapper.irq()`. -/
def Cartridge.irq (c : Cartridge) : Bool := c.logic.irq c.regs c.observer

end Sys2Proof.Machine
end

