-- ==== Sys2Proof/Machine/PpuMem.lean ====
section
/-! DEFINITION. PPU memory and the eight CPU-visible PPU registers (spec/61_ppu.md sections 1 and 2). -/

namespace Sys2Proof.Machine

/-- `bg_en` (61_ppu.md, short names). -/
def bgEn (p : Ppu) : Bool := bit p.mask 3

/-- `spr_en`. -/
def sprEn (p : Ppu) : Bool := bit p.mask 4

/-- `rendering`. -/
def rendering (p : Ppu) : Bool := bgEn p || sprEn p

/-- The nametable index of a PPU address in $2000 to $3EFF (R423). -/
def ntIndex (m : Mirroring) (a : PpuAddr) : Nat :=
  let o := a.toNat % 0x1000
  match m with
  | .horizontal => o / 0x800 % 2 * 0x400 + o % 0x400
  | .vertical => o % 0x800

/-- `PalIndex` (R424): every fourth sprite entry is the background entry below it. -/
def palIndex (a : PpuAddr) : Nat :=
  let i := a.toNat % 32
  if 16 ≤ i ∧ i % 4 = 0 then i - 16 else i

/-- `PpuMemRead` (R420). -/
def ppuMemRead (c : Cartridge) (p : Ppu) (a : PpuAddr) : Byte :=
  if a.toNat < 0x2000 then c.ppuRead a
  else if a.toNat < 0x3F00 then p.vram.get (ntIndex c.mirror a)
  else (p.palette.get (palIndex a)).setWidth 8

/-- `PpuMemWrite` (R420): pattern tables go to the cartridge, a palette entry keeps 6 bits. -/
def ppuMemWrite (c : Cartridge) (p : Ppu) (a : PpuAddr) (v : Byte) : Cartridge × Ppu :=
  if a.toNat < 0x2000 then (c.ppuWrite a v, p)
  else if a.toNat < 0x3F00 then (c, { p with vram := p.vram.set (ntIndex c.mirror a) v })
  else (c, { p with palette := p.palette.set (palIndex a) (field v 0 6) })

/-- `PaletteRead` (R425): the entry, its low four bits masked in greyscale. -/
def paletteRead (p : Ppu) (a : PpuAddr) : BitVec 6 :=
  p.palette.get (palIndex a) &&& (if bit p.mask 0 then 0x30 else 0x3F)

/-- The PPU address `v & 0x3FFF` (R422). -/
def vAddr (p : Ppu) : PpuAddr := p.v.setWidth 14

/-- `v` advanced by 1 or 32 after a $2007 access (R402 bit 2, R410). -/
def incV (p : Ppu) : Ppu := { p with v := p.v + (if bit p.ctrl 2 then 32 else 1) }

/-- The addresses a read of register `r` puts on the PPU's bus (R410, R420, R421). -/
def readBusAddrs (r : Nat) (p : Ppu) : List PpuAddr :=
  match r with
  | 7 => [if (vAddr p).toNat < 0x3F00 then vAddr p else vAddr p - 0x1000, vAddr (incV p)]
  | _ => []

/-- `StatusRead()` (R405), with the value of `bus_latch` at the access. -/
def statusRead (bus : Byte) (p : Ppu) : Byte × Ppu :=
  (bit1 p.vblank ++ bit1 p.spr0Hit ++ bit1 p.sprOverflow ++ field bus 0 5,
   { p with vblank := false, w := false, suppressVbl := p.suppressVbl || (p.scanline == 241 && p.dot == 1) })

/-- `DataRead()` (R410). -/
def dataRead (c : Cartridge) (bus : Byte) (p : Ppu) : Byte × Ppu :=
  let a := vAddr p
  if a.toNat < 0x3F00 then (p.readBuffer, incV { p with readBuffer := ppuMemRead c p a })
  else (field bus 6 2 ++ paletteRead p a, incV { p with readBuffer := ppuMemRead c p (a - 0x1000) })

/-- `CtrlWrite` (R402). -/
def ctrlWrite (v : Byte) (p : Ppu) : Ppu := { p with ctrl := v, t := putField p.t 10 (field v 0 2) }

/-- `OamDataWrite` (R407). -/
def oamDataWrite (v : Byte) (p : Ppu) : Ppu :=
  { p with oam := p.oam.set p.oamaddr.toNat v, oamaddr := p.oamaddr + 1 }

/-- `ScrollWrite` (R408). -/
def scrollWrite (v : Byte) (p : Ppu) : Ppu :=
  if p.w then { p with t := putField (putField p.t 12 (field v 0 3)) 5 (field v 3 5), w := false }
  else { p with t := putField p.t 0 (field v 3 5), fineX := field v 0 3, w := true }

/-- `AddrWrite` (R409). -/
def addrWrite (v : Byte) (p : Ppu) : Ppu :=
  if p.w then
    let t := putField p.t 0 v
    { p with t := t, v := t, w := false }
  else { p with t := putField (putField p.t 8 (field v 0 6)) 14 (0#1), w := true }

/-- `DataWrite` (R411). -/
def dataWrite (c : Cartridge) (v : Byte) (p : Ppu) : Cartridge × Ppu :=
  let r := ppuMemWrite c p (vAddr p) v
  (r.1, incV r.2)

/-- The addresses a write of register `r` puts on the PPU's bus (R409, R411, R420, R421). -/
def writeBusAddrs (r : Nat) (v : Byte) (p : Ppu) : List PpuAddr :=
  match r with
  | 6 => if p.w then [vAddr (addrWrite v p)] else []
  | 7 => [vAddr p, vAddr (incV p)]
  | _ => []

/-- `PpuRegRead(r)` (R401): a write-only register reads as `bus_latch`. -/
def ppuRegRead (c : Cartridge) (bus : Byte) (r : Nat) (p : Ppu) : Byte × Ppu :=
  match r with
  | 2 => statusRead bus p
  | 4 => (p.oam.get p.oamaddr.toNat, p)
  | 7 => dataRead c bus p
  | _ => (bus, p)

/-- `PpuRegWrite(r, val)` (R401): a write to $2002 does nothing. -/
def ppuRegWrite (c : Cartridge) (r : Nat) (v : Byte) (p : Ppu) : Cartridge × Ppu :=
  match r with
  | 0 => (c, ctrlWrite v p)
  | 1 => (c, { p with mask := v })
  | 3 => (c, { p with oamaddr := v })
  | 4 => (c, oamDataWrite v p)
  | 5 => (c, scrollWrite v p)
  | 6 => (c, addrWrite v p)
  | 7 => dataWrite c v p
  | _ => (c, p)

end Sys2Proof.Machine
end

