-- ==== Sys2Proof/Machine/Ppu.lean ====
section
/-! DEFINITION. The PPU as a clocked machine: `PpuTick()` and its sub-steps (spec/61_ppu.md sections 3 to 7). -/

namespace Sys2Proof.Machine

/-- Scanlines on which the pipeline works: pre-render and visible (R430). -/
def renderLine (sl : Int) : Bool := -1 ≤ sl && sl ≤ 239

/-- Visible scanlines (R431). -/
def visibleLine (sl : Int) : Bool := 0 ≤ sl && sl ≤ 239

/-- `VblStart()` (R460, R462). -/
def vblStart (p : Ppu) : Ppu :=
  { p with vblank := p.vblank || !p.suppressVbl, suppressVbl := false, frameDone := true }

/-- Step 1 of the tick: the status flags at (241, 1) and (-1, 1) (R430, R460). -/
def statusFlags (sl : Int) (d : Nat) (p : Ppu) : Ppu :=
  if sl == 241 && d == 1 then vblStart p
  else if sl == -1 && d == 1 then { p with vblank := false, spr0Hit := false, sprOverflow := false }
  else p

/-! Background (R433 to R435, R450). -/

/-- `IncCoarseX()` (R433). -/
def incCoarseX (v : BitVec 15) : BitVec 15 :=
  if field v 0 5 = 31 then putField v 0 (0#5) ^^^ 0x0400 else putField v 0 (field v 0 5 + 1)

/-- `IncY()` (R433). -/
def incY (v : BitVec 15) : BitVec 15 :=
  if field v 12 3 = 7 then
    let u := putField v 12 (0#3)
    if field v 5 5 = 29 then putField u 5 (0#5) ^^^ 0x0800
    else if field v 5 5 = 31 then putField u 5 (0#5)
    else putField u 5 (field v 5 5 + 1)
  else putField v 12 (field v 12 3 + 1)

/-- `v` with the horizontal bits of `t` (R433, dot 257). -/
def copyX (v t : BitVec 15) : BitVec 15 := putField (putField v 10 (field t 10 1)) 0 (field t 0 5)

/-- `v` with the vertical bits of `t` (R433, pre-render dots 280 to 304). -/
def copyY (v t : BitVec 15) : BitVec 15 := putField (putField v 11 (field t 11 4)) 5 (field t 5 5)

/-- `ScrollStep(sl, d)` (R433). -/
def scrollStep (sl : Int) (d : Nat) (p : Ppu) : Ppu :=
  let v := if ((8 ≤ d && d ≤ 256) || d == 328 || d == 336) && d % 8 == 0 then incCoarseX p.v else p.v
  let v := if d == 256 then incY v else v
  let v := if d == 257 then copyX v p.t else v
  let v := if sl == -1 && 280 ≤ d && d ≤ 304 then copyY v p.t else v
  { p with v := v }

/-- The nametable address of `v` (R434). -/
def ntAddr (v : BitVec 15) : PpuAddr := 0x2000 ||| (v.setWidth 14 &&& 0x0FFF)

/-- The attribute address of `v` (R434). -/
def atAddr (v : BitVec 15) : PpuAddr :=
  0x23C0 ||| (v.setWidth 14 &&& 0x0C00) ||| ((v >>> 4).setWidth 14 &&& 0x38) ||| ((v >>> 2).setWidth 14 &&& 0x07)

/-- How far the attribute byte is shifted for the quadrant of `v` (R434). -/
def atShift (v : BitVec 15) : Nat := ((v >>> 4 &&& 4) ||| (v &&& 2)).toNat

/-- The address of the low pattern plane of the background tile being fetched (R434). -/
def bgPatAddr (p : Ppu) : PpuAddr :=
  ((bit1 (bit p.ctrl 4)).setWidth 14 <<< 12) ||| (p.bg.ntByte.setWidth 14 <<< 4) ||| (field p.v 12 3).setWidth 14

/-- `BgFetch(d)` (R434); the two unused fetches at dots 338 and 340 are in `bgBusAddr`. -/
def bgFetch (c : Cartridge) (d : Nat) (p : Ppu) : Ppu :=
  if (1 ≤ d && d ≤ 256) || (321 ≤ d && d ≤ 336) then
    match d % 8 with
    | 2 => { p with bg := { p.bg with ntByte := ppuMemRead c p (ntAddr p.v) } }
    | 4 => { p with bg := { p.bg with atBits := field (ppuMemRead c p (atAddr p.v) >>> atShift p.v) 0 2 } }
    | 6 => { p with bg := { p.bg with patLoLatch := ppuMemRead c p (bgPatAddr p) } }
    | 0 => { p with bg := { p.bg with patHiLatch := ppuMemRead c p (bgPatAddr p ||| 8) } }
    | _ => p
  else p

/-- The shift of `BgShiftAndReload` (R435). -/
def bgShift (b : Background) : Background :=
  { b with patLo := b.patLo <<< 1, patHi := b.patHi <<< 1,
           atLo := field b.atLo 0 7 ++ bit1 b.atLatchLo, atHi := field b.atHi 0 7 ++ bit1 b.atLatchHi }

/-- The reload of `BgShiftAndReload` (R435). -/
def bgReload (b : Background) : Background :=
  { b with patLo := putField b.patLo 0 b.patLoLatch, patHi := putField b.patHi 0 b.patHiLatch,
           atLatchLo := bit b.atBits 0, atLatchHi := bit b.atBits 1 }

/-- `BgShiftAndReload(d)` (R435). -/
def bgShiftAndReload (d : Nat) (p : Ppu) : Ppu :=
  let b := if (2 ≤ d && d ≤ 257) || (322 ≤ d && d ≤ 337) then bgShift p.bg else p.bg
  let b := if ((9 ≤ d && d ≤ 257) || d == 329 || d == 337) && d % 8 == 1 then bgReload b else b
  { p with bg := b }

/-- `BgPixel(x)` (R450): pixel value and palette number. -/
def bgPixel (x : Nat) (p : Ppu) : BitVec 2 × BitVec 2 :=
  if !bgEn p || (x < 8 && !bit p.mask 1) then (0, 0)
  else
    let f := p.fineX.toNat
    (bit1 (bit p.bg.patHi (15 - f)) ++ bit1 (bit p.bg.patLo (15 - f)),
     bit1 (bit p.bg.atHi (7 - f)) ++ bit1 (bit p.bg.atLo (7 - f)))

/-! Sprites (R440 to R445). -/

/-- Sprite height `h` (R440). -/
def sprHeight (p : Ppu) : Nat := if bit p.ctrl 5 then 16 else 8

/-- `InRange(y, sl)` (R442). -/
def inRange (p : Ppu) (y : Byte) (sl : Int) : Bool :=
  0 ≤ sl - (y.toNat : Int) && sl - (y.toNat : Int) < (sprHeight p : Int)

/-- `NextSprite()` (R442). -/
def nextSprite (p : Ppu) : Ppu :=
  let n := p.ev.n + 1
  let mode : EvMode := if n = 0 then .done else if p.sprCountNext = 8 then .ovf else .scan
  { p with ev := { p.ev with m := 0, n := n, mode := mode } }

/-- `oam2[ev_k] <- ev_byte; ev_k <- ev_k + 1` (R442). `oam2` has 32 bytes and `ev_k` is below 32 wherever this runs
in a state of `Inv` (Safety.lean); the index is taken modulo 32. -/
def oam2Append (p : Ppu) : Ppu :=
  { p with oam2 := p.oam2.set (p.ev.k % 32) p.ev.byte, ev := { p.ev with k := p.ev.k + 1 } }

/-- The even dot of evaluation in mode SCAN (R442). -/
def evScan (sl : Int) (p : Ppu) : Ppu :=
  if inRange p p.ev.byte sl then
    let q := oam2Append p
    { q with spr0Next := q.spr0Next || q.ev.n == 0, ev := { q.ev with m := 1, mode := .copy } }
  else nextSprite p

/-- The even dot of evaluation in mode COPY (R442). -/
def evCopy (p : Ppu) : Ppu :=
  let q := oam2Append p
  let m := q.ev.m + 1
  let r := { q with ev := { q.ev with m := m } }
  if m = 0 then nextSprite { r with sprCountNext := r.sprCountNext + 1 } else r

/-- The even dot of evaluation in mode OVF, with the bug: `m` steps with `n` (R442). -/
def evOvf (sl : Int) (p : Ppu) : Ppu :=
  if inRange p p.ev.byte sl then { p with sprOverflow := true, ev := { p.ev with mode := .done } }
  else
    let n := p.ev.n + 1
    { p with ev := { p.ev with m := p.ev.m + 1, n := n, mode := if n = 0 then .done else p.ev.mode } }

/-- `SpriteEvaluate(sl, d)`: secondary-OAM clear at dots 1 to 64 (R441), evaluation at dots 65 to 256 (R442). -/
def spriteEvaluate (sl : Int) (d : Nat) (p : Ppu) : Ppu :=
  if d == 1 then
    { p with ev := { p.ev with n := 0, m := 0, k := 0, mode := .scan }, sprCountNext := 0, spr0Next := false }
  else if 2 ≤ d && d ≤ 64 then
    if d % 2 == 0 then { p with oam2 := p.oam2.set (d / 2 - 1) 0xFF } else p
  else if 65 ≤ d && d ≤ 256 then
    if d % 2 == 1 then
      { p with ev := { p.ev with byte := p.oam.get ((4 * p.ev.n.toNat + p.ev.m.toNat) % 256) } }
    else
      match p.ev.mode with
      | .scan => evScan sl p
      | .copy => evCopy p
      | .ovf => evOvf sl p
      | .done => p
  else p

/-- The row of a sprite's pattern on scanline `sl` (R443). -/
def sprRow (p : Ppu) (sl : Int) (y attr : Byte) : Nat :=
  let row := ((sl - (y.toNat : Int)) % 256).toNat % sprHeight p
  if bit attr 7 then sprHeight p - 1 - row else row

/-- The address of the low pattern plane of a sprite (R443). -/
def sprPatAddr (p : Ppu) (sl : Int) (y tile attr : Byte) : PpuAddr :=
  let row : PpuAddr := BitVec.ofNat 14 (sprRow p sl y attr)
  if bit p.ctrl 5 then
    ((bit1 (bit tile 0)).setWidth 14 <<< 12) ||| ((tile &&& 0xFE).setWidth 14 <<< 4) ||| ((row &&& 8) <<< 1)
      ||| (row &&& 7)
  else ((bit1 (bit p.ctrl 3)).setWidth 14 <<< 12) ||| (tile.setWidth 14 <<< 4) ||| row

/-- `Load(b, attr, i)` (R443): an empty slot is transparent, bit 6 of the attributes flips. -/
def sprLoad (p : Ppu) (b attr : Byte) (i : Nat) : Byte :=
  if p.sprCount ≤ i then 0 else if bit attr 6 then bitReverse8 b else b

/-- Sprite unit `i` changed by `f`. -/
def setUnit (i : Nat) (f : SpriteUnit → SpriteUnit) (p : Ppu) : Ppu := { p with units := p.units.modify i f }

/-- The pattern fetches of slot `i` at phase `ph` (R443). The two unused nametable fetches of a slot
are in `sprBusAddr`. -/
def sprFetchSlot (c : Cartridge) (sl : Int) (i ph : Nat) (p : Ppu) : Ppu :=
  let y := p.oam2.get (4 * i)
  let tile := p.oam2.get (4 * i + 1)
  let attr := p.oam2.get (4 * i + 2)
  let sx := p.oam2.get (4 * i + 3)
  let a := sprPatAddr p sl y tile attr
  match ph with
  | 5 => setUnit i (fun u => { u with patLo := sprLoad p (ppuMemRead c p a) attr i }) p
  | 7 => setUnit i (fun u => { u with patHi := sprLoad p (ppuMemRead c p (a ||| 8)) attr i, attr := attr, x := sx }) p
  | _ => p

/-- `SpriteFetch(sl, d)` (R443, R445). -/
def spriteFetch (c : Cartridge) (sl : Int) (d : Nat) (p : Ppu) : Ppu :=
  if 257 ≤ d && d ≤ 320 then
    let p := { p with oamaddr := 0 }
    let p :=
      if d == 257 then
        if sl == -1 then { p with sprCount := 0, spr0OnLine := false }
        else { p with sprCount := p.sprCountNext, spr0OnLine := p.spr0Next }
      else p
    sprFetchSlot c sl ((d - 257) / 8) ((d - 257) % 8) p
  else p

/-- A sprite pixel: unit, pixel value, palette, behind-background bit (R444). -/
structure SprPix where
  i : Nat
  px : BitVec 2
  pal : BitVec 2
  behind : Bool
deriving DecidableEq, Repr

/-- The first non-transparent active unit of `us`, whose first unit is number `i` (R444). -/
def firstSprite : List SpriteUnit → Nat → Option SprPix
  | [], _ => none
  | u :: us, i =>
    let px := bit1 (bit u.patHi 7) ++ bit1 (bit u.patLo 7)
    if u.x = 0 ∧ px ≠ 0 then some ⟨i, px, field u.attr 0 2, bit u.attr 5⟩ else firstSprite us (i + 1)

/-- `SpritePixel(x)` (R444). -/
def spritePixel (x : Nat) (p : Ppu) : Option SprPix :=
  if !sprEn p || (x < 8 && !bit p.mask 2) then none else firstSprite (p.units.take p.sprCount) 0

/-- One unit's step of `SpriteUnitsStep` (R444). -/
def unitStep (u : SpriteUnit) : SpriteUnit :=
  if u.x = 0 then { u with patLo := u.patLo <<< 1, patHi := u.patHi <<< 1 } else { u with x := u.x - 1 }

/-- `SpriteUnitsStep(d)` (R444). -/
def spriteUnitsStep (d : Nat) (p : Ppu) : Ppu :=
  if 1 ≤ d && d ≤ 256 then { p with units := p.units.map unitStep } else p

/-! Pixel composition (R452 to R456). -/

/-- Whether `Sprite0Hit(x, bpx, s)` sets the flag (R453). -/
def sprite0Hits (x : Nat) (bpx : BitVec 2) (s : Option SprPix) (p : Ppu) : Bool :=
  match s with
  | none => false
  | some s => s.i == 0 && p.spr0OnLine && bpx != 0 && bgEn p && sprEn p && 1 ≤ x && x ≤ 254

/-- The palette index of the multiplexer (R452). -/
def muxIndex (bpx bpal : BitVec 2) (s : Option SprPix) : BitVec 5 :=
  match s with
  | none => if bpx = 0 then 0 else 0#1 ++ bpal ++ bpx
  | some s => if bpx = 0 ∨ s.behind = false then 1#1 ++ s.pal ++ s.px else 0#1 ++ bpal ++ bpx

/-- `OutputPixel(sl, x)` (R452, R455, R456). -/
def outputPixel (sl : Int) (x : Nat) (p : Ppu) : Ppu :=
  let b := bgPixel x p
  let s := spritePixel x p
  let idx : BitVec 5 := if rendering p then muxIndex b.1 b.2 s else 0
  let hit := rendering p && sprite0Hits x b.1 s p
  let colour := paletteRead p (0x3F00 ||| idx.setWidth 14)
  { p with spr0Hit := p.spr0Hit || hit,
           framebuffer := p.framebuffer.set (256 * sl.toNat + x) (field p.mask 5 3 ++ colour) }

/-- Step 4 of the tick: the next dot, with the odd-frame skip (R430, R432). -/
def advance (sl : Int) (d : Nat) (p : Ppu) : Ppu :=
  if sl == -1 && d == 338 && p.oddFrame && bgEn p then { p with dot := 340 }
  else if d == 340 then
    if sl == 260 then { p with dot := 0, scanline := -1, oddFrame := !p.oddFrame }
    else { p with dot := 0, scanline := sl + 1 }
  else { p with dot := d + 1 }

/-- Rendering work before the pixel (R430 step 2). -/
def renderBefore (sl : Int) (d : Nat) (p : Ppu) : Ppu :=
  if renderLine sl && rendering p then
    let q := bgShiftAndReload d p
    if 0 ≤ sl then spriteEvaluate sl d q else q
  else p

/-- The pixel (R430 step 3). -/
def renderPixel (sl : Int) (d : Nat) (p : Ppu) : Ppu :=
  if visibleLine sl && 1 ≤ d && d ≤ 256 then outputPixel sl (d - 1) p else p

/-- Rendering work after the pixel (R430 step 3). -/
def renderAfter (c : Cartridge) (sl : Int) (d : Nat) (p : Ppu) : Ppu :=
  if renderLine sl && rendering p then
    spriteFetch c sl d (scrollStep sl d (bgFetch c d (spriteUnitsStep d p)))
  else p

/-- `PpuTick()`, one dot (R430). -/
def ppuTick (c : Cartridge) (p : Ppu) : Ppu :=
  let sl := p.scanline
  let d := p.dot
  advance sl d (renderAfter c sl d (renderPixel sl d (renderBefore sl d (statusFlags sl d p))))

/-- The address `BgFetch(d)` puts on the PPU's bus (R434, R421). -/
def bgBusAddr (d : Nat) (p : Ppu) : List PpuAddr :=
  if (1 ≤ d && d ≤ 256) || (321 ≤ d && d ≤ 336) then
    match d % 8 with
    | 2 => [ntAddr p.v]
    | 4 => [atAddr p.v]
    | 6 => [bgPatAddr p]
    | 0 => [bgPatAddr p ||| 8]
    | _ => []
  else if d == 338 || d == 340 then [ntAddr p.v]
  else []

/-- The address `SpriteFetch(sl, d)` puts on the PPU's bus (R443, R421). -/
def sprBusAddr (sl : Int) (d : Nat) (p : Ppu) : List PpuAddr :=
  if 257 ≤ d && d ≤ 320 then
    let i := (d - 257) / 8
    let a := sprPatAddr p sl (p.oam2.get (4 * i)) (p.oam2.get (4 * i + 1)) (p.oam2.get (4 * i + 2))
    match (d - 257) % 8 with
    | 1 => [ntAddr p.v]
    | 3 => [ntAddr p.v]
    | 5 => [a]
    | 7 => [a ||| 8]
    | _ => []
  else []

/-- The addresses the dot that `p` is about to execute puts on the PPU's bus (R421, R430). What a fetch's address
depends on, `v`, PPUCTRL, `nt_byte` and `oam2`, is changed before the fetch in its own dot by the scroll step
alone, which stands between the two fetches. -/
def dotBusAddrs (p : Ppu) : List PpuAddr :=
  if renderLine p.scanline && rendering p then
    bgBusAddr p.dot p ++ sprBusAddr p.scanline p.dot (scrollStep p.scanline p.dot p)
  else []

/-- `nmi_out` (R461). -/
def nmiOut (p : Ppu) : Bool := p.vblank && bit p.ctrl 7

end Sys2Proof.Machine
end

