-- ==== Sys2Proof/Machine/Bus.lean ====
section
/-! DEFINITION. The bus cycle: `MemRead`, `MemWrite`, `Tick`, the address map, open bus, the two DMA mechanisms
and the controller ports (spec/20_memory.md). -/

namespace Sys2Proof.Machine

/-- `NmiEdgeDetect()` (R312). -/
def nmiEdgeDetect (s : State) : State :=
  let cur := nmiOut s.ppu
  { s with nmiLatch := s.nmiLatch || (cur && !s.nmiLinePrev), nmiLinePrev := cur }

/-- One PPU dot, whose bus addresses the mapper observes, and the edge detector after it (R74, R421). -/
def ppuDot (s : State) : State :=
  nmiEdgeDetect { s with cart := s.cart.observe s.cyc (dotBusAddrs s.ppu), ppu := ppuTick s.cart s.ppu }

/-- `ClockDevices()` (R74); the cycle's `sample` joins the APU's output (R561). -/
def clockDevices (s : State) : State :=
  let t := ppuDot (ppuDot (ppuDot { s with cyc := s.cyc + 1 }))
  let a := apuTick t.apu
  { t with apu := a, audio := a.sample :: t.audio }

/-- `Tick()` (R76). -/
def tick (s : State) : State := clockDevices s

/-- `n` cycles with no access (R76). -/
def ticks : Nat → State → State
  | 0, s => s
  | n + 1, s => ticks n (tick s)

/-- The DMC's sample fetch (R92): no cycle of its own, an address the mapper does not drive gives `bus_latch`. -/
def dmcFetch (s : State) : State :=
  let b := (s.cart.cpuRead s.apu.dmc.curAddr).getD s.busLatch
  { s with busLatch := b, apu := { s.apu with dmc := { dmcLoadSample b s.apu.dmc with stallRequest := false } } }

/-- `ServiceDmcStall()` (R92). -/
def serviceDmcStall (s : State) : State := if s.apu.dmc.stallRequest then dmcFetch (ticks 4 s) else s

/-! Controller ports (R96). -/

/-- Write $4016 (R96). -/
def padWrite (v : Byte) (c : Controllers) : Controllers :=
  if bit v 0 then { c with strobe := true, shift0 := c.pad0, shift1 := c.pad1 } else { c with strobe := false }

/-- What a read of port `k` shifts out of (R96). -/
def padShift (strobe : Bool) (shift pad : Byte) : Byte := if strobe then pad else shift

/-- What a read of a port leaves in its shift register (R96). -/
def padNext (strobe : Bool) (shift pad : Byte) : Byte := if strobe then pad else 0x80 ||| (shift >>> 1)

/-- The byte a read of a port returns (R96). -/
def padByte (bus : Byte) (shift : Byte) : Byte := field bus 5 3 ++ 0#4 ++ field shift 0 1

/-- Read $4016 (R96). -/
def padRead0 (bus : Byte) (c : Controllers) : Byte × Controllers :=
  (padByte bus (padShift c.strobe c.shift0 c.pad0), { c with shift0 := padNext c.strobe c.shift0 c.pad0 })

/-- Read $4017 (R96). -/
def padRead1 (bus : Byte) (c : Controllers) : Byte × Controllers :=
  (padByte bus (padShift c.strobe c.shift1 c.pad1), { c with shift1 := padNext c.strobe c.shift1 c.pad1 })

/-! Decoding (R71, R77 to R82). -/

/-- `ReadDecode(a)` (R71): the byte read and the state after the read's side effects. -/
def readDecode (a : Word) (s : State) : Byte × State :=
  let n := a.toNat
  if n < 0x2000 then (s.ram.get (n % 0x800), s)
  else if n < 0x4000 then
    let r := ppuRegRead s.cart s.busLatch (n % 8) s.ppu
    (r.1, { s with cart := s.cart.observe s.cyc (readBusAddrs (n % 8) s.ppu), ppu := r.2 })
  else if n = 0x4015 then
    let r := apuStatusRead s.busLatch s.apu
    (r.1, { s with apu := r.2 })
  else if n = 0x4016 then
    let r := padRead0 s.busLatch s.pads
    (r.1, { s with pads := r.2 })
  else if n = 0x4017 then
    let r := padRead1 s.busLatch s.pads
    (r.1, { s with pads := r.2 })
  else if n < 0x4020 then (s.busLatch, s)
  else ((s.cart.cpuRead a).getD s.busLatch, s)

/-- `WriteDecode(a, v)` (R71); a write to $4014 does nothing here, OAM DMA follows the cycle (R75). -/
def writeDecode (a : Word) (v : Byte) (s : State) : State :=
  let n := a.toNat
  if n < 0x2000 then { s with ram := s.ram.set (n % 0x800) v }
  else if n < 0x4000 then
    let r := ppuRegWrite s.cart (n % 8) v s.ppu
    { s with cart := r.1.observe s.cyc (writeBusAddrs (n % 8) v s.ppu), ppu := r.2 }
  else if n < 0x4014 then { s with apu := apuRegWrite (n - 0x4000) v s.apu }
  else if n = 0x4015 then { s with apu := apuStatusWrite v s.apu }
  else if n = 0x4016 then { s with pads := padWrite v s.pads }
  else if n = 0x4017 then { s with apu := frameCounterWrite v s.apu }
  else if n < 0x4020 then s
  else { s with cart := s.cart.cpuWrite a v }

/-! Cycles (R73, R75). -/

/-- The end of a bus cycle: `NmiEdgeDetect()` and `ServiceDmcStall()` (R73, R75). -/
def endCycle (s : State) : State := serviceDmcStall (nmiEdgeDetect s)

/-- The access of a read cycle: `v <- ReadDecode(a); bus_latch <- v` (R73). -/
def readAccess (a : Word) (s : State) : Byte × State :=
  let r := readDecode a s
  (r.1, { r.2 with busLatch := r.1 })

/-- The access of a write cycle: `bus_latch <- v; WriteDecode(a, v)` (R75). -/
def writeAccess (a : Word) (v : Byte) (s : State) : State := writeDecode a v { s with busLatch := v }

/-- `MemRead(a, 1)` (R73). With `TICK_BEFORE_ACCESS` false the devices tick after the access. -/
def memRead (a : Word) (s : State) : Byte × State :=
  if s.params.tickBeforeAccess then
    let r := readAccess a (clockDevices s)
    (r.1, endCycle r.2)
  else
    let r := readAccess a s
    (r.1, endCycle (clockDevices r.2))

/-- The write cycle of `MemWrite(a, 1, v)` without the OAM DMA a write to $4014 starts (R75). With
`TICK_BEFORE_ACCESS` false the devices tick after the access (notes/assumptions/9.md). -/
def writeCycle (a : Word) (v : Byte) (s : State) : State :=
  if s.params.tickBeforeAccess then endCycle (writeAccess a v (clockDevices s))
  else endCycle (clockDevices (writeAccess a v s))

/-- The copies of `OamDma(H)` from byte `i` on, `n` of them (R90). -/
def oamCopy (h : Byte) : Nat → Nat → State → State
  | 0, _, s => s
  | n + 1, i, s =>
    let r := memRead (word h (BitVec.ofNat 8 i)) s
    oamCopy h n (i + 1) (writeCycle 0x2004 r.1 r.2)

/-- `OamDma(H)` (R90): one idle cycle, one more when `cyc` is odd after the write cycle, 256 copies. -/
def oamDma (h : Byte) (s : State) : State := oamCopy h 256 0 (ticks (1 + s.cyc % 2) s)

/-- `MemWrite(a, 1, v)` (R75). -/
def memWrite (a : Word) (v : Byte) (s : State) : State :=
  let t := writeCycle a v s
  if a = 0x4014 then oamDma v t else t

/-- A `[dummy-B]` read (R150): a read whose value is discarded, or an idle cycle. -/
def dummyRead (a : Word) (s : State) : State := if s.params.dummyCyclesOnBus then (memRead a s).2 else tick s

/-- A `[dummy-B]` write (R150): a write of an unmodified value, or an idle cycle. -/
def dummyWrite (a : Word) (v : Byte) (s : State) : State := if s.params.dummyCyclesOnBus then memWrite a v s else tick s

/-- `irq_line` (R32, R315). -/
def irqLine (s : State) : Bool := s.apu.frameIrq || s.apu.dmc.irq || s.cart.irq

/-! Looking at memory without a cycle, for claims, tests and `withFetchWord`. -/

/-- The byte of RAM or of the cartridge at `a`, 0 where nothing drives it: what a CPU read of `a` returns (R77, R82). -/
def peek (a : Word) (s : State) : Byte :=
  if a.toNat < 0x2000 then s.ram.get (a.toNat % 0x800) else (s.cart.cpuRead a).getD 0

/-- RAM answers at `a`, or the mapper drives it: a CPU read there returns `peek a`. -/
def driven (a : Word) (s : State) : Bool := a.toNat < 0x2000 || (s.cart.cpuRead a).isSome

/-- RAM, or on mapper 0 PRG, with `v` placed at `a`; nothing elsewhere. Not an action of the machine: it places a
program. -/
def poke (a : Word) (v : Byte) (s : State) : State :=
  if a.toNat < 0x2000 then { s with ram := s.ram.set (a.toNat % 0x800) v }
  else if 0x8000 ≤ a.toNat ∧ s.cart.mapper = 0 then
    { s with cart := { s.cart with prg := s.cart.prg.set ((a.toNat - 0x8000) % nromPrgSize s.cart.toBoard) v } }
  else s

/-- `a` is an address `poke` can place a byte at. -/
def pokeable (a : Word) (s : State) : Bool := a.toNat < 0x2000 || (0x8000 ≤ a.toNat && s.cart.mapper == 0)

end Sys2Proof.Machine
end

