-- ==== Sys2Proof/Machine/Flags.lean ====
section
/-! DEFINITION. Registers, flags and what an operation computes from its operand (spec/10_state.md R20 to R29 and
the `use(m)` and `f(m)` of spec/40 to 45). Every update of a CPU register or flag goes through a named
operation of this file. -/

namespace Sys2Proof.Machine

/-- `A <- v` (R20). -/
def setA (v : Byte) (s : State) : State := { s with cpu := { s.cpu with a := v } }

/-- `X <- v` (R21). -/
def setX (v : Byte) (s : State) : State := { s with cpu := { s.cpu with x := v } }

/-- `Y <- v` (R22). -/
def setY (v : Byte) (s : State) : State := { s with cpu := { s.cpu with y := v } }

/-- `S <- v` (R23). -/
def setS (v : Byte) (s : State) : State := { s with cpu := { s.cpu with s := v } }

/-- `PC <- v` (R24). -/
def setPc (v : Word) (s : State) : State := { s with cpu := { s.cpu with pc := v } }

/-- `N <- b` (R25). -/
def setN (b : Bool) (s : State) : State := { s with cpu := { s.cpu with n := b } }

/-- `V <- b` (R25). -/
def setV (b : Bool) (s : State) : State := { s with cpu := { s.cpu with v := b } }

/-- `D <- b` (R25). -/
def setD (b : Bool) (s : State) : State := { s with cpu := { s.cpu with d := b } }

/-- `I <- b` (R25). -/
def setI (b : Bool) (s : State) : State := { s with cpu := { s.cpu with i := b } }

/-- `Z <- b` (R25). -/
def setZ (b : Bool) (s : State) : State := { s with cpu := { s.cpu with z := b } }

/-- `C <- b` (R25). -/
def setC (b : Bool) (s : State) : State := { s with cpu := { s.cpu with c := b } }

/-- `SetNZ(v)` (R14). -/
def setNZ (v : Byte) (s : State) : State := setZ (v == 0) (setN (bit v 7) s)

/-- `P_push(b)` (R26, R27): N V 1 b D I Z C. -/
def pPush (b : Bool) (c : Cpu) : Byte :=
  bit1 c.n ++ bit1 c.v ++ 1#1 ++ bit1 b ++ bit1 c.d ++ bit1 c.i ++ bit1 c.z ++ bit1 c.c

/-- `P_pull(v)` (R28): bits 5 and 4 are ignored. -/
def pPull (v : Byte) (s : State) : State :=
  setN (bit v 7) (setV (bit v 6) (setD (bit v 3) (setI (bit v 2) (setZ (bit v 1) (setC (bit v 0) s)))))

/-! What an operation computes (R230 to R238, R250 to R259). -/

/-- The 9-bit sum of ADC (R230). -/
def sum9 (a m : Byte) (c : Bool) : BitVec 9 := a.setWidth 9 + m.setWidth 9 + (bit1 c).setWidth 9

/-- `use(m)` of ADC (R230): D is not consulted (R239). -/
def adcUse (m : Byte) (s : State) : State :=
  let a := s.cpu.a
  let sum := sum9 a m s.cpu.c
  let res : Byte := sum.setWidth 8
  setNZ res (setA res (setV (bit (~~~(a ^^^ m) &&& (a ^^^ res)) 7) (setC (bit sum 8) s)))

/-- `use(m)` of SBC (R231): the sum with the complemented operand. -/
def sbcUse (m : Byte) (s : State) : State :=
  let a := s.cpu.a
  let sum := sum9 a (m ^^^ 0xFF) s.cpu.c
  let res : Byte := sum.setWidth 8
  setNZ res (setA res (setV (bit ((a ^^^ m) &&& (a ^^^ res)) 7) (setC (bit sum 8) s)))

/-- `use(m)` of CMP, CPX and CPY on the register value `r` (R235 to R237). -/
def compareUse (r m : Byte) (s : State) : State :=
  setN (bit (r - m) 7) (setZ (r == m) (setC (m ≤ r) s))

/-- `use(m)` of BIT (R238). -/
def bitUse (m : Byte) (s : State) : State :=
  setV (bit m 6) (setN (bit m 7) (setZ (s.cpu.a &&& m == 0) s))

/-- A shift or rotate of `m` with carry `c`: the result and the new carry. -/
abbrev ShiftOp := Byte → Bool → Byte × Bool

/-- ASL (R256): `C <- m[7]`, bit 0 becomes 0. -/
def aslOp (m : Byte) (_c : Bool) : Byte × Bool := (m <<< 1, bit m 7)

/-- LSR (R257): `C <- m[0]`, bit 7 becomes 0. -/
def lsrOp (m : Byte) (_c : Bool) : Byte × Bool := (m >>> 1, bit m 0)

/-- ROL (R258): `{m[6:0], C}`, `C <- m[7]`. -/
def rolOp (m : Byte) (c : Bool) : Byte × Bool := (field m 0 7 ++ bit1 c, bit m 7)

/-- ROR (R259): `{C, m[7:1]}`, `C <- m[0]`. -/
def rorOp (m : Byte) (c : Bool) : Byte × Bool := (bit1 c ++ field m 1 7, bit m 0)

/-- N, Z from the result and C from the bit shifted out (R256 to R259). -/
def shiftFlags (r : Byte × Bool) (s : State) : State := setNZ r.1 (setC r.2 s)

end Sys2Proof.Machine
end

