-- ==== Sys2Proof/Machine/Ops.lean ====
section
/-! DEFINITION. Operations every instruction is made of: fetching an instruction byte, push and pull, taking an
exception and returning from one, the reset sequence, the poll at the instruction boundary
(spec/10_state.md, spec/45_flag_system.md, spec/60_exceptions.md, spec/70_reset_and_hazards.md). -/

namespace Sys2Proof.Machine

/-- `x <- MemRead(PC, 1); PC <- PC + 1`: an instruction byte (R157, R24). -/
def fetch (s : State) : Byte × State :=
  let r := memRead s.cpu.pc s
  (r.1, setPc (r.2.cpu.pc + 1) r.2)

/-- `_ <- MemRead(PC, 1)`, `[dummy-B]`, PC not incremented (R152). -/
def dummyFetch (s : State) : State := dummyRead s.cpu.pc s

/-- `{0x01, S}` (R13, R23). -/
def stackAddr (s : State) : Word := word 0x01 s.cpu.s

/-- `Push(v)` (R13). -/
def push (v : Byte) (s : State) : State :=
  let t := memWrite (stackAddr s) v s
  setS (t.cpu.s - 1) t

/-- `_ <- MemRead({0x01, S}, 1); S <- S + 1`, `[dummy-B]`: the cycle before a pull (R218, R280, R299). -/
def prePull (s : State) : State :=
  let t := dummyRead (stackAddr s) s
  setS (t.cpu.s + 1) t

/-- `x <- MemRead({0x01, S}, 1)` (R218). -/
def readStack (s : State) : Byte × State := memRead (stackAddr s) s

/-- `x <- MemRead({0x01, S}, 1); S <- S + 1` (R280, R299). -/
def pull (s : State) : Byte × State :=
  let r := readStack s
  (r.1, setS (r.2.cpu.s + 1) r.2)

/-! Exceptions (R298, R318, R317). -/

/-- The NMI vector (R83). -/
def nmiVector : Word := 0xFFFA

/-- The RESET vector (R83). -/
def resetVector : Word := 0xFFFC

/-- The IRQ and BRK vector (R83). -/
def irqVector : Word := 0xFFFE

/-- The last cycles of an entry: `pcl <- MemRead(vec); pch <- MemRead(vec + 1); I <- 1; PC <- {pch, pcl}` (R298,
R318, R602). -/
def loadVector (vec : Word) (s : State) : State :=
  let lo := memRead vec s
  let hi := memRead (vec + 1) lo.2
  setPc (word hi.1 lo.1) (setI true hi.2)

/-- Taking an exception, cycles c3 to c7 of BRK and of the NMI and IRQ sequences (R298, R318): PC high, PC low and
the status byte with B = `b` are pushed, I is set after the push, PC is loaded from the vector. D does not
change (decision D33). -/
def enterException (b : Bool) (vec : Word) (s : State) : State :=
  let s3 := push (hiByte s.cpu.pc) s
  let s4 := push (loByte s3.cpu.pc) s3
  let s5 := push (pPush b s4.cpu) s4
  loadVector vec s5

/-- `InterruptSequence(vec)` (R318): two reads at PC, then the entry with B = 0. -/
def interruptSequence (vec : Word) (s : State) : State :=
  enterException false vec (dummyFetch (dummyFetch s))

/-- Returning from an exception, cycles c2 to c6 of RTI (R299, R321): the status byte and the return address are
pulled; bits 5 and 4 of the byte are ignored and the address is not incremented. -/
def returnFromException (s : State) : State :=
  let s3 := prePull (dummyFetch s)
  let p := pull s3
  let s4 := pPull p.1 p.2
  let lo := pull s4
  let hi := readStack lo.2
  setPc (word hi.1 lo.1) hi.2

/-- `_ <- MemRead({0x01, S}, 1); S <- S - 1`, `[dummy-B]`: a push with the write suppressed (R602). -/
def resetPush (s : State) : State :=
  let t := dummyRead (stackAddr s) s
  setS (t.cpu.s - 1) t

/-- `ResetSequence()` (R602). -/
def resetSequence (s : State) : State :=
  let s0 := { s with resetPending := false, nmiLatch := false }
  loadVector resetVector (resetPush (resetPush (resetPush (dummyFetch (dummyFetch s0)))))

/-- The poll at the instruction boundary (R314, R322): a latched NMI before an unmasked IRQ. An NMI latched inside an NMI
handler is taken at the next boundary (R314, R323), where R628 (d) says that the handler is entered again only after
RTI: DESIGN CHOICE, notes/assumptions/21.md. -/
def pollInterrupts (s : State) : State :=
  if s.nmiLatch then interruptSequence nmiVector { s with nmiLatch := false }
  else if irqLine s && !s.cpu.i then interruptSequence irqVector s
  else s

end Sys2Proof.Machine
end

