-- ==== Sys2Proof/Machine/Operands.lean ====
section
/-! DEFINITION. The addressing modes' bus sequences after the opcode fetch (spec/31_addressing_modes.md): what
a read-class instruction reads, where a write-class or read-modify-write instruction writes. -/

namespace Sys2Proof.Machine

/-- `EA_nofix` (R165): the index added to the low byte, the carry not applied to the high byte. -/
def eaNoFix (base : Word) (idx : Byte) : Word := word (hiByte base) (loByte base + idx)

/-- `EA` (R165). -/
def eaFix (base : Word) (idx : Byte) : Word := base + zext16 idx

/-- `cross` (R165). -/
def pageCross (base : Word) (idx : Byte) : Bool := eaFix base idx != eaNoFix base idx

/-- Two instruction bytes `lo`, `hi` as an address (R158 c2, c3). -/
def fetchWord (s : State) : Word × State :=
  let lo := fetch s
  let hi := fetch lo.2
  (word hi.1 lo.1, hi.2)

/-- Zero-page address (R154 c2). -/
def zpAddr (s : State) : Word × State :=
  let r := fetch s
  (zext16 r.1, r.2)

/-- Indexed zero-page address: `zp` fetched, the un-indexed address read and discarded (R155 c2, c3). -/
def zpIndexed (idx : Byte) (s : State) : Word × State :=
  let r := fetch s
  (zext16 (r.1 + idx), dummyRead (zext16 r.1) r.2)

/-- A pointer in the zero page, its high byte at the next address of the zero page (R160, R161). -/
def zpPointer (p : Byte) (s : State) : Word × State :=
  let lo := memRead (zext16 p) s
  let hi := memRead (zext16 (p + 1)) lo.2
  (word hi.1 lo.1, hi.2)

/-- Address of `(zp,X)` (R160 c2 to c5). -/
def izxAddr (s : State) : Word × State :=
  let r := fetch s
  zpPointer (r.1 + r.2.cpu.x) (dummyRead (zext16 r.1) r.2)

/-- Base address of `(zp),Y` (R161 c2 to c4). -/
def izyBase (s : State) : Word × State :=
  let r := fetch s
  zpPointer r.1 r.2

/-- The read at an indexed address: at `EA_nofix`, and at `EA` when a page is crossed, the first read then
discarded (`[dummy-A]`, R159, R161). -/
def readIndexed (base : Word) (idx : Byte) (s : State) : Byte × State :=
  let r := memRead (eaNoFix base idx) s
  if pageCross base idx then memRead (eaFix base idx) r.2 else r

/-- The indexed address of a write or read-modify-write: `EA_nofix` is read and discarded, crossing or not
(`[dummy-B]`, R159, R161). -/
def writeIndexed (base : Word) (idx : Byte) (s : State) : Word × State :=
  (eaFix base idx, dummyRead (eaNoFix base idx) s)

/-- The operand `m` of a read-class instruction (R153 to R161). -/
def readOperand (m : ReadMode) (s : State) : Byte × State :=
  match m with
  | .imm => fetch s
  | .zp => let a := zpAddr s; memRead a.1 a.2
  | .zpx => let a := zpIndexed s.cpu.x s; memRead a.1 a.2
  | .zpy => let a := zpIndexed s.cpu.y s; memRead a.1 a.2
  | .abs => let a := fetchWord s; memRead a.1 a.2
  | .abx => let a := fetchWord s; readIndexed a.1 a.2.cpu.x a.2
  | .aby => let a := fetchWord s; readIndexed a.1 a.2.cpu.y a.2
  | .izx => let a := izxAddr s; memRead a.1 a.2
  | .izy => let a := izyBase s; readIndexed a.1 a.2.cpu.y a.2

/-- The effective address of a write-class instruction and the state before its write cycle (R154 to R161). -/
def storeAddr (m : StoreMode) (s : State) : Word × State :=
  match m with
  | .zp => zpAddr s
  | .zpx => zpIndexed s.cpu.x s
  | .zpy => zpIndexed s.cpu.y s
  | .abs => fetchWord s
  | .abx => let a := fetchWord s; writeIndexed a.1 a.2.cpu.x a.2
  | .aby => let a := fetchWord s; writeIndexed a.1 a.2.cpu.y a.2
  | .izx => izxAddr s
  | .izy => let a := izyBase s; writeIndexed a.1 a.2.cpu.y a.2

/-- A write-class instruction storing `r` (R151). -/
def storeOperand (m : StoreMode) (r : Byte) (s : State) : State :=
  let a := storeAddr m s
  memWrite a.1 r a.2

/-- The effective address of a read-modify-write instruction and the state before its read (R154, R155, R158,
R159). -/
def rmwAddr (m : RmwMode) (s : State) : Word × State :=
  match m with
  | .zp => zpAddr s
  | .zpx => zpIndexed s.cpu.x s
  | .abs => fetchWord s
  | .abx => let a := fetchWord s; writeIndexed a.1 a.2.cpu.x a.2

/-- The operand of a read-modify-write instruction with its address, and the state after the read (R151). -/
def rmwRead (m : RmwMode) (s : State) : Word × Byte × State :=
  let a := rmwAddr m s
  let r := memRead a.1 a.2
  (a.1, r.1, r.2)

/-- The two writes of a read-modify-write instruction: the unmodified value, then the result (R151). -/
def rmwWrite (a : Word) (old new : Byte) (s : State) : State := memWrite a new (dummyWrite a old s)

/-- A shift or rotate of a memory location (R256 to R259). -/
def shiftMemory (op : ShiftOp) (m : RmwMode) (s : State) : State :=
  let r := rmwRead m s
  let res := op r.2.1 r.2.2.cpu.c
  shiftFlags res (rmwWrite r.1 r.2.1 res.1 r.2.2)

/-- A shift or rotate of the accumulator (R152, R256 to R259). -/
def shiftAcc (op : ShiftOp) (s : State) : State :=
  let t := dummyFetch s
  let res := op t.cpu.a t.cpu.c
  shiftFlags res (setA res.1 t)

/-- A shift or rotate of the accumulator or of a memory location. -/
def shiftOperand (op : ShiftOp) (m : ShiftMode) (s : State) : State :=
  match m with
  | .acc => shiftAcc op s
  | .mem m => shiftMemory op m s

/-- An increment or decrement of a memory location, `f` its result (R250, R251). -/
def countMemory (f : Byte → Byte) (m : RmwMode) (s : State) : State :=
  let r := rmwRead m s
  setNZ (f r.2.1) (rmwWrite r.1 r.2.1 (f r.2.1) r.2.2)

/-- A conditional branch (R162, R269). -/
def branch (cond : Cpu → Bool) (s : State) : State :=
  let r := fetch s
  let t := r.2
  if cond t.cpu then
    let u := dummyFetch t
    let target := u.cpu.pc + sext16 r.1
    if hiByte target = hiByte u.cpu.pc then setPc target u
    else setPc target (dummyRead (word (hiByte u.cpu.pc) (loByte target)) u)
  else t

end Sys2Proof.Machine
end

