-- ==== Sys2Proof/Machine/ArithLogic.lean ====
section
/-! DEFINITION. Arithmetic, logic and compare instructions (spec/42_arith_logic.md). Each meaning takes the state after the opcode fetch of cycle c1
(R157) and runs cycles c2 to cN. -/

namespace Sys2Proof.Machine

/-- ADC (R230): add with carry. -/
def execAdc (m : ReadMode) (s : State) : Host.Outcome State Fault Refusal :=
  let r := readOperand m s
  .next (adcUse r.1 r.2)

/-- SBC (R231): subtract with borrow = not C. -/
def execSbc (m : ReadMode) (s : State) : Host.Outcome State Fault Refusal :=
  let r := readOperand m s
  .next (sbcUse r.1 r.2)

/-- AND (R232): `A <- A & m; SetNZ(A)`. -/
def execAnd (m : ReadMode) (s : State) : Host.Outcome State Fault Refusal :=
  let r := readOperand m s
  .next (setNZ (r.2.cpu.a &&& r.1) (setA (r.2.cpu.a &&& r.1) r.2))

/-- ORA (R233): `A <- A | m; SetNZ(A)`. -/
def execOra (m : ReadMode) (s : State) : Host.Outcome State Fault Refusal :=
  let r := readOperand m s
  .next (setNZ (r.2.cpu.a ||| r.1) (setA (r.2.cpu.a ||| r.1) r.2))

/-- EOR (R234): `A <- A ^ m; SetNZ(A)`. -/
def execEor (m : ReadMode) (s : State) : Host.Outcome State Fault Refusal :=
  let r := readOperand m s
  .next (setNZ (r.2.cpu.a ^^^ r.1) (setA (r.2.cpu.a ^^^ r.1) r.2))

/-- CMP (R235): compare A. -/
def execCmp (m : ReadMode) (s : State) : Host.Outcome State Fault Refusal :=
  let r := readOperand m s
  .next (compareUse r.2.cpu.a r.1 r.2)

/-- CPX (R236): compare X. -/
def execCpx (m : ReadMode) (s : State) : Host.Outcome State Fault Refusal :=
  let r := readOperand m s
  .next (compareUse r.2.cpu.x r.1 r.2)

/-- CPY (R237): compare Y. -/
def execCpy (m : ReadMode) (s : State) : Host.Outcome State Fault Refusal :=
  let r := readOperand m s
  .next (compareUse r.2.cpu.y r.1 r.2)

/-- BIT (R238): Z from A & m, N and V from bits 7 and 6 of m. -/
def execBit (m : ReadMode) (s : State) : Host.Outcome State Fault Refusal :=
  let r := readOperand m s
  .next (bitUse r.1 r.2)

end Sys2Proof.Machine
end

