-- ==== Sys2Proof/Machine/BranchJump.lean ====
section
/-! DEFINITION. Branch, jump and subroutine instructions (spec/44_branch_jump.md). Each meaning takes the state after the opcode fetch of cycle c1
(R157) and runs cycles c2 to cN. -/

namespace Sys2Proof.Machine

/-- BCC (R270): branch if C = 0. -/
def execBcc (s : State) : Host.Outcome State Fault Refusal :=
  .next (branch (fun c => !c.c) s)

/-- BCS (R271): branch if C = 1. -/
def execBcs (s : State) : Host.Outcome State Fault Refusal :=
  .next (branch (fun c => c.c) s)

/-- BEQ (R272): branch if Z = 1. -/
def execBeq (s : State) : Host.Outcome State Fault Refusal :=
  .next (branch (fun c => c.z) s)

/-- BNE (R273): branch if Z = 0. -/
def execBne (s : State) : Host.Outcome State Fault Refusal :=
  .next (branch (fun c => !c.z) s)

/-- BMI (R274): branch if N = 1. -/
def execBmi (s : State) : Host.Outcome State Fault Refusal :=
  .next (branch (fun c => c.n) s)

/-- BPL (R275): branch if N = 0. -/
def execBpl (s : State) : Host.Outcome State Fault Refusal :=
  .next (branch (fun c => !c.n) s)

/-- BVC (R276): branch if V = 0. -/
def execBvc (s : State) : Host.Outcome State Fault Refusal :=
  .next (branch (fun c => !c.v) s)

/-- BVS (R277): branch if V = 1. -/
def execBvs (s : State) : Host.Outcome State Fault Refusal :=
  .next (branch (fun c => c.v) s)

/-- JMP (R278; the indirect pointer wraps within its page, R163). -/
def execJmp (m : JumpMode) (s : State) : Host.Outcome State Fault Refusal :=
  match m with
  | .abs =>
    let lo := fetch s
    let hi := memRead lo.2.cpu.pc lo.2
    .next (setPc (word hi.1 lo.1) hi.2)
  | .ind =>
    let p := fetchWord s
    let lo := memRead p.1 p.2
    let hi := memRead (word (hiByte p.1) (loByte p.1 + 1)) lo.2
    .next (setPc (word hi.1 lo.1) hi.2)

/-- JSR (R279): the address of the instruction's last byte is pushed, and that byte is fetched after the pushes. -/
def execJsr (s : State) : Host.Outcome State Fault Refusal :=
  let lo := fetch s
  let s3 := dummyRead (stackAddr lo.2) lo.2
  let s4 := push (hiByte s3.cpu.pc) s3
  let s5 := push (loByte s4.cpu.pc) s4
  let hi := memRead s5.cpu.pc s5
  .next (setPc (word hi.1 lo.1) hi.2)

/-- RTS (R280): the address pulled, plus 1. -/
def execRts (s : State) : Host.Outcome State Fault Refusal :=
  let lo := pull (prePull (dummyFetch s))
  let hi := readStack lo.2
  let s5 := setPc (word hi.1 lo.1) hi.2
  let s6 := dummyFetch s5
  .next (setPc (s6.cpu.pc + 1) s6)

end Sys2Proof.Machine
end

