-- ==== Sys2Proof/Machine/FlagSystem.lean ====
section
/-! DEFINITION. Flag and system instructions and the illegal opcodes (spec/45_flag_system.md). Each meaning takes the state after the opcode fetch of cycle c1
(R157) and runs cycles c2 to cN. -/

namespace Sys2Proof.Machine

/-- CLC (R290): `C <- 0`. -/
def execClc (s : State) : Host.Outcome State Fault Refusal :=
  let t := dummyFetch s
  .next (setC false t)

/-- SEC (R291): `C <- 1`. -/
def execSec (s : State) : Host.Outcome State Fault Refusal :=
  let t := dummyFetch s
  .next (setC true t)

/-- CLI (R292): `I <- 0`. -/
def execCli (s : State) : Host.Outcome State Fault Refusal :=
  let t := dummyFetch s
  .next (setI false t)

/-- SEI (R293): `I <- 1`. -/
def execSei (s : State) : Host.Outcome State Fault Refusal :=
  let t := dummyFetch s
  .next (setI true t)

/-- CLV (R294): `V <- 0`. -/
def execClv (s : State) : Host.Outcome State Fault Refusal :=
  let t := dummyFetch s
  .next (setV false t)

/-- CLD (R295): `D <- 0`. -/
def execCld (s : State) : Host.Outcome State Fault Refusal :=
  let t := dummyFetch s
  .next (setD false t)

/-- SED (R296): `D <- 1`. -/
def execSed (s : State) : Host.Outcome State Fault Refusal :=
  let t := dummyFetch s
  .next (setD true t)

/-- NOP (R297): its two cycles and nothing else. -/
def execNop (s : State) : Host.Outcome State Fault Refusal :=
  .next (dummyFetch s)

/-- BRK (R298, R320): the padding byte is fetched and discarded, then the exception is taken with B = 1. -/
def execBrk (s : State) : Host.Outcome State Fault Refusal :=
  .next (enterException true irqVector (fetch s).2)

/-- RTI (R299, R321). -/
def execRti (s : State) : Host.Outcome State Fault Refusal :=
  .next (returnFromException s)

/-- `n` operand bytes, read and discarded (R300). -/
def fetches : Nat → State → State
  | 0, s => s
  | n + 1, s => fetches n (fetch s).2

/-- `n` cycles `[dummy-B]` that read at PC and do not step over it (R152, R300). -/
def dummyFetches : Nat → State → State
  | 0, s => s
  | n + 1, s => dummyFetches n (dummyFetch s)

/-- The cycles of an illegal opcode, its fetch included: those of `IllegalTiming`, by default max(2, L), and two at
least as for every instruction (R7, R157, R300, decision D6; notes/assumptions/10.md). -/
def illegalCycles (p : Params) (op : Byte) : Nat :=
  match p.illegalTiming.find? (fun e => e.1 == op) with
  | none => max 2 (illegalBytes op)
  | some e => max 2 e.2

/-- Cycles c2 to c`cycles` of an illegal opcode of `len` bytes (R300): its operand bytes are read as far as the cycles
go, PC moves past all of them, cycles left over are `[dummy-B]` reads at PC (R76). -/
def skipOperands (len cycles : Nat) (s : State) : State :=
  let reads := min len cycles - 1
  let t := fetches reads s
  dummyFetches (cycles - len) (setPc (t.cpu.pc + BitVec.ofNat 16 (len - 1 - reads)) t)

/-- ILL (R300): a no-operation of the byte's length; no register, flag or memory location changes but PC. -/
def execIll (op : Byte) (s : State) : Host.Outcome State Fault Refusal :=
  .next (skipOperands (illegalBytes op) (illegalCycles s.params op) s)

end Sys2Proof.Machine
end

