-- ==== Sys2Proof/Machine/IncDecShift.lean ====
section
/-! DEFINITION. Increment, decrement, shift and rotate instructions (spec/43_incdec_shift.md). Each meaning takes the state after the opcode fetch of cycle c1
(R157) and runs cycles c2 to cN. -/

namespace Sys2Proof.Machine

/-- INC (R250): `f(m) = m + 1; SetNZ(f(m))`. -/
def execInc (m : RmwMode) (s : State) : Host.Outcome State Fault Refusal :=
  .next (countMemory (fun v => v + 1) m s)

/-- DEC (R251): `f(m) = m - 1; SetNZ(f(m))`. -/
def execDec (m : RmwMode) (s : State) : Host.Outcome State Fault Refusal :=
  .next (countMemory (fun v => v - 1) m s)

/-- INX (R252): `X <- X + 1; SetNZ(X)`. -/
def execInx (s : State) : Host.Outcome State Fault Refusal :=
  let t := dummyFetch s
  .next (setNZ (t.cpu.x + 1) (setX (t.cpu.x + 1) t))

/-- INY (R253): `Y <- Y + 1; SetNZ(Y)`. -/
def execIny (s : State) : Host.Outcome State Fault Refusal :=
  let t := dummyFetch s
  .next (setNZ (t.cpu.y + 1) (setY (t.cpu.y + 1) t))

/-- DEX (R254): `X <- X - 1; SetNZ(X)`. -/
def execDex (s : State) : Host.Outcome State Fault Refusal :=
  let t := dummyFetch s
  .next (setNZ (t.cpu.x - 1) (setX (t.cpu.x - 1) t))

/-- DEY (R255): `Y <- Y - 1; SetNZ(Y)`. -/
def execDey (s : State) : Host.Outcome State Fault Refusal :=
  let t := dummyFetch s
  .next (setNZ (t.cpu.y - 1) (setY (t.cpu.y - 1) t))

/-- ASL (R256): arithmetic shift left. -/
def execAsl (m : ShiftMode) (s : State) : Host.Outcome State Fault Refusal :=
  .next (shiftOperand aslOp m s)

/-- LSR (R257): logical shift right. -/
def execLsr (m : ShiftMode) (s : State) : Host.Outcome State Fault Refusal :=
  .next (shiftOperand lsrOp m s)

/-- ROL (R258): rotate left through carry. -/
def execRol (m : ShiftMode) (s : State) : Host.Outcome State Fault Refusal :=
  .next (shiftOperand rolOp m s)

/-- ROR (R259): rotate right through carry. -/
def execRor (m : ShiftMode) (s : State) : Host.Outcome State Fault Refusal :=
  .next (shiftOperand rorOp m s)

end Sys2Proof.Machine
end

