-- ==== Sys2Proof/Machine/LoadStore.lean ====
section
/-! DEFINITION. Load and store instructions (spec/40_load_store.md). Each meaning takes the state after the opcode fetch of cycle c1
(R157) and runs cycles c2 to cN. -/

namespace Sys2Proof.Machine

/-- LDA (R200): `A <- m; SetNZ(A)`. -/
def execLda (m : ReadMode) (s : State) : Host.Outcome State Fault Refusal :=
  let r := readOperand m s
  .next (setNZ r.1 (setA r.1 r.2))

/-- LDX (R201): `X <- m; SetNZ(X)`. -/
def execLdx (m : ReadMode) (s : State) : Host.Outcome State Fault Refusal :=
  let r := readOperand m s
  .next (setNZ r.1 (setX r.1 r.2))

/-- LDY (R202): `Y <- m; SetNZ(Y)`. -/
def execLdy (m : ReadMode) (s : State) : Host.Outcome State Fault Refusal :=
  let r := readOperand m s
  .next (setNZ r.1 (setY r.1 r.2))

/-- STA (R203): A is written at the effective address; no flag changes. -/
def execSta (m : StoreMode) (s : State) : Host.Outcome State Fault Refusal :=
  .next (storeOperand m s.cpu.a s)

/-- STX (R204): X is written at the effective address; no flag changes. -/
def execStx (m : StoreMode) (s : State) : Host.Outcome State Fault Refusal :=
  .next (storeOperand m s.cpu.x s)

/-- STY (R205): Y is written at the effective address; no flag changes. -/
def execSty (m : StoreMode) (s : State) : Host.Outcome State Fault Refusal :=
  .next (storeOperand m s.cpu.y s)

end Sys2Proof.Machine
end

