-- ==== Sys2Proof/Machine/Transfer.lean ====
section
/-! DEFINITION. Register transfer and stack instructions (spec/41_transfer_stack.md). Each meaning takes the state after the opcode fetch of cycle c1
(R157) and runs cycles c2 to cN. -/

namespace Sys2Proof.Machine

/-- TAX (R210): `X <- A; SetNZ(X)`. -/
def execTax (s : State) : Host.Outcome State Fault Refusal :=
  let t := dummyFetch s
  .next (setNZ t.cpu.a (setX t.cpu.a t))

/-- TAY (R211): `Y <- A; SetNZ(Y)`. -/
def execTay (s : State) : Host.Outcome State Fault Refusal :=
  let t := dummyFetch s
  .next (setNZ t.cpu.a (setY t.cpu.a t))

/-- TXA (R212): `A <- X; SetNZ(A)`. -/
def execTxa (s : State) : Host.Outcome State Fault Refusal :=
  let t := dummyFetch s
  .next (setNZ t.cpu.x (setA t.cpu.x t))

/-- TYA (R213): `A <- Y; SetNZ(A)`. -/
def execTya (s : State) : Host.Outcome State Fault Refusal :=
  let t := dummyFetch s
  .next (setNZ t.cpu.y (setA t.cpu.y t))

/-- TSX (R214): `X <- S; SetNZ(X)`. -/
def execTsx (s : State) : Host.Outcome State Fault Refusal :=
  let t := dummyFetch s
  .next (setNZ t.cpu.s (setX t.cpu.s t))

/-- TXS (R215): `S <- X`; no flag changes. -/
def execTxs (s : State) : Host.Outcome State Fault Refusal :=
  let t := dummyFetch s
  .next (setS t.cpu.x t)

/-- PHA (R216): A is pushed. -/
def execPha (s : State) : Host.Outcome State Fault Refusal :=
  let t := dummyFetch s
  .next (push t.cpu.a t)

/-- PHP (R217): the status byte is pushed with B = 1. -/
def execPhp (s : State) : Host.Outcome State Fault Refusal :=
  let t := dummyFetch s
  .next (push (pPush true t.cpu) t)

/-- PLA (R218): A is pulled; N and Z from it. -/
def execPla (s : State) : Host.Outcome State Fault Refusal :=
  let r := readStack (prePull (dummyFetch s))
  .next (setNZ r.1 (setA r.1 r.2))

/-- PLP (R219): the six flags are pulled. -/
def execPlp (s : State) : Host.Outcome State Fault Refusal :=
  let r := readStack (prePull (dummyFetch s))
  .next (pPull r.1 r.2)

end Sys2Proof.Machine
end

