-- ==== Sys2Proof/Machine/Step.lean ====
section
/-! DEFINITION. One step of the machine (spec/60_exceptions.md R314): the reset sequence when one is pending, else
the instruction at PC and the interrupt sequence its boundary takes. -/

namespace Sys2Proof.Machine

/-- `Step()` (R314): c1 fetches and decodes the opcode, `exec` runs the rest of the instruction, the boundary polls. -/
def step (s : State) : Host.Outcome State Fault Refusal :=
  if s.resetPending then .next (resetSequence s)
  else
    match exec (decodeOpcode (fetch s).1) (fetch s).2 with
    | .next t => .next (pollInterrupts t)
    | .fault f => .fault f
    | .refused r => .refused r

/-- `s` with three bytes at PC, PC+1 and PC+2. -/
def State.placeBytes (b0 b1 b2 : Byte) (s : State) : State :=
  poke (s.cpu.pc + 2) b2 (poke (s.cpu.pc + 1) b1 (poke s.cpu.pc b0 s))

/-- `s` with the instruction whose bits are `w` placed where the next step fetches: at PC when its three bytes lie
where a program can be placed, else at 0 with PC moved there; no reset is pending (notes/assumptions/6.md). -/
def State.withFetchWord (s : State) (nbits w : Nat) : State :=
  let pc := s.cpu.pc
  let t := if pokeable pc s && pokeable (pc + 1) s && pokeable (pc + 2) s then s else setPc 0 s
  match tableBytes nbits w with
  | [b0, b1, b2] => { State.placeBytes b0 b1 b2 t with resetPending := false }
  | _ => t

end Sys2Proof.Machine
end

