-- ==== Sys2Proof/Machine/HostCalls.lean ====
section
/-! DEFINITION. What the host can do between frames (spec/70_reset_and_hazards.md R601, R603, R612): supply the
controllers' bytes, reset, power-cycle, run a frame. -/

namespace Sys2Proof.Machine

/-- The controller bytes of the next frame (R96, R612). -/
def supplyPads (p0 p1 : Byte) (s : State) : State := { s with pads := { s.pads with pad0 := p0, pad1 := p1 } }

/-- The host's `reset()` (R603): the reset is pending, $4015 is written with 0, the DMC's request is dropped. -/
def hostReset (s : State) : State :=
  let a := apuStatusWrite 0 s.apu
  { s with resetPending := true, apu := { a with dmc := { a.dmc with stallRequest := false } } }

/-- The host's `power_cycle()` (R601, decision D36): power-on again with the same cartridge and a fresh `PowerOn`, which
gives CHR-RAM new contents too. R7 leaves CHR-RAM out of `PowerOn`, U4 and spec/92_eei_decisions.md name it
(notes/assumptions/20.md). -/
def powerCycle (p : PowerOn) (s : State) : State := State.powerOn p s.cart s.params

/-- Steps until `frame_done`, at most `fuel` of them; `none` when the fuel runs out first. The flag is cleared in the
state returned (R51, R462). -/
def runToFrame : Nat → State → Option State
  | 0, _ => none
  | fuel + 1, s =>
    match step s with
    | .next t => if t.ppu.frameDone then some { t with ppu := { t.ppu with frameDone := false } } else runToFrame fuel t
    | .fault _ => none
    | .refused _ => none

/-- `RunFrame(pads)` (R612): the state at the frame boundary; its `framebuffer` and `audio` are what the host gets. -/
def runFrame (fuel : Nat) (p0 p1 : Byte) (s : State) : Option State :=
  let t := supplyPads p0 p1 s
  runToFrame fuel { t with ppu := { t.ppu with frameDone := false }, audio := [] }

end Sys2Proof.Machine
end

