-- ==== Sys2Proof/Safety.lean ====
section
/-! DEFINITION. What counts as a good state (`Inv`), and the terms claims are stated in: plain addresses, an idle
DMC, what an instruction that stores nothing keeps, what a store may change. -/

namespace Sys2Proof.Machine

/-! The invariant. -/

/-- The bookkeeping of sprite evaluation (R442): how many bytes of secondary OAM are written in each mode. -/
def EvalInv (p : Ppu) : Prop :=
  match p.ev.mode with
  | .scan => p.sprCountNext < 8 ∧ p.ev.k = 4 * p.sprCountNext
  | .copy => p.sprCountNext < 8 ∧ p.ev.m ≠ 0 ∧ p.ev.k = 4 * p.sprCountNext + p.ev.m.toNat
  | .ovf => p.sprCountNext = 8
  | .done => p.sprCountNext ≤ 8

/-- A good PPU state: its memories in canonical form and in size (R39 to R42, R51), the position on the screen
(R48, R431), eight sprite units of which at most eight are active (R47, R443), and a suppressed vertical blank
only while the dot that would set the flag is pending (R405, R460). -/
structure PpuInv (p : Ppu) : Prop where
  oam : Memory.wf 256 p.oam = true
  oam2 : Memory.wf 32 p.oam2 = true
  palette : Memory.wf 32 p.palette = true
  vram : Memory.wf 2048 p.vram = true
  framebuffer : Memory.wf 61440 p.framebuffer = true
  scanline : -1 ≤ p.scanline ∧ p.scanline ≤ 260
  dot : p.dot ≤ 340
  units : p.units.length = 8
  sprCount : p.sprCount ≤ 8
  eval : EvalInv p
  suppress : p.suppressVbl = true → p.scanline = 241 ∧ p.dot = 1

/-- A good APU state: the frame counter within its period (R502), a shift register that is not 0 (R56, R537), a
DMC rate of the table, 1 to 8 bits left in the shifter and a byte count of the range `sample_len` can name (R57,
R545, R549, R500), length counters within the table's range (R509) and a sample in [0, 1) (R60, R560). -/
structure ApuInv (a : Apu) : Prop where
  frame : a.fcCycle.toNat ≤ if a.fcMode then 37281 else 29829
  lfsr : a.noise.lfsr ≠ 0
  rate : a.dmc.period ∈ dmcRateTable
  bits : 1 ≤ a.dmc.bitsRemaining.toNat ∧ a.dmc.bitsRemaining.toNat ≤ 8
  sampleLen : a.dmc.sampleLen.toNat ≤ 4081
  remaining : a.dmc.bytesRemaining.toNat ≤ 4081
  length1 : a.pulse1.length.toNat ≤ 254
  length2 : a.pulse2.length.toNat ≤ 254
  length3 : a.tri.length.toNat ≤ 254
  length4 : a.noise.length.toNat ≤ 254
  sample : 0 ≤ a.sample ∧ a.sample < 1

/-- A good cartridge: its images in canonical form and in size, on mapper 0 those of R85, else 4 MiB of PRG and the 2 MiB
of CHR that `chrIndex` reaches (notes/assumptions/5.md). -/
structure CartInv (c : Cartridge) : Prop where
  prg : Memory.wf (if c.mapper = 0 then nromPrgSize c.toBoard else 0x400000) c.prg = true
  chr : Memory.wf (if c.mapper = 0 then 0x2000 else 0x200000) c.chr = true

/-- A good state between two steps: good devices, RAM in canonical form and in size (R33, R77), and an NMI edge
detector that has seen the line as it is (R30, R312). -/
structure Inv (s : State) : Prop where
  ram : Memory.wf 0x800 s.ram = true
  ppu : PpuInv s.ppu
  apu : ApuInv s.apu
  cart : CartInv s.cart
  edge : s.nmiLinePrev = nmiOut s.ppu

/-! Terms of claims. -/

/-- The DMC has no byte left to fetch and no fetch pending, so that no cycle is stolen (R92, R552). -/
def DmcIdle (s : State) : Prop := s.apu.dmc.bytesRemaining = 0 ∧ s.apu.dmc.stallRequest = false

/-- RAM answers at the address, or the mapper drives it: a read there returns `peek` and has no side effect (R77, R82). On
mapper 0 the addresses from $8000 up are plain (R85). -/
def Plain (a : Word) (s : State) : Prop := driven a s = true

/-- The cartridge without what its mapper has observed of the PPU's bus. Only `irq` reads that, a read of memory never
does (R84). -/
def Cartridge.unobserved (c : Cartridge) : Cartridge := { c with observer := [] }

/-- A write to `a` cannot change a register of the mapper: the cartridge does not see it, or has none (R82, R85). -/
def KeepsBanks (a : Word) (s : State) : Prop := a.toNat < 0x4020 ∨ s.cart.mapper = 0

/-- `a` and `b` are the same byte of RAM (R77). -/
def SameRam (a b : Word) : Prop := a.toNat < 0x2000 ∧ b.toNat < 0x2000 ∧ a.toNat % 0x800 = b.toNat % 0x800

/-- `a` names PPU register `r` (R78). -/
def IsPpuReg (r : Nat) (a : Word) : Prop := 0x2000 ≤ a.toNat ∧ a.toNat < 0x4000 ∧ a.toNat % 8 = r

/-- `a` is an APU register that a write acts on (R71). -/
def IsApuReg (a : Word) : Prop := 0x4000 ≤ a.toNat ∧ a.toNat < 0x4018 ∧ a.toNat ≠ 0x4014 ∧ a.toNat ≠ 0x4016

/-- The envelope's registers are as they were. -/
structure EnvelopeKept (e f : Envelope) : Prop where
  loop : f.loop = e.loop
  constVol : f.constVol = e.constVol
  vol : f.vol = e.vol

/-- The pulse channel's registers that only a write changes are as they were. -/
structure PulseKept (p q : Pulse) : Prop where
  duty : q.duty = p.duty
  enabled : q.enabled = p.enabled
  env : EnvelopeKept p.env q.env
  sweepEnable : q.sweep.enable = p.sweep.enable
  sweepPeriod : q.sweep.period = p.sweep.period
  sweepNegate : q.sweep.negate = p.sweep.negate
  sweepShift : q.sweep.shift = p.sweep.shift

/-- The APU registers that only a write changes are as they were. -/
structure ApuKept (a b : Apu) : Prop where
  pulse1 : PulseKept a.pulse1 b.pulse1
  pulse2 : PulseKept a.pulse2 b.pulse2
  triPeriod : b.tri.timerPeriod = a.tri.timerPeriod
  triControl : b.tri.control = a.tri.control
  triReload : b.tri.linearReloadValue = a.tri.linearReloadValue
  triEnabled : b.tri.enabled = a.tri.enabled
  noisePeriod : b.noise.period = a.noise.period
  noiseMode : b.noise.mode = a.noise.mode
  noiseEnabled : b.noise.enabled = a.noise.enabled
  noiseEnv : EnvelopeKept a.noise.env b.noise.env
  dmcIrqEnable : b.dmc.irqEnable = a.dmc.irqEnable
  dmcLoop : b.dmc.loop = a.dmc.loop
  dmcPeriod : b.dmc.period = a.dmc.period
  dmcAddr : b.dmc.sampleAddr = a.dmc.sampleAddr
  dmcLen : b.dmc.sampleLen = a.dmc.sampleLen
  fcMode : b.fcMode = a.fcMode
  fcIrqInhibit : b.fcIrqInhibit = a.fcIrqInhibit

/-- The PPU registers that only a write changes are as they were (R43, R44). -/
structure PpuRegsKept (p q : Ppu) : Prop where
  ctrl : q.ctrl = p.ctrl
  mask : q.mask = p.mask
  t : q.t = p.t
  fineX : q.fineX = p.fineX

/-- Time went on and nothing else happened to it: the cycle counter did not go back, and each cycle it counted added one
sample to the APU's output, in front of those already there (R34, R561). -/
def TimePassed (s t : State) : Prop := ∃ out : List Rat, t.audio = out ++ s.audio ∧ t.cyc = s.cyc + out.length

/-- What no instruction changes: the parameters, the image, the wiring and the mapper of the cartridge, the host's
controller bytes, a pending reset; a latched NMI stays latched and time only goes on. -/
structure NeverChanged (s t : State) : Prop where
  params : t.params = s.params
  board : t.cart.toBoard = s.cart.toBoard
  mapper : t.cart.mapper = s.cart.mapper
  pad0 : t.pads.pad0 = s.pads.pad0
  pad1 : t.pads.pad1 = s.pads.pad1
  resetPending : t.resetPending = s.resetPending
  nmiLatch : s.nmiLatch = true → t.nmiLatch = true
  time : TimePassed s t

/-- What instructions that store nothing outside RAM keep of the devices: the cartridge but for what its mapper observes,
every byte of PPU memory and of OAM, every register that only a write changes, and the NMI latch where PPUCTRL
disables the NMI. What time and the side effects of reads change is not named: the pipelines and counters, the
status flags, PPU registers `v` and `w`, the read buffer, OAMADDR, the shift registers of the controllers. -/
structure DevicesKept (s t : State) : Prop where
  never : NeverChanged s t
  quiet : bit s.ppu.ctrl 7 = false → t.nmiLatch = s.nmiLatch
  cart : t.cart.unobserved = s.cart.unobserved
  ppuMem : ∀ a : PpuAddr, ppuMemRead t.cart t.ppu a = ppuMemRead s.cart s.ppu a
  oam : ∀ k : Nat, t.ppu.oam.get k = s.ppu.oam.get k
  ppuRegs : PpuRegsKept s.ppu t.ppu
  apuRegs : ApuKept s.apu t.apu
  strobe : t.pads.strobe = s.pads.strobe

/-- Nothing is stored: every byte of RAM and of the cartridge reads as before, and the devices are kept. -/
structure NothingStored (s t : State) : Prop where
  byte : ∀ a : Word, peek a t = peek a s
  devices : DevicesKept s t

/-- One byte `v` is stored at `ea`, and nothing else: RAM takes it where `ea` names RAM, every other byte of RAM reads as
before, and a device is changed only by a write to one of its own registers. A write that the cartridge sees can
switch its banks: every other byte the cartridge shows the CPU or the PPU reads as before where it does not. -/
structure StoredAt (ea : Word) (v : Byte) (s t : State) : Prop where
  stored : ea.toNat < 0x2000 → peek ea t = v
  byte : ∀ a : Word, ¬ SameRam ea a → a.toNat < 0x2000 ∨ KeepsBanks ea s → peek a t = peek a s
  never : NeverChanged s t
  quiet : ¬ (0x2000 ≤ ea.toNat ∧ ea.toNat < 0x4000) → bit s.ppu.ctrl 7 = false → t.nmiLatch = s.nmiLatch
  cart : ¬ IsPpuReg 7 ea → KeepsBanks ea s → t.cart.unobserved = s.cart.unobserved
  ppuMem : ¬ IsPpuReg 7 ea → KeepsBanks ea s → ∀ a : PpuAddr, ppuMemRead t.cart t.ppu a = ppuMemRead s.cart s.ppu a
  ppuRam : ¬ IsPpuReg 7 ea → t.cart.chr = s.cart.chr ∧ t.ppu.vram = s.ppu.vram ∧ t.ppu.palette = s.ppu.palette
  oam : ¬ IsPpuReg 4 ea → ea ≠ 0x4014 → ∀ k : Nat, t.ppu.oam.get k = s.ppu.oam.get k
  ppuRegs : ¬ (0x2000 ≤ ea.toNat ∧ ea.toNat < 0x4000) → PpuRegsKept s.ppu t.ppu
  apuRegs : ¬ IsApuReg ea → ApuKept s.apu t.apu
  strobe : ea ≠ 0x4016 → t.pads.strobe = s.pads.strobe

/-- RAM takes `v1` at `a1`, then `v2` at `a2`, and nothing else is stored: what a push of two bytes leaves. -/
structure Pushed2 (a1 a2 : Word) (v1 v2 : Byte) (s t : State) : Prop where
  first : peek a1 t = v1
  second : peek a2 t = v2
  byte : ∀ a : Word, ¬ SameRam a1 a → ¬ SameRam a2 a → peek a t = peek a s
  devices : DevicesKept s t

/-- RAM takes `v1` at `a1`, `v2` at `a2` and `v3` at `a3`, and nothing else is stored: what an exception leaves. -/
structure Pushed3 (a1 a2 a3 : Word) (v1 v2 v3 : Byte) (s t : State) : Prop where
  first : peek a1 t = v1
  second : peek a2 t = v2
  third : peek a3 t = v3
  byte : ∀ a : Word, ¬ SameRam a1 a → ¬ SameRam a2 a → ¬ SameRam a3 a → peek a t = peek a s
  devices : DevicesKept s t

/-- The CPU with the six flags of the status byte `v` (R28). -/
def Cpu.pulled (v : Byte) (c : Cpu) : Cpu :=
  { c with n := bit v 7, v := bit v 6, d := bit v 3, i := bit v 2, z := bit v 1, c := bit v 0 }

/-- The byte of the stack the stack pointer `s` names (R13, R23). -/
def stackSlot (s : Byte) : Word := word 0x01 s

/-! Effective addresses, in terms of the bytes that stand in memory (spec/31_addressing_modes.md). -/

/-- The mode with the same effective address among the modes of read-class instructions. -/
def storeAsRead : StoreMode → ReadMode
  | .zp => .zp
  | .zpx => .zpx
  | .zpy => .zpy
  | .abs => .abs
  | .abx => .abx
  | .aby => .aby
  | .izx => .izx
  | .izy => .izy

/-- The mode with the same effective address among the modes of read-class instructions. -/
def rmwAsRead : RmwMode → ReadMode
  | .zp => .zp
  | .zpx => .zpx
  | .abs => .abs
  | .abx => .abx

/-- The pointer in the zero page at `p`, its high byte at the next address of the zero page (R160, R161). -/
def pointerAt (p : Byte) (s : State) : Word := word (peek (zext16 (p + 1)) s) (peek (zext16 p) s)

/-- The address in the two bytes at PC (R158). -/
def operandWord (s : State) : Word := word (peek (s.cpu.pc + 1) s) (peek s.cpu.pc s)

/-- The effective address of a mode, its operand bytes at PC (R153 to R161). -/
def effectiveAddr (m : ReadMode) (s : State) : Word :=
  match m with
  | .imm => s.cpu.pc
  | .zp => zext16 (peek s.cpu.pc s)
  | .zpx => zext16 (peek s.cpu.pc s + s.cpu.x)
  | .zpy => zext16 (peek s.cpu.pc s + s.cpu.y)
  | .abs => operandWord s
  | .abx => operandWord s + zext16 s.cpu.x
  | .aby => operandWord s + zext16 s.cpu.y
  | .izx => pointerAt (peek s.cpu.pc s + s.cpu.x) s
  | .izy => pointerAt (peek s.cpu.pc s) s + zext16 s.cpu.y

/-- The operand bytes of the mode lie in RAM or where the mapper drives them. -/
def OperandsPlain (m : ReadMode) (s : State) : Prop := Plain s.cpu.pc s ∧ (m.bytes = 3 → Plain (s.cpu.pc + 1) s)

/-- The effective address of a read-class instruction and the state before the read cycle of its operand: after the operand
bytes, the pointer and the discarded read of an index, which for abs,X, abs,Y and (zp),Y happens only on a page
crossing (R153 to R161). -/
def readAddr (m : ReadMode) (s : State) : Word × State :=
  let crossed := fun (base : Word) (idx : Byte) (t : State) =>
    (eaFix base idx, if pageCross base idx then (memRead (eaNoFix base idx) t).2 else t)
  match m with
  | .imm => (s.cpu.pc, s)
  | .zp => zpAddr s
  | .zpx => zpIndexed s.cpu.x s
  | .zpy => zpIndexed s.cpu.y s
  | .abs => fetchWord s
  | .abx => crossed (fetchWord s).1 s.cpu.x (fetchWord s).2
  | .aby => crossed (fetchWord s).1 s.cpu.y (fetchWord s).2
  | .izx => izxAddr s
  | .izy => crossed (izyBase s).1 s.cpu.y (izyBase s).2

/-- The cell of PPU memory an address names: its space (pattern tables, nametables, palette) and its place there
(R420, R423, R424). -/
def ppuCell (c : Cartridge) (a : PpuAddr) : Nat × Nat :=
  if a.toNat < 0x2000 then (0, c.chrIndex a) else if a.toNat < 0x3F00 then (1, ntIndex c.mirror a) else (2, palIndex a)

/-- Whether a read at an indexed address crosses a page (R165), for the base address the instruction fetches. -/
def readCrosses (m : ReadMode) (s : State) : Bool :=
  match m with
  | .abx => pageCross (fetchWord s).1 s.cpu.x
  | .aby => pageCross (fetchWord s).1 s.cpu.y
  | .izy => pageCross (izyBase s).1 s.cpu.y
  | _ => false

/-! Groups of instructions. -/

/-- RAM is in canonical form and in size: the part of `Inv` that statements about stores need. -/
def RamOk (s : State) : Prop := Memory.wf 0x800 s.ram = true

/-- The read-class instructions (R151). -/
def readClass : List (ReadMode → Instr) :=
  [.lda, .ldx, .ldy, .adc, .sbc, .and, .ora, .eor, .cmp, .cpx, .cpy, .bit]

/-- The read-modify-write instructions on memory (R151). -/
def rmwClass : List (RmwMode → Instr) :=
  [.inc, .dec, fun m => .asl (.mem m), fun m => .lsr (.mem m), fun m => .rol (.mem m), fun m => .ror (.mem m)]

/-- The instructions that work on registers and flags alone (R152). -/
def registerClass : List Instr :=
  [.tax, .tay, .txa, .tya, .tsx, .txs, .inx, .iny, .dex, .dey] ++
  [.asl .acc, .lsr .acc, .rol .acc, .ror .acc, .clc, .sec, .cli, .sei, .clv, .cld, .sed, .nop]

/-- The eight branches with their conditions (R270 to R277). -/
def branchClass : List (Instr × (Cpu → Bool)) :=
  [(.bcc, fun c => !c.c), (.bcs, fun c => c.c), (.beq, fun c => c.z), (.bne, fun c => !c.z)] ++
  [(.bmi, fun c => c.n), (.bpl, fun c => !c.n), (.bvc, fun c => !c.v), (.bvs, fun c => c.v)]

/-- The instructions of the stack and of control flow whose cycle counts are fixed (R164). -/
def controlClass : List Instr :=
  [.pha, .php, .pla, .plp, .jmp .abs, .jmp .ind, .jsr, .rts, .brk, .rti]

end Sys2Proof.Machine
end

