-- ==== Sys2Proof/Certificates/Slice0/Obligations.lean ====
section
/-! DEFINITION. The statements for the provers. Unless a docstring says otherwise `exec i s` starts from the state
after the opcode fetch (R157), so `s.cpu.pc` is the address of the first operand byte. -/

open Sys2Proof Sys2Proof.Machine

/-! Encoding (spec/30_encoding.md). -/

/-- Words of R124 written out bit by bit, at least one of every family, decode to what they stand for. -/
def Obligations.DecodedWords : Prop :=
  decodeOpcode 0b10101001 = .lda .imm ∧ decodeOpcode 0b10010001 = .sta .izy ∧ decodeOpcode 0b10110110 = .ldx .zpy
  ∧ decodeOpcode 0b10011010 = .txs ∧ decodeOpcode 0b00101000 = .plp ∧ decodeOpcode 0b01110001 = .adc .izy
  ∧ decodeOpcode 0b11100001 = .sbc .izx ∧ decodeOpcode 0b00101100 = .bit .abs ∧ decodeOpcode 0b11011110 = .dec .abx
  ∧ decodeOpcode 0b01101010 = .ror .acc ∧ decodeOpcode 0b00011110 = .asl (.mem .abx) ∧ decodeOpcode 0b01110000 = .bvs
  ∧ decodeOpcode 0b01101100 = .jmp .ind ∧ decodeOpcode 0b00100000 = .jsr ∧ decodeOpcode 0b01111000 = .sei
  ∧ decodeOpcode 0b00000000 = .brk ∧ decodeOpcode 0b01000000 = .rti ∧ decodeOpcode 0b11101010 = .nop
  ∧ decodeOpcode 0b10011011 = .ill 0x9B

/-- Encoding a well-formed instruction with the operand bytes its length asks for and decoding the result gives the
instruction, the operand bytes and whatever followed (R120, R121, R124). -/
def Obligations.EncodeThenDecode : Prop :=
  ∀ (i : Instr) (operands rest : List Byte), i.wf = true → operands.length = i.bytes - 1 →
    ∃ bs, encode i operands = some bs ∧ bs.length = i.bytes ∧ decodeBytes (bs ++ rest) = .ok ⟨i, operands, rest⟩

/-- Whatever decodes is a well-formed instruction, and encoding it gives back the bytes it was read from (R126). -/
def Obligations.DecodeThenEncode : Prop :=
  ∀ (bs : List Byte) (d : Decoded), decodeBytes bs = .ok d →
    d.instr.wf = true ∧ ∃ w, encode d.instr d.operands = some w ∧ w ++ d.rest = bs

/-- A step with no reset pending fetches the byte at PC, steps PC past it, runs the instruction that byte decodes to,
and then polls for interrupts (R157, R314; decision D8); a byte that RAM or the cartridge answers is fetched as it
stands there. -/
def Obligations.StepRunsInstruction : Prop :=
  ∀ (s : State) (i : Instr), s.resetPending = false → decodeOpcode (fetch s).1 = i →
    i.wf = true
    ∧ (Plain s.cpu.pc s → (fetch s).1 = peek s.cpu.pc s)
    ∧ (fetch s).2.cpu = { s.cpu with pc := s.cpu.pc + 1 }
    ∧ NothingStored s (fetch s).2
    ∧ ∃ t, exec i (fetch s).2 = .next t ∧ step s = .next (pollInterrupts t)

/-! Load and store (spec/40_load_store.md). -/

/-- LDA, LDX and LDY read their operand in one read cycle at the effective address, a device register's or any other,
after the cycles of the mode, which store nothing; they put the byte into their register, set N and Z from it, move PC
past the operand bytes and change nothing else of the CPU. The operand of every read-class instruction is read so (R200 to
R202, R14, R151, R153 to R161). -/
def Obligations.LoadResult : Prop :=
  ∀ (m : ReadMode) (s : State),
    let ea := (readAddr m s).1
    let before := (readAddr m s).2
    let v := (memRead ea before).1
    let t := (memRead ea before).2
    let pc := s.cpu.pc + BitVec.ofNat 16 (m.bytes - 1)
    NothingStored s before
    ∧ readOperand m s = (v, { t with cpu := { s.cpu with pc := pc } })
    ∧ exec (.lda m) s = .next { t with cpu := { s.cpu with a := v, n := bit v 7, z := v == 0, pc := pc } }
    ∧ exec (.ldx m) s = .next { t with cpu := { s.cpu with x := v, n := bit v 7, z := v == 0, pc := pc } }
    ∧ exec (.ldy m) s = .next { t with cpu := { s.cpu with y := v, n := bit v 7, z := v == 0, pc := pc } }

/-- With the operand bytes where RAM or the cartridge answers, the read goes to the effective address of the mode, a
device register's too; where RAM or the cartridge answers there as well, LDA, LDX and LDY load the byte that stands at
it (R153 to R161). -/
def Obligations.LoadFromMemory : Prop :=
  ∀ (m : ReadMode) (s : State), OperandsPlain m s →
    let ea := effectiveAddr m s
    (readAddr m s).1 = ea
    ∧ (Plain ea s →
        (∃ t, exec (.lda m) s = .next t ∧ t.cpu.a = peek ea s)
        ∧ (∃ t, exec (.ldx m) s = .next t ∧ t.cpu.x = peek ea s)
        ∧ (∃ t, exec (.ldy m) s = .next t ∧ t.cpu.y = peek ea s))

/-- Frame of the twelve read-class instructions: S, I, D and the registers none of them writes keep their value, PC
moves past the operand bytes, and nothing is stored: every byte of RAM, cartridge, PPU memory and OAM and every
register that only a write changes is as before (R29, R151). -/
def Obligations.ReadClassFrame : Prop :=
  ∀ f ∈ readClass, ∀ (m : ReadMode) (s : State), ∃ t, exec (f m) s = .next t
    ∧ t.cpu.s = s.cpu.s ∧ t.cpu.i = s.cpu.i ∧ t.cpu.d = s.cpu.d
    ∧ t.cpu.pc = s.cpu.pc + BitVec.ofNat 16 (m.bytes - 1) ∧ NothingStored s t

/-- STA, STX and STY write their register in one write cycle at the effective address, a device register's or any other,
after the cycles of the mode, which store nothing; at $4014 OAM DMA follows. They store nowhere else, move PC past the
operand bytes and change nothing else of the CPU, no flag included (R203 to R205, R75, R90, R151). -/
def Obligations.StoreResult : Prop :=
  ∀ (m : StoreMode) (s : State), RamOk s →
    let ea := (storeAddr m s).1
    let before := (storeAddr m s).2
    let t := fun r : Byte => memWrite ea r before
    let c := { s.cpu with pc := s.cpu.pc + BitVec.ofNat 16 (m.bytes - 1) }
    NothingStored s before
    ∧ exec (.sta m) s = .next (t s.cpu.a) ∧ exec (.stx m) s = .next (t s.cpu.x) ∧ exec (.sty m) s = .next (t s.cpu.y)
    ∧ ∀ r : Byte, (t r).cpu = c ∧ StoredAt ea r s (t r)
        ∧ t r = (let w := writeCycle ea r before
                 if ea = 0x4014 then oamDma r w else w)

/-- With the operand bytes where RAM or the cartridge answers the store goes to the effective address of the mode;
there RAM reads as the stored register afterwards (R154 to R161, R77). -/
def Obligations.StoreToMemory : Prop :=
  ∀ (m : StoreMode) (s : State), RamOk s → OperandsPlain (storeAsRead m) s →
    let ea := effectiveAddr (storeAsRead m) s
    (storeAddr m s).1 = ea
    ∧ (ea.toNat < 0x2000 →
        (∃ t, exec (.sta m) s = .next t ∧ peek ea t = s.cpu.a)
        ∧ (∃ t, exec (.stx m) s = .next t ∧ peek ea t = s.cpu.x)
        ∧ (∃ t, exec (.sty m) s = .next t ∧ peek ea t = s.cpu.y))

/-! Transfers and the stack (spec/41_transfer_stack.md). -/

/-- The six transfers: their opcodes, the register written, N and Z from the value moved (TXS: no flag), every other
register and flag unchanged (R210 to R215). -/
def Obligations.TransferResult : Prop :=
  decodeOpcode 0xAA = .tax ∧ decodeOpcode 0xA8 = .tay ∧ decodeOpcode 0x8A = .txa ∧ decodeOpcode 0x98 = .tya
  ∧ decodeOpcode 0xBA = .tsx ∧ decodeOpcode 0x9A = .txs
  ∧ ∀ s : State,
    let t := dummyFetch s
    let c := s.cpu
    exec .tax s = .next { t with cpu := { c with x := c.a, n := bit c.a 7, z := c.a == 0 } }
    ∧ exec .tay s = .next { t with cpu := { c with y := c.a, n := bit c.a 7, z := c.a == 0 } }
    ∧ exec .txa s = .next { t with cpu := { c with a := c.x, n := bit c.x 7, z := c.x == 0 } }
    ∧ exec .tya s = .next { t with cpu := { c with a := c.y, n := bit c.y 7, z := c.y == 0 } }
    ∧ exec .tsx s = .next { t with cpu := { c with x := c.s, n := bit c.s 7, z := c.s == 0 } }
    ∧ exec .txs s = .next { t with cpu := { c with s := c.x } }

/-- Frame of the instructions that work on registers and flags alone: each completes, PC stays where the opcode fetch
left it, and nothing is stored (R152). -/
def Obligations.RegisterClassFrame : Prop :=
  ∀ i ∈ registerClass, ∀ s : State, ∃ t, exec i s = .next t ∧ t.cpu.pc = s.cpu.pc ∧ NothingStored s t

/-- PHA and PHP push A and the status byte with B = 1: the byte is stored at the slot S names and nowhere else, S goes
down by 1 within page 1, and nothing else of the CPU changes (R216, R217, R13, R27). -/
def Obligations.PushResult : Prop :=
  ∀ s : State, RamOk s →
    let c := { s.cpu with s := s.cpu.s - 1 }
    (∃ t, exec .pha s = .next t ∧ t.cpu = c ∧ StoredAt (stackAddr s) s.cpu.a s t)
    ∧ (∃ t, exec .php s = .next t ∧ t.cpu = c ∧ StoredAt (stackAddr s) (pPush true s.cpu) s t)

/-- PLA and PLP pull the byte at the slot above S: A with N and Z, or the six flags; S goes up by 1, nothing else of the
CPU changes and nothing is stored (R218, R219, R28). -/
def Obligations.PullResult : Prop :=
  ∀ s : State,
    let v := peek (stackSlot (s.cpu.s + 1)) s
    (∃ t, exec .pla s = .next t
      ∧ t.cpu = { s.cpu with a := v, s := s.cpu.s + 1, n := bit v 7, z := v == 0 } ∧ NothingStored s t)
    ∧ (∃ t, exec .plp s = .next t ∧ t.cpu = { s.cpu.pulled v with s := s.cpu.s + 1 } ∧ NothingStored s t)

/-- The status byte of a push: bit 5 is 1, bit 4 is its B, and the six flags come back when it is pulled (R26 to R28). -/
def Obligations.StatusByte : Prop :=
  ∀ (b : Bool) (c d : Cpu), bit (pPush b c) 5 = true ∧ bit (pPush b c) 4 = b
    ∧ d.pulled (pPush b c) = { d with n := c.n, v := c.v, d := c.d, i := c.i, z := c.z, c := c.c }

/-! Arithmetic, logic, compare (spec/42_arith_logic.md). -/

/-- ADC in numbers: A becomes the sum of A, the operand and the carry modulo 256, C the carry out of the unsigned sum, V
the overflow of the signed sum, N and Z from the result; D is not consulted (R230, R239). -/
def Obligations.AdcResult : Prop :=
  ∀ (m : ReadMode) (s : State),
    let v := (readOperand m s).1
    let t := (readOperand m s).2
    let sum := s.cpu.a.toNat + v.toNat + (if s.cpu.c then 1 else 0)
    let signed : Int := s.cpu.a.toInt + v.toInt + (if s.cpu.c then 1 else 0)
    let res := BitVec.ofNat 8 sum
    exec (.adc m) s = .next { t with cpu := { s.cpu with
      a := res, n := bit res 7, z := res == 0, c := decide (255 < sum), v := decide (signed < -128 ∨ 127 < signed),
      pc := s.cpu.pc + BitVec.ofNat 16 (m.bytes - 1) } }

/-- SBC in numbers: A becomes A minus the operand minus the borrow modulo 256, C says that the unsigned difference is not
negative, V that the signed difference overflows, N and Z from the result; D is not consulted (R231, R239). -/
def Obligations.SbcResult : Prop :=
  ∀ (m : ReadMode) (s : State),
    let v := (readOperand m s).1
    let t := (readOperand m s).2
    let diff : Int := (s.cpu.a.toNat : Int) - v.toNat - (if s.cpu.c then 0 else 1)
    let signed : Int := s.cpu.a.toInt - v.toInt - (if s.cpu.c then 0 else 1)
    let res := BitVec.ofInt 8 diff
    exec (.sbc m) s = .next { t with cpu := { s.cpu with
      a := res, n := bit res 7, z := res == 0, c := decide (0 ≤ diff), v := decide (signed < -128 ∨ 127 < signed),
      pc := s.cpu.pc + BitVec.ofNat 16 (m.bytes - 1) } }

/-- AND, ORA and EOR: A becomes the bitwise result, N and Z follow it, C, V and everything else of the CPU but PC are
unchanged. BIT: Z from A and the operand, N and V are bits 7 and 6 of the operand; A, C and everything else of
the CPU but PC are unchanged (R232 to R234, R238). -/
def Obligations.LogicResult : Prop :=
  ∀ (m : ReadMode) (s : State),
    let v := (readOperand m s).1
    let t := (readOperand m s).2
    let next := fun r : Byte => Host.Outcome.next (φ := Fault) (ρ := Refusal) { t with cpu := { s.cpu with
      a := r, n := bit r 7, z := r == 0, pc := s.cpu.pc + BitVec.ofNat 16 (m.bytes - 1) } }
    exec (.and m) s = next (s.cpu.a &&& v) ∧ exec (.ora m) s = next (s.cpu.a ||| v)
    ∧ exec (.eor m) s = next (s.cpu.a ^^^ v)
    ∧ exec (.bit m) s = .next { t with cpu := { s.cpu with
        z := decide (s.cpu.a &&& v = 0), n := bit v 7, v := bit v 6,
        pc := s.cpu.pc + BitVec.ofNat 16 (m.bytes - 1) } }

/-- CMP, CPX and CPY: C says that the register is not below the operand (unsigned), Z that they are equal, N is bit 7 of
the difference; V, the register and everything else of the CPU but PC are unchanged (R235 to R237). -/
def Obligations.CompareResult : Prop :=
  ∀ (m : ReadMode) (s : State),
    let v := (readOperand m s).1
    let t := (readOperand m s).2
    let next := fun r : Byte => Host.Outcome.next (φ := Fault) (ρ := Refusal) { t with cpu := { s.cpu with
      c := decide (v.toNat ≤ r.toNat), z := decide (r = v), n := bit (r - v) 7,
      pc := s.cpu.pc + BitVec.ofNat 16 (m.bytes - 1) } }
    exec (.cmp m) s = next s.cpu.a ∧ exec (.cpx m) s = next s.cpu.x ∧ exec (.cpy m) s = next s.cpu.y

/-! Increment, decrement, shift, rotate (spec/43_incdec_shift.md). -/

/-- INX, INY, DEX and DEY: the register counts modulo 256, N and Z follow it, C, V and everything else of the CPU are
unchanged (R252 to R255). -/
def Obligations.CountRegister : Prop :=
  ∀ s : State,
    let t := dummyFetch s
    let c := s.cpu
    exec .inx s = .next { t with cpu := { c with x := c.x + 1, n := bit (c.x + 1) 7, z := c.x + 1 == 0 } }
    ∧ exec .iny s = .next { t with cpu := { c with y := c.y + 1, n := bit (c.y + 1) 7, z := c.y + 1 == 0 } }
    ∧ exec .dex s = .next { t with cpu := { c with x := c.x - 1, n := bit (c.x - 1) 7, z := c.x - 1 == 0 } }
    ∧ exec .dey s = .next { t with cpu := { c with y := c.y - 1, n := bit (c.y - 1) 7, z := c.y - 1 == 0 } }

/-- INC and DEC read the operand at the effective address, a device register's or any other, write it back unmodified (an
idle cycle where DUMMY_CYCLES_ON_BUS is false), then write the operand plus or minus 1 (modulo 256) there; the cycles
before store nothing. They store nowhere else, N and Z follow the result, PC moves past the operand bytes, nothing else
of the CPU changes (R250, R251, R151; the first write is the spec's decision D1). -/
def Obligations.CountMemory : Prop :=
  ∀ (m : RmwMode) (s : State), RamOk s →
    let ea := (rmwAddr m s).1
    let old := (memRead ea (rmwAddr m s).2).1
    let read := (memRead ea (rmwAddr m s).2).2
    let c := fun r : Byte =>
      { s.cpu with n := bit r 7, z := r == 0, pc := s.cpu.pc + BitVec.ofNat 16 (m.bytes - 1) }
    let t := fun r : Byte =>
      { memWrite ea r (if s.params.dummyCyclesOnBus then memWrite ea old read else tick read) with cpu := c r }
    NothingStored s (rmwAddr m s).2
    ∧ exec (.inc m) s = .next (t (old + 1)) ∧ exec (.dec m) s = .next (t (old - 1))
    ∧ ∀ r : Byte, StoredAt ea r s (t r)

/-- ASL, LSR, ROL and ROR of A, in numbers: the result, N and Z from it, C the bit shifted out; V and everything else of
the CPU are unchanged (R256 to R259). -/
def Obligations.ShiftAccumulator : Prop :=
  ∀ s : State,
    let a := s.cpu.a.toNat
    let c := if s.cpu.c then 1 else 0
    let next := fun (r : Nat) (out : Bool) => Host.Outcome.next (φ := Fault) (ρ := Refusal) { dummyFetch s with
      cpu := { s.cpu with a := BitVec.ofNat 8 r, n := decide (128 ≤ r % 256), z := decide (r % 256 = 0), c := out } }
    exec (.asl .acc) s = next (2 * a) (decide (128 ≤ a))
    ∧ exec (.lsr .acc) s = next (a / 2) (decide (a % 2 = 1))
    ∧ exec (.rol .acc) s = next (2 * a + c) (decide (128 ≤ a))
    ∧ exec (.ror .acc) s = next (a / 2 + 128 * c) (decide (a % 2 = 1))

/-- ASL, LSR, ROL and ROR of a memory location read the operand at the effective address, a device register's or any other,
write it back unmodified (an idle cycle where DUMMY_CYCLES_ON_BUS is false), then write the result there; the cycles
before store nothing. They store nowhere else, N and Z follow the result, C is the bit shifted out, PC moves past the
operand bytes, nothing else of the CPU changes (R256 to R259, R151; the first write is the spec's decision D1). -/
def Obligations.ShiftMemory : Prop :=
  ∀ (m : RmwMode) (s : State), RamOk s →
    let ea := (rmwAddr m s).1
    let old := (memRead ea (rmwAddr m s).2).1
    let read := (memRead ea (rmwAddr m s).2).2
    let c := fun (r : Byte) (out : Bool) =>
      { s.cpu with n := bit r 7, z := r == 0, c := out, pc := s.cpu.pc + BitVec.ofNat 16 (m.bytes - 1) }
    let t := fun (r : Byte) (out : Bool) =>
      { memWrite ea r (if s.params.dummyCyclesOnBus then memWrite ea old read else tick read) with cpu := c r out }
    let up := BitVec.ofNat 8 (2 * old.toNat)
    let down := BitVec.ofNat 8 (old.toNat / 2)
    let inLow : Byte := if s.cpu.c then 1 else 0
    let inHigh : Byte := if s.cpu.c then 0x80 else 0
    NothingStored s (rmwAddr m s).2
    ∧ exec (.asl (.mem m)) s = .next (t up (bit old 7)) ∧ exec (.lsr (.mem m)) s = .next (t down (bit old 0))
    ∧ exec (.rol (.mem m)) s = .next (t (up ||| inLow) (bit old 7))
    ∧ exec (.ror (.mem m)) s = .next (t (down ||| inHigh) (bit old 0))
    ∧ ∀ (r : Byte) (out : Bool), StoredAt ea r s (t r out)

/-- With the operand bytes where RAM or the cartridge answers a read-modify-write works on the effective address of
its mode; where that is RAM, the byte there is the operand and reads as the result afterwards, whether the dummy write
is a bus access or not (R151, R154, R155, R158, R159; decision D1). -/
def Obligations.CountInMemory : Prop :=
  ∀ (m : RmwMode) (s : State), RamOk s → OperandsPlain (rmwAsRead m) s →
    let ea := effectiveAddr (rmwAsRead m) s
    (rmwAddr m s).1 = ea
    ∧ (ea.toNat < 0x2000 →
        (∃ t, exec (.inc m) s = .next t ∧ peek ea t = peek ea s + 1)
        ∧ (∃ t, exec (.dec m) s = .next t ∧ peek ea t = peek ea s - 1)
        ∧ (∃ t, exec (.lsr (.mem m)) s = .next t ∧ (peek ea t).toNat = (peek ea s).toNat / 2))

/-! Branches, jumps, subroutines (spec/44_branch_jump.md). -/

/-- The eight branches: with the condition true PC becomes the address of the next instruction plus the signed offset,
else the address of the next instruction; no register or flag but PC changes and nothing is stored (R269 to
R277, R162). -/
def Obligations.BranchResult : Prop :=
  ∀ e ∈ branchClass, ∀ s : State,
    let off : Int := (fetch s).1.toInt
    let pc := if e.2 s.cpu then BitVec.ofInt 16 (s.cpu.pc.toNat + 1 + off) else s.cpu.pc + 1
    (Plain s.cpu.pc s → (fetch s).1 = peek s.cpu.pc s)
    ∧ ∃ t, exec e.1 s = .next t ∧ t.cpu = { s.cpu with pc := pc } ∧ NothingStored s t

/-- JMP: the absolute form goes to its operand, the indirect form to the address in the two bytes at its operand, the
second of them taken from the same page (decision D7); nothing else of the CPU changes and nothing is stored (R278,
R163). -/
def Obligations.JumpResult : Prop :=
  ∀ s : State,
    (∃ t, exec (.jmp .abs) s = .next t ∧ t.cpu = { s.cpu with pc := (fetchWord s).1 } ∧ NothingStored s t)
    ∧ (∃ t pc, exec (.jmp .ind) s = .next t ∧ t.cpu = { s.cpu with pc := pc } ∧ NothingStored s t
        ∧ (Plain (fetchWord s).1 s → Plain (word (hiByte (fetchWord s).1) (loByte (fetchWord s).1 + 1)) s →
            pc = word (peek (word (hiByte (fetchWord s).1) (loByte (fetchWord s).1 + 1)) s)
                   (peek (fetchWord s).1 s)))
    ∧ (Plain s.cpu.pc s → Plain (s.cpu.pc + 1) s → (fetchWord s).1 = operandWord s)

/-- JSR: the address of its last byte is pushed, high byte first, S goes down by 2, PC goes to the operand, whose high
byte is read after the pushes; nothing else of the CPU changes and nothing else is stored (R279). -/
def Obligations.JsrResult : Prop :=
  ∀ s : State, RamOk s → ∃ t pc, exec .jsr s = .next t
    ∧ t.cpu = { s.cpu with s := s.cpu.s - 2, pc := pc }
    ∧ Pushed2 (stackSlot s.cpu.s) (stackSlot (s.cpu.s - 1)) (hiByte (s.cpu.pc + 1)) (loByte (s.cpu.pc + 1)) s t
    ∧ (Plain s.cpu.pc s → Plain (s.cpu.pc + 1) s → pc = word (peek (s.cpu.pc + 1) t) (peek s.cpu.pc s))

/-- RTS: PC becomes the address in the two slots above S plus 1, S goes up by 2; nothing else of the CPU changes and
nothing is stored (R280). -/
def Obligations.RtsResult : Prop :=
  ∀ s : State, ∃ t, exec .rts s = .next t
    ∧ t.cpu = { s.cpu with s := s.cpu.s + 2, pc := word (peek (stackSlot (s.cpu.s + 2)) s) (peek (stackSlot (s.cpu.s + 1)) s) + 1 }
    ∧ NothingStored s t

/-- A subroutine call returns behind itself: RTS, from any state that has the stack and S as JSR left them, goes to the
address after the JSR (R279, R280). -/
def Obligations.CallReturn : Prop :=
  ∀ s : State, RamOk s → ∃ t, exec .jsr s = .next t
    ∧ ∀ u : State, u.ram = t.ram → u.cpu.s = t.cpu.s →
        ∃ w, exec .rts u = .next w ∧ w.cpu.pc = s.cpu.pc + 2 ∧ w.cpu.s = s.cpu.s

/-! Flags, BRK, RTI, illegal opcodes (spec/45_flag_system.md). -/

/-- CLC SEC CLI SEI CLV CLD SED: their opcodes; one flag is written, every register and every other flag is unchanged
(R290 to R296). NOP changes nothing of the CPU. -/
def Obligations.FlagResult : Prop :=
  decodeOpcode 0x18 = .clc ∧ decodeOpcode 0x38 = .sec ∧ decodeOpcode 0x58 = .cli ∧ decodeOpcode 0x78 = .sei
  ∧ decodeOpcode 0xB8 = .clv ∧ decodeOpcode 0xD8 = .cld ∧ decodeOpcode 0xF8 = .sed ∧ decodeOpcode 0xEA = .nop
  ∧ ∀ s : State,
    let t := dummyFetch s
    exec .clc s = .next { t with cpu := { s.cpu with c := false } }
    ∧ exec .sec s = .next { t with cpu := { s.cpu with c := true } }
    ∧ exec .cli s = .next { t with cpu := { s.cpu with i := false } }
    ∧ exec .sei s = .next { t with cpu := { s.cpu with i := true } }
    ∧ exec .clv s = .next { t with cpu := { s.cpu with v := false } }
    ∧ exec .cld s = .next { t with cpu := { s.cpu with d := false } }
    ∧ exec .sed s = .next { t with cpu := { s.cpu with d := true } }
    ∧ exec .nop s = .next { t with cpu := s.cpu }

/-- BRK takes its exception: PC past the padding byte and the status byte with B = 1 are pushed, S goes down by 3, I is
set, D and the other flags and registers are unchanged, PC comes from $FFFE and $FFFF where the cartridge drives them
(R298, R320; the padding byte and I set with D kept are the spec's decisions D40 and D33). -/
def Obligations.BrkResult : Prop :=
  ∀ s : State, RamOk s → ∃ t pc, exec .brk s = .next t
    ∧ t.cpu = { s.cpu with s := s.cpu.s - 3, i := true, pc := pc }
    ∧ (Plain 0xFFFE s → Plain 0xFFFF s → pc = word (peek 0xFFFF s) (peek 0xFFFE s))
    ∧ Pushed3 (stackSlot s.cpu.s) (stackSlot (s.cpu.s - 1)) (stackSlot (s.cpu.s - 2))
        (hiByte (s.cpu.pc + 1)) (loByte (s.cpu.pc + 1)) (pPush true s.cpu) s t

/-- RTI: the six flags come from the slot above S with bits 5 and 4 ignored, PC from the two slots above that without an
increment, S goes up by 3; A, X, Y are unchanged, nothing is stored, and a latched NMI stays latched (R321, R299). -/
def Obligations.RtiResult : Prop :=
  decodeOpcode 0x40 = .rti
  ∧ ∀ s : State, ∃ t, exec .rti s = .next t
    ∧ t.cpu = { s.cpu.pulled (peek (stackSlot (s.cpu.s + 1)) s) with
        s := s.cpu.s + 3
        pc := word (peek (stackSlot (s.cpu.s + 3)) s) (peek (stackSlot (s.cpu.s + 2)) s) }
    ∧ NothingStored s t

/-- An illegal opcode moves PC past its operand bytes and changes no other register, no flag and no memory (R300, R127;
decision D6). -/
def Obligations.IllegalResult : Prop :=
  ∀ (op : Byte) (s : State), ∃ t, exec (.ill op) s = .next t
    ∧ t.cpu = { s.cpu with pc := s.cpu.pc + BitVec.ofNat 16 (illegalBytes op - 1) } ∧ NothingStored s t

/-! Cycle counts, the DMC being idle (R130, R164, R9). The counts include the opcode fetch. -/

/-- A read-class instruction takes its base count, and one cycle more when its indexed address crosses a page. -/
def Obligations.ReadClassCycles : Prop :=
  ∀ f ∈ readClass, ∀ (m : ReadMode) (s : State), DmcIdle s → ∃ t, exec (f m) s = .next t
    ∧ t.cyc + 1 = s.cyc + (f m).baseCycles + (if readCrosses m s then 1 else 0)

/-- The instructions on registers and flags take 2 cycles; an illegal opcode takes the cycles `IllegalTiming` gives it, two
at least as every instruction, and max(2, length) where it gives none (R157, R300, decision D6; that a count below two
reads as two is the model's, notes/assumptions/10.md). -/
def Obligations.RegisterClassCycles : Prop :=
  (∀ i ∈ registerClass, ∀ s : State, DmcIdle s → ∃ t, exec i s = .next t ∧ t.cyc + 1 = s.cyc + 2)
  ∧ (∀ (op : Byte) (s : State), DmcIdle s →
      ∃ t, exec (.ill op) s = .next t ∧ t.cyc + 1 = s.cyc + illegalCycles s.params op)
  ∧ ∀ (op : Byte) (p : Params),
      ((∀ n, (op, n) ∉ p.illegalTiming) → illegalCycles p op = max 2 (illegalBytes op))
      ∧ ∀ n rest, p.illegalTiming = (op, n) :: rest → illegalCycles p op = max 2 n

/-- A store or read-modify-write to an address other than $4014 and $4015 takes its base count, page crossed or not. -/
def Obligations.StoreCycles : Prop :=
  (∀ (m : StoreMode) (s : State), DmcIdle s → (storeAddr m s).1 ≠ 0x4014 → (storeAddr m s).1 ≠ 0x4015 →
    (∃ t, exec (.sta m) s = .next t ∧ t.cyc + 1 = s.cyc + (Instr.sta m).baseCycles)
    ∧ (∃ t, exec (.stx m) s = .next t ∧ t.cyc + 1 = s.cyc + (Instr.stx m).baseCycles)
    ∧ (∃ t, exec (.sty m) s = .next t ∧ t.cyc + 1 = s.cyc + (Instr.sty m).baseCycles))
  ∧ ∀ f ∈ rmwClass, ∀ (m : RmwMode) (s : State), DmcIdle s → (rmwAddr m s).1 ≠ 0x4014 → (rmwAddr m s).1 ≠ 0x4015 →
    ∃ t, exec (f m) s = .next t ∧ t.cyc + 1 = s.cyc + (f m).baseCycles

/-- A branch takes 2 cycles not taken, 3 taken within the page of the next instruction, 4 taken to another page. -/
def Obligations.BranchCycles : Prop :=
  ∀ e ∈ branchClass, ∀ s : State, DmcIdle s →
    let target := s.cpu.pc + 1 + sext16 (fetch s).1
    ∃ t, exec e.1 s = .next t
      ∧ t.cyc + 1 = s.cyc + (if e.2 s.cpu then (if hiByte target = hiByte (s.cpu.pc + 1) then 3 else 4) else 2)

/-- Pushes, pulls, jumps, subroutine calls and returns, BRK and RTI take their base count. -/
def Obligations.ControlCycles : Prop :=
  ∀ i ∈ controlClass, ∀ s : State, DmcIdle s → ∃ t, exec i s = .next t ∧ t.cyc + 1 = s.cyc + i.baseCycles

/-! Interrupts and reset (spec/60_exceptions.md, spec/70_reset_and_hazards.md). -/

/-- A latched NMI is taken at the boundary, before an IRQ and whatever I holds: the latch is consumed before the sequence,
so that it is clear afterwards unless the NMI output rose again, PC and the status byte with B = 0 are pushed, I is
set, PC comes from $FFFA and $FFFB where the cartridge drives them, nothing else of the CPU changes (R314, R317,
R318, R322; decisions D8 and D33); with the DMC idle it takes 7 cycles. That this holds inside an NMI handler too
(R314, R323) is the model's choice against R628 (d), notes/assumptions/21.md. -/
def Obligations.NmiTaken : Prop :=
  ∀ s : State, RamOk s → s.nmiLatch = true →
    let t := pollInterrupts s
    t = interruptSequence nmiVector { s with nmiLatch := false }
    ∧ (bit s.ppu.ctrl 7 = false → t.nmiLatch = false)
    ∧ (∃ pc, t.cpu = { s.cpu with s := s.cpu.s - 3, i := true, pc := pc }
        ∧ (Plain 0xFFFA s → Plain 0xFFFB s → pc = word (peek 0xFFFB s) (peek 0xFFFA s)))
    ∧ Pushed3 (stackSlot s.cpu.s) (stackSlot (s.cpu.s - 1)) (stackSlot (s.cpu.s - 2))
        (hiByte s.cpu.pc) (loByte s.cpu.pc) (pPush false s.cpu) { s with nmiLatch := false } t
    ∧ (DmcIdle s → t.cyc = s.cyc + 7)

/-- Without a latched NMI an IRQ is taken exactly when the line, the frame counter's flag or the DMC's or the mapper's
`irq()`, is asserted and I is 0, through $FFFE and $FFFF with B = 0; otherwise the poll changes nothing (R314, R315,
R316, R318; decisions D8 and D33). -/
def Obligations.IrqTaken : Prop :=
  ∀ s : State, RamOk s → s.nmiLatch = false →
    let t := pollInterrupts s
    let line := s.apu.frameIrq = true ∨ s.apu.dmc.irq = true ∨ s.cart.irq = true
    (¬ line → t = s)
    ∧ (s.cpu.i = true → t = s)
    ∧ (line → s.cpu.i = false →
        (∃ pc, t.cpu = { s.cpu with s := s.cpu.s - 3, i := true, pc := pc }
          ∧ (Plain 0xFFFE s → Plain 0xFFFF s → pc = word (peek 0xFFFF s) (peek 0xFFFE s)))
        ∧ Pushed3 (stackSlot s.cpu.s) (stackSlot (s.cpu.s - 1)) (stackSlot (s.cpu.s - 2))
            (hiByte s.cpu.pc) (loByte s.cpu.pc) (pPush false s.cpu) s t
        ∧ (DmcIdle s → t.cyc = s.cyc + 7))

/-- A pending reset comes before everything: PC comes from $FFFC and $FFFD where the cartridge drives them, I is set, S is
3 lower, A, X, Y and the other flags are kept, nothing is stored, the reset is consumed and a latched NMI is dropped;
with the DMC idle it takes 7 cycles (R602, R314, R322; decision D9). That S ends 3 lower is the spec's decision D5. -/
def Obligations.ResetTaken : Prop :=
  ∀ s : State, s.resetPending = true → ∃ t pc, step s = .next t
    ∧ t.cpu = { s.cpu with s := s.cpu.s - 3, i := true, pc := pc }
    ∧ (Plain 0xFFFC s → Plain 0xFFFD s → pc = word (peek 0xFFFD s) (peek 0xFFFC s))
    ∧ NothingStored { s with resetPending := false, nmiLatch := false } t
    ∧ t.resetPending = false
    ∧ (bit s.ppu.ctrl 7 = false → t.nmiLatch = false)
    ∧ (DmcIdle s → t.cyc = s.cyc + 7)

/-- The whole machine before its first reset sequence, for every choice of what the spec leaves to `PowerOn` (R600, R20 to
R63, R96): the registers, flags and memories of the record, reset pending, no NMI, cycle 0, the bus latch 0 (decision
D14), every register, latch and flag of the PPU 0 at position (0, 0) with secondary OAM $FF, the APU 0 but for the noise
register, the DMC's rate, its empty buffer, its silence and its 8 bits (decisions D23 and D28), the controllers 0, the
cartridge's board and mapper as given. The model's own: `sample` 0 (notes/assumptions/14.md), the host's controller bytes
as fields, 0 (notes/assumptions/17.md), the empty list of samples (notes/assumptions/18.md), the mapper and its lists of
numbers (notes/assumptions/5.md), CHR-RAM from the record (notes/assumptions/20.md). -/
def Obligations.PowerOnState : Prop :=
  ∀ (p : PowerOn) (c : Cartridge) (ps : Params),
    let s := State.powerOn p c ps
    let env : Envelope := { start := false, divider := 0, decay := 0, loop := false, constVol := false, vol := 0 }
    let pulse : Pulse :=
      { duty := 0, seqPos := 0, timerPeriod := 0, timer := 0, length := 0, enabled := false, env := env,
        sweep := { enable := false, period := 0, negate := false, shift := 0, divider := 0, reload := false } }
    s.cpu = { a := p.a, x := p.x, y := p.y, s := p.s, pc := p.pc, n := p.n, v := p.v, d := p.d, i := p.i, z := p.z,
              c := p.c }
    ∧ s.resetPending = true ∧ s.nmiLatch = false ∧ s.nmiLinePrev = false ∧ s.cyc = 0 ∧ s.busLatch = 0
    ∧ s.ram = p.ram ∧ s.audio = [] ∧ s.params = ps
    ∧ s.pads = { shift0 := 0, shift1 := 0, strobe := false, pad0 := 0, pad1 := 0 }
    ∧ s.ppu = { oam := p.oam, oam2 := s.ppu.oam2, palette := p.palette, vram := p.vram, v := 0, t := 0, fineX := 0,
                w := false, ctrl := 0, mask := 0, vblank := false, spr0Hit := false, sprOverflow := false, oamaddr := 0,
                readBuffer := 0,
                bg := { patLo := 0, patHi := 0, atLo := 0, atHi := 0, atLatchLo := false, atLatchHi := false,
                        ntByte := 0, atBits := 0, patLoLatch := 0, patHiLatch := 0 },
                units := List.replicate 8 { patLo := 0, patHi := 0, attr := 0, x := 0 },
                sprCount := 0, spr0OnLine := false, sprCountNext := 0, spr0Next := false,
                ev := { n := 0, m := 0, k := 0, byte := 0, mode := .scan },
                scanline := 0, dot := 0, oddFrame := false, suppressVbl := false, framebuffer := p.framebuffer,
                frameDone := false }
    ∧ (∀ k, k < 32 → s.ppu.oam2.get k = 0xFF)
    ∧ s.apu = { pulse1 := pulse, pulse2 := pulse,
                tri := { timerPeriod := 0, timer := 0, length := 0, control := false, linearReloadValue := 0,
                         linear := 0, linearReload := false, seqPos := 0, enabled := false },
                noise := { period := 0, timer := 0, length := 0, env := env, lfsr := 1, mode := false,
                           enabled := false },
                dmc := { irqEnable := false, loop := false, period := 428, timer := 0, level := 0, sampleAddr := 0,
                         sampleLen := 0, curAddr := 0, bytesRemaining := 0, buffer := 0, bufferEmpty := true,
                         shift := 0, bitsRemaining := 8, silence := true, irq := false, stallRequest := false },
                fcMode := false, fcIrqInhibit := false, fcCycle := 0, parity := false, sample := 0, frameIrq := false }
    ∧ s.cart.toBoard = c.toBoard ∧ s.cart.mapper = c.mapper
    ∧ s.cart.chr = (if c.chrRam then p.chrRam else c.chr)
    ∧ (c.mapper = 0 → s.cart.regs = [] ∧ s.cart.observer = [])

/-- The NMI edge detector and the cycles it looks in: the latch is set when the PPU's output is 1 and was 0 at the last
look, is never cleared by a look, and the output is remembered. It looks after every dot, and at the end of every read
cycle and every write cycle after the access and before the DMC takes its cycles, with the devices ticked before or
after the access as TICK_BEFORE_ACCESS says; the access puts its byte on the bus. So every cycle ends with the output
remembered as it is, a write of $2000 included, and with a latched NMI still latched (R312, R313, R73 to R75; decisions
D10 and D2). The model's own: in a write cycle with TICK_BEFORE_ACCESS false, of which R73 is silent, the devices tick
after the access (notes/assumptions/9.md), and a dot tells the mapper the addresses of `dotBusAddrs`
(notes/assumptions/11.md). -/
def Obligations.EdgeDetected : Prop :=
  ∀ s : State,
    nmiEdgeDetect s =
      { s with nmiLatch := s.nmiLatch || (s.ppu.vblank && bit s.ppu.ctrl 7 && !s.nmiLinePrev),
               nmiLinePrev := s.ppu.vblank && bit s.ppu.ctrl 7 }
    ∧ ppuDot s = nmiEdgeDetect { s with cart := s.cart.observe s.cyc (dotBusAddrs s.ppu), ppu := ppuTick s.cart s.ppu }
    ∧ ∀ (a : Word) (v : Byte),
      (let u := if s.params.tickBeforeAccess then clockDevices s else s
       let w := { (readDecode a u).2 with busLatch := (readDecode a u).1 }
       memRead a s = ((readDecode a u).1,
         serviceDmcStall (nmiEdgeDetect (if s.params.tickBeforeAccess then w else clockDevices w))))
      ∧ (let u := if s.params.tickBeforeAccess then clockDevices s else s
         let w := writeDecode a v { u with busLatch := v }
         writeCycle a v s = serviceDmcStall (nmiEdgeDetect (if s.params.tickBeforeAccess then w else clockDevices w)))
      ∧ (memRead a s).2.nmiLinePrev = nmiOut (memRead a s).2.ppu
      ∧ (memWrite a v s).nmiLinePrev = nmiOut (memWrite a v s).ppu
      ∧ (s.nmiLatch = true → (memRead a s).2.nmiLatch = true ∧ (memWrite a v s).nmiLatch = true)

/-! Invariants of the whole machine. -/

/-- The state after reset is good. -/
def Obligations.ResetIsGood : Prop := Inv State.reset

/-- Every step keeps a good state good: the memories stay in canonical form and in size, the PPU stays on the screen, the
sprite bookkeeping stays consistent, the noise register never becomes 0, the sample stays in [0, 1), the edge
detector has seen the line as it is. -/
def Obligations.StepKeepsInv : Prop :=
  ∀ s t : State, Inv s → step s = .next t → Inv t

/-- No instruction changes the program image, the wiring and the mapper of the cartridge, the parameters, the host's
controller bytes or a pending reset, none cancels a latched NMI, none turns the cycle counter back, and every cycle
adds one sample to the APU's output (R327, R34, R561, R601). -/
def Obligations.NeverChangedByInstruction : Prop :=
  ∀ (i : Instr) (s : State), ∃ t, exec i s = .next t ∧ NeverChanged s t

/-! The bus (spec/20_memory.md). -/

/-- The four images of RAM are one: below $2000 a read returns the byte of `a & 0x07FF` with no side effect, a write
stores there and changes nothing else, and a read cycle at `a` is a read cycle at `a mod 0x800` (R77). -/
def Obligations.RamMirrored : Prop :=
  ∀ (a : Word) (v : Byte) (s : State), a.toNat < 0x2000 →
    readDecode a s = (s.ram.get (a &&& 0x07FF).toNat, s)
    ∧ writeDecode a v s = { s with ram := s.ram.set (a &&& 0x07FF).toNat v }
    ∧ memRead a s = memRead (BitVec.ofNat 16 (a.toNat % 0x800)) s

/-- A read that no device answers returns the last byte on the bus and changes nothing: $4000 to $4014, $4018 to $401F, the
write-only registers of the PPU, and the cartridge where its mapper drives nothing. From $4020 up a read is the
mapper's `cpu_read` and a write its `cpu_write`; mapper 0 drives its PRG from $8000 up and nothing below, ignores writes
and asserts no IRQ (R79, R80, R82, R84, R85; decision D13). -/
def Obligations.OpenBus : Prop :=
  ∀ (a : Word) (v : Byte) (s : State),
    (((0x4000 ≤ a.toNat ∧ a.toNat ≤ 0x4014) ∨ (0x4018 ≤ a.toNat ∧ a.toNat < 0x4020)
        ∨ (0x4020 ≤ a.toNat ∧ s.cart.cpuRead a = none)
        ∨ IsPpuReg 0 a ∨ IsPpuReg 1 a ∨ IsPpuReg 3 a ∨ IsPpuReg 5 a ∨ IsPpuReg 6 a) →
      readAccess a s = (s.busLatch, s))
    ∧ (0x4020 ≤ a.toNat →
        (∀ b, s.cart.cpuRead a = some b → readAccess a s = (b, { s with busLatch := b }))
        ∧ writeDecode a v s = { s with cart := s.cart.cpuWrite a v })
    ∧ (s.cart.mapper = 0 →
        s.cart.cpuRead a = (if 0x8000 ≤ a.toNat then
            some (s.cart.prg.get (if s.cart.prg32 then a.toNat - 0x8000 else (a.toNat - 0x8000) % 0x4000)) else none)
        ∧ s.cart.cpuWrite a v = s.cart ∧ s.cart.irq = false)

/-- OAM DMA: a write of `h` to $4014, rendering off and the DMC idle, copies the 256 bytes of page `h` into OAM from
OAMADDR on, leaves OAMADDR where it was, and takes 513 cycles after its own, 514 from an odd cycle (R90; decision
D11). -/
def Obligations.OamDmaCopies : Prop :=
  ∀ (h : Byte) (s : State), DmcIdle s → rendering s.ppu = false → Memory.wf 256 s.ppu.oam = true →
    (∀ i : Byte, Plain (word h i) s) →
    let t := memWrite 0x4014 h s
    (∀ i : Byte, t.ppu.oam.get (s.ppu.oamaddr + i).toNat = peek (word h i) s)
    ∧ t.ppu.oamaddr = s.ppu.oamaddr
    ∧ t.cyc = s.cyc + 1 + (if (s.cyc + 1) % 2 = 1 then 514 else 513)

/-- A pending request of the DMC steals four cycles at the end of the access, puts the byte the cartridge drives at its
address on the bus, or leaves the bus as it is where it drives none, puts that byte into the sample buffer if bytes are
left to fetch, and stores nothing; with no request nothing happens (R92, R552, R553; decision D12). -/
def Obligations.DmcStall : Prop :=
  ∀ s : State,
    let t := serviceDmcStall s
    let b := (s.cart.cpuRead s.apu.dmc.curAddr).getD s.busLatch
    (s.apu.dmc.stallRequest = false → t = s)
    ∧ (s.apu.dmc.stallRequest = true →
        t.cyc = s.cyc + 4 ∧ t.apu.dmc.stallRequest = false ∧ t.cpu = s.cpu ∧ NothingStored s t ∧ t.busLatch = b
        ∧ (s.apu.dmc.bytesRemaining ≠ 0 → t.apu.dmc.buffer = b ∧ t.apu.dmc.bufferEmpty = false))

/-- The controllers: after $01 and $00 are written to $4016, the reads of each port return the eight buttons in order, the
least significant bit first, and 1 from the ninth read on; a CPU write of $4016 is that write, a CPU read of $4016 or
$4017 that read of port 0 or 1 (R96, R80; the 1s are decision D31). -/
def Obligations.ControllersSerial : Prop :=
  (∀ (bus : Byte) (c : Controllers) (n : Nat),
    let latched := padWrite 0 (padWrite 1 c)
    bit (padRead0 bus ((fun k => (padRead0 bus k).2)^[n] latched)).1 0 = (if n < 8 then bit c.pad0 n else true)
    ∧ bit (padRead1 bus ((fun k => (padRead1 bus k).2)^[n] latched)).1 0 = (if n < 8 then bit c.pad1 n else true))
  ∧ ∀ (v : Byte) (s : State),
    writeDecode 0x4016 v s = { s with pads := padWrite v s.pads }
    ∧ readDecode 0x4016 s = ((padRead0 s.busLatch s.pads).1, { s with pads := (padRead0 s.busLatch s.pads).2 })
    ∧ readDecode 0x4017 s = ((padRead1 s.busLatch s.pads).1, { s with pads := (padRead1 s.busLatch s.pads).2 })

/-! The PPU (spec/61_ppu.md). -/

/-- A read of $2002 or a mirror returns the vertical-blank, sprite-0-hit and overflow flags over the last bus byte's low
five bits, clears the vertical-blank flag and `w`, suppresses a flag that the next dot would set, and leaves
the other two flags (R405; the low bits are decision D14). -/
def Obligations.StatusRead : Prop :=
  ∀ (a : Word) (s : State), IsPpuReg 2 a →
    let r := readDecode a s
    bit r.1 7 = s.ppu.vblank ∧ bit r.1 6 = s.ppu.spr0Hit ∧ bit r.1 5 = s.ppu.sprOverflow
    ∧ (∀ k, k < 5 → bit r.1 k = bit s.busLatch k)
    ∧ r.2 = { s with ppu := { s.ppu with vblank := false, w := false,
                                         suppressVbl := s.ppu.suppressVbl || (s.ppu.scanline == 241 && s.ppu.dot == 1) } }

/-- Palette entries $3F10, $3F14, $3F18 and $3F1C are $3F00, $3F04, $3F08 and $3F0C, for reads and for writes, and the 32
entries repeat up to $3FFF (R424; the repetition is the spec's general knowledge). -/
def Obligations.PaletteMirrored : Prop :=
  ∀ (c : Cartridge) (p : Ppu),
    (∀ a : PpuAddr, 0x3F00 ≤ a.toNat → ppuMemRead c p a = ppuMemRead c p (0x3F00 ||| (a &&& 0x1F)))
    ∧ ∀ i ∈ ([0x00, 0x04, 0x08, 0x0C] : List PpuAddr),
        ppuMemRead c p (0x3F10 + i) = ppuMemRead c p (0x3F00 + i)
        ∧ ∀ v : Byte, ppuMemWrite c p (0x3F10 + i) v = ppuMemWrite c p (0x3F00 + i) v

/-- OAM and PPU memory through $2004 and $2007. A byte written to $2004 is in OAM at OAMADDR, which steps on, and every
other byte of OAM is kept; a read of $2004 returns the byte at OAMADDR and changes nothing. A byte written to $2007 is
read back from PPU memory at the address of `v` (CHR-RAM and nametables whole, the palette its low six bits, CHR-ROM not
at all), every other cell of PPU memory and all of OAM read as before, and `v` steps by 1 or 32. A read of $2007 below
the palette returns the read buffer and refills it with the byte at `v`; in the palette it returns the entry, through the
greyscale mask and under bits 7 and 6 of the bus, and refills the buffer with the nametable byte beneath; `v` steps and
nothing else of the PPU changes. A CPU access in $2000 to $3FFF reaches the register its low three bits name, and of the
cartridge changes besides that only what its mapper observes (R78, R402, R407, R410, R411, R420, R424, R425). Bits 7 and
6 from the bus are decision D14, the same behaviour while rendering decision D25, and which addresses the mapper
observes is the model's inference, notes/assumptions/11.md. -/
def Obligations.WriteThenRead : Prop :=
  (∀ (c : Cartridge) (p : Ppu) (v : Byte), PpuInv p → CartInv c →
    (let q := (ppuRegWrite c 4 v p).2
     q.oam.get p.oamaddr.toNat = v ∧ q.oamaddr = p.oamaddr + 1
     ∧ ∀ k, k ≠ p.oamaddr.toNat → q.oam.get k = p.oam.get k)
    ∧ (let r := ppuRegWrite c 7 v p
       let a := vAddr p
       (a.toNat < 0x2000 → c.chrRam = true → ppuMemRead r.1 r.2 a = v)
       ∧ (a.toNat < 0x2000 → c.chrRam = false → r.1 = c)
       ∧ (0x2000 ≤ a.toNat → a.toNat < 0x3F00 → ppuMemRead r.1 r.2 a = v)
       ∧ (0x3F00 ≤ a.toNat → ppuMemRead r.1 r.2 a = v &&& 0x3F)
       ∧ (∀ b : PpuAddr, ppuCell c b ≠ ppuCell c a → ppuMemRead r.1 r.2 b = ppuMemRead c p b)
       ∧ r.2.v = p.v + (if bit p.ctrl 2 then 32 else 1)
       ∧ r.2.readBuffer = p.readBuffer
       ∧ r.2.oam = p.oam))
  ∧ (∀ (c : Cartridge) (p : Ppu) (bus : Byte),
    ppuRegRead c bus 4 p = (p.oam.get p.oamaddr.toNat, p)
    ∧ (let r := ppuRegRead c bus 7 p
       let a := vAddr p
       (a.toNat < 0x3F00 → r.1 = p.readBuffer ∧ r.2.readBuffer = ppuMemRead c p a)
       ∧ (0x3F00 ≤ a.toNat →
           field r.1 0 6 = p.palette.get (palIndex a) &&& (if bit p.mask 0 then 0x30 else 0x3F)
           ∧ field r.1 6 2 = field bus 6 2
           ∧ r.2.readBuffer = p.vram.get (ntIndex c.mirror (a - 0x1000)))
       ∧ r.2 = { p with readBuffer := r.2.readBuffer, v := p.v + (if bit p.ctrl 2 then 32 else 1) }))
  ∧ ∀ (a : Word) (v : Byte) (s : State), 0x2000 ≤ a.toNat → a.toNat < 0x4000 →
    (let r := ppuRegRead s.cart s.busLatch (a.toNat % 8) s.ppu
     (readDecode a s).1 = r.1
     ∧ (readDecode a s).2 = { s with cart := (readDecode a s).2.cart, ppu := r.2 }
     ∧ (readDecode a s).2.cart.unobserved = s.cart.unobserved)
    ∧ (let r := ppuRegWrite s.cart (a.toNat % 8) v s.ppu
       writeDecode a v s = { s with cart := (writeDecode a v s).cart, ppu := r.2 }
       ∧ (writeDecode a v s).cart.unobserved = r.1.unobserved)

/-- A frame has 262 lines of 341 dots: from the start of the pre-render line the PPU is back at it after 89342 dots, or
89341 on an odd frame with the background enabled, and not before, with the frame's parity flipped (R431,
R432; decisions D18, D19). -/
def Obligations.FrameLength : Prop :=
  ∀ (c : Cartridge) (p : Ppu), p.scanline = -1 → p.dot = 0 →
    let frame := if p.oddFrame = true ∧ bgEn p = true then 89341 else 89342
    let at_ := fun n : Nat => (ppuTick c)^[n] p
    (at_ frame).scanline = -1 ∧ (at_ frame).dot = 0 ∧ (at_ frame).oddFrame = !p.oddFrame
    ∧ ∀ n, 0 < n → n < frame → ¬ ((at_ n).scanline = -1 ∧ (at_ n).dot = 0)

/-- The vertical-blank flag is set by the dot (241, 1) unless suppressed, the suppression and the frame end there, the NMI
line follows the flag where it is enabled, the dot (-1, 1) clears the three status flags, and no other dot, no register
write and no register read but that of $2002 changes the vertical-blank flag (R460). That the line is a level that
follows the flag is decision D10 (R461), that the frame ends at (241, 1) decision D17 (R462), the suppression decision
D24 (R405). -/
def Obligations.VblankTiming : Prop :=
  ∀ (c : Cartridge) (p : Ppu),
    let q := ppuTick c p
    (p.scanline = 241 → p.dot = 1 →
      q.vblank = (p.vblank || !p.suppressVbl) ∧ q.suppressVbl = false ∧ q.frameDone = true
      ∧ nmiOut q = (q.vblank && bit p.ctrl 7))
    ∧ (p.scanline = -1 → p.dot = 1 → q.vblank = false ∧ q.spr0Hit = false ∧ q.sprOverflow = false)
    ∧ (p.dot ≠ 1 ∨ (p.scanline ≠ 241 ∧ p.scanline ≠ -1) → q.vblank = p.vblank)
    ∧ (∀ (r : Nat) (v : Byte), (ppuRegWrite c r v p).2.vblank = p.vblank)
    ∧ (∀ (r : Nat) (bus : Byte), r ≠ 2 → (ppuRegRead c bus r p).2.vblank = p.vblank)

/-- The scroll and address latches from `w` = 0: two writes of $2006 set `v` to the 14-bit address, two writes of $2005 set
fine X and the scroll fields of `t` and leave `v` (R408, R409; the layout is the spec's general knowledge). -/
def Obligations.ScrollAndAddress : Prop :=
  ∀ (c : Cartridge) (p : Ppu) (x y : Byte), p.w = false →
    (let q := (ppuRegWrite c 6 y (ppuRegWrite c 6 x p).2).2
     q.v.toNat = x.toNat % 64 * 256 + y.toNat ∧ q.t = q.v ∧ q.w = false ∧ q.fineX = p.fineX)
    ∧ (let q := (ppuRegWrite c 5 y (ppuRegWrite c 5 x p).2).2
       q.fineX.toNat = x.toNat % 8 ∧ (field q.t 0 5).toNat = x.toNat / 8 ∧ (field q.t 12 3).toNat = y.toNat % 8
       ∧ (field q.t 5 5).toNat = y.toNat / 8 ∧ field q.t 10 2 = field p.t 10 2 ∧ q.v = p.v ∧ q.w = false)

/-! The APU (spec/62_apu.md). -/

/-- In four-step mode with the interrupt enabled the frame counter counts the cycles of its period of 29830 and asserts
its interrupt once, in cycle 29829 of it (R502, R506; decision D27). -/
def Obligations.FrameCounterPeriod : Prop :=
  ∀ (a : Apu) (n : Nat), a.fcMode = false → a.fcIrqInhibit = false → a.fcCycle = 0 → a.frameIrq = false → n ≤ 29830 →
    let b := apuTick^[n] a
    b.fcCycle.toNat = n % 29830 ∧ b.frameIrq = decide (29829 ≤ n)

/-- Length counters: a half frame counts a counter down exactly when its halt flag is clear and it is not 0, a quarter
frame and the channels' timers do not; a tick is such a half frame exactly where it brings the frame counter to 14913,
or to 29829 in the four-step mode or 37281 in the five-step mode, and leaves the counters everywhere else; a write of
$4017 counts them down exactly when it selects the five-step mode; the fourth register loads a counter only while its
channel is enabled; disabling the channel through $4015 makes it 0; at 0 the channel is silent or, for the triangle,
holds its position (R511, R502, R504, R505, R507; which steps are half frames is the spec's general knowledge). -/
def Obligations.LengthCounters : Prop :=
  ∀ (a : Apu) (v : Byte),
    let down := fun (halt : Bool) (l : Byte) => BitVec.ofNat 8 (if halt then l.toNat else l.toNat - 1)
    let counted := fun b : Apu =>
      b.pulse1.length = down a.pulse1.env.loop a.pulse1.length ∧ b.pulse2.length = down a.pulse2.env.loop a.pulse2.length
      ∧ b.tri.length = down a.tri.control a.tri.length ∧ b.noise.length = down a.noise.env.loop a.noise.length
    let left := fun b : Apu =>
      b.pulse1.length = a.pulse1.length ∧ b.pulse2.length = a.pulse2.length ∧ b.tri.length = a.tri.length
      ∧ b.noise.length = a.noise.length
    let k := a.fcCycle.toNat + 1
    let half := k = 14913 ∨ (a.fcMode = false ∧ k = 29829) ∨ (a.fcMode = true ∧ k = 37281)
    counted (halfFrame a) ∧ left (quarterFrame a) ∧ left (timerClocks a)
    ∧ (half → counted (apuTick a)) ∧ (¬ half → left (apuTick a))
    ∧ (bit v 7 = true → counted (frameCounterWrite v a)) ∧ (bit v 7 = false → left (frameCounterWrite v a))
    ∧ (apuRegWrite 3 v a).pulse1.length = (if a.pulse1.enabled then lenOf v else a.pulse1.length)
    ∧ (apuRegWrite 7 v a).pulse2.length = (if a.pulse2.enabled then lenOf v else a.pulse2.length)
    ∧ (apuRegWrite 11 v a).tri.length = (if a.tri.enabled then lenOf v else a.tri.length)
    ∧ (apuRegWrite 15 v a).noise.length = (if a.noise.enabled then lenOf v else a.noise.length)
    ∧ (bit v 0 = false → (apuStatusWrite v a).pulse1.length = 0)
    ∧ (bit v 1 = false → (apuStatusWrite v a).pulse2.length = 0)
    ∧ (bit v 2 = false → (apuStatusWrite v a).tri.length = 0)
    ∧ (bit v 3 = false → (apuStatusWrite v a).noise.length = 0)
    ∧ (a.pulse1.length = 0 → pulseOut true a.pulse1 = 0) ∧ (a.pulse2.length = 0 → pulseOut false a.pulse2 = 0)
    ∧ (a.noise.length = 0 → noiseOut a.noise = 0)
    ∧ (a.tri.length = 0 → (triangleTimerClock a.tri).seqPos = a.tri.seqPos)

/-- A read of $4015 reports the two interrupt flags, bit 5 of the last bus byte, the DMC and the four length counters, and
clears the frame interrupt and nothing else of the APU; a write of it clears the DMC's interrupt and leaves the
frame interrupt. A CPU write of $4000 to $4013, $4015 or $4017 reaches the APU's register and nothing else (R80, R500,
R505, R507, R508; bit 5 is decision D14, the bit places the spec's general knowledge). -/
def Obligations.SoundStatus : Prop :=
  ∀ (s : State) (v : Byte),
    let r := readDecode 0x4015 s
    r.1.toNat = (if s.apu.dmc.irq then 128 else 0) + (if s.apu.frameIrq then 64 else 0)
      + (if bit s.busLatch 5 then 32 else 0) + (if s.apu.dmc.bytesRemaining = 0 then 0 else 16)
      + (if s.apu.noise.length = 0 then 0 else 8) + (if s.apu.tri.length = 0 then 0 else 4)
      + (if s.apu.pulse2.length = 0 then 0 else 2) + (if s.apu.pulse1.length = 0 then 0 else 1)
    ∧ r.2 = { s with apu := { s.apu with frameIrq := false } }
    ∧ (writeDecode 0x4015 v s).apu.dmc.irq = false
    ∧ (writeDecode 0x4015 v s).apu.frameIrq = s.apu.frameIrq
    ∧ (∀ a : Word, 0x4000 ≤ a.toNat → a.toNat < 0x4014 →
        writeDecode a v s = { s with apu := apuRegWrite (a.toNat - 0x4000) v s.apu })
    ∧ writeDecode 0x4015 v s = { s with apu := apuStatusWrite v s.apu }
    ∧ writeDecode 0x4017 v s = { s with apu := frameCounterWrite v s.apu }

/-- The DMC's output level moves by 2 per bit of the sample, up for 1 and down for 0, does not move when the step would
leave 0 to 127 or the channel is silent, and moves only when its timer runs out (R549). -/
def Obligations.DmcLevel : Prop :=
  ∀ d : Dmc,
    let e := dmcTimerClock d
    (d.timer ≠ 0 → e.level = d.level)
    ∧ (d.timer = 0 → e.timer = d.period - 1 ∧ e.level.toNat =
        (if d.silence then d.level.toNat
         else if bit d.shift 0 then (if d.level.toNat ≤ 125 then d.level.toNat + 2 else d.level.toNat)
         else (if 2 ≤ d.level.toNat then d.level.toNat - 2 else d.level.toNat)))
end

