-- ==== Sys2Proof/Laws/ApuKeep.lean ====
section
/-! SUPPORT. What a tick of the APU, a read of $4015 and a DMC fetch leave unchanged. -/

namespace Sys2Proof.Machine

theorem EnvelopeKept.refl (e : Envelope) : EnvelopeKept e e := ⟨rfl, rfl, rfl⟩

theorem EnvelopeKept.trans {e f g : Envelope} (h : EnvelopeKept e f) (k : EnvelopeKept f g) : EnvelopeKept e g :=
  ⟨k.loop.trans h.loop, k.constVol.trans h.constVol, k.vol.trans h.vol⟩

theorem PulseKept.refl (p : Pulse) : PulseKept p p := ⟨rfl, rfl, .refl _, rfl, rfl, rfl, rfl⟩

theorem PulseKept.trans {p q r : Pulse} (h : PulseKept p q) (k : PulseKept q r) : PulseKept p r :=
  ⟨k.duty.trans h.duty, k.enabled.trans h.enabled, h.env.trans k.env, k.sweepEnable.trans h.sweepEnable,
   k.sweepPeriod.trans h.sweepPeriod, k.sweepNegate.trans h.sweepNegate, k.sweepShift.trans h.sweepShift⟩

theorem ApuKept.refl (a : Apu) : ApuKept a a :=
  ⟨.refl _, .refl _, rfl, rfl, rfl, rfl, rfl, rfl, rfl, .refl _, rfl, rfl, rfl, rfl, rfl, rfl, rfl⟩

theorem ApuKept.trans {a b c : Apu} (h : ApuKept a b) (k : ApuKept b c) : ApuKept a c :=
  ⟨h.pulse1.trans k.pulse1, h.pulse2.trans k.pulse2, k.triPeriod.trans h.triPeriod, k.triControl.trans h.triControl,
   k.triReload.trans h.triReload, k.triEnabled.trans h.triEnabled, k.noisePeriod.trans h.noisePeriod,
   k.noiseMode.trans h.noiseMode, k.noiseEnabled.trans h.noiseEnabled, h.noiseEnv.trans k.noiseEnv,
   k.dmcIrqEnable.trans h.dmcIrqEnable, k.dmcLoop.trans h.dmcLoop, k.dmcPeriod.trans h.dmcPeriod,
   k.dmcAddr.trans h.dmcAddr, k.dmcLen.trans h.dmcLen, k.fcMode.trans h.fcMode, k.fcIrqInhibit.trans h.fcIrqInhibit⟩

theorem envelopeClock_kept (e : Envelope) : EnvelopeKept e (envelopeClock e) := by
  unfold envelopeClock
  split_ifs <;> exact ⟨rfl, rfl, rfl⟩

theorem quarterFrame_kept (a : Apu) : ApuKept a (quarterFrame a) :=
  ⟨⟨rfl, rfl, envelopeClock_kept _, rfl, rfl, rfl, rfl⟩, ⟨rfl, rfl, envelopeClock_kept _, rfl, rfl, rfl, rfl⟩,
   rfl, rfl, rfl, rfl, rfl, rfl, rfl, envelopeClock_kept _, rfl, rfl, rfl, rfl, rfl, rfl, rfl⟩

theorem sweepClock_kept (one : Bool) (p : Pulse) : PulseKept p (sweepClock one p) := by
  unfold sweepClock
  simp only
  split_ifs <;> exact ⟨rfl, rfl, .refl _, rfl, rfl, rfl, rfl⟩

theorem lengthClocks_kept (a : Apu) : ApuKept a (lengthClocks a) :=
  ⟨⟨rfl, rfl, .refl _, rfl, rfl, rfl, rfl⟩, ⟨rfl, rfl, .refl _, rfl, rfl, rfl, rfl⟩, rfl, rfl, rfl, rfl, rfl, rfl, rfl,
   .refl _, rfl, rfl, rfl, rfl, rfl, rfl, rfl⟩

theorem halfFrame_kept (a : Apu) : ApuKept a (halfFrame a) :=
  (lengthClocks_kept a).trans
    ⟨sweepClock_kept true _, sweepClock_kept false _, rfl, rfl, rfl, rfl, rfl, rfl, rfl, .refl _, rfl, rfl, rfl, rfl,
     rfl, rfl, rfl⟩

/-- A change of the counters and flags that are no register of the kept set. -/
theorem counters_kept (a : Apu) (k : Word) (p f : Bool) (x : Rat) :
    ApuKept a { a with fcCycle := k, parity := p, frameIrq := f, sample := x } :=
  ⟨.refl _, .refl _, rfl, rfl, rfl, rfl, rfl, rfl, rfl, .refl _, rfl, rfl, rfl, rfl, rfl, rfl, rfl⟩

theorem frameCounterStep_kept (a : Apu) : ApuKept a (frameCounterStep a) := by
  have hb : ∀ k, ApuKept a { a with fcCycle := k } := fun k => counters_kept a k a.parity a.frameIrq a.sample
  unfold frameCounterStep
  simp only
  split_ifs
  · exact (hb _).trans (quarterFrame_kept _)
  · exact (hb _).trans ((quarterFrame_kept _).trans (halfFrame_kept _))
  · exact (hb _).trans (quarterFrame_kept _)
  · exact (hb _).trans ((quarterFrame_kept _).trans (halfFrame_kept _))
  · exact hb _
  · exact hb _
  · exact ((hb (a.fcCycle + 1)).trans ((quarterFrame_kept _).trans (halfFrame_kept _))).trans
      (counters_kept _ _ _ _ _)
  · exact hb _
  · exact hb _

theorem pulseTimerClock_kept (p : Pulse) : PulseKept p (pulseTimerClock p) := by
  unfold pulseTimerClock
  split <;> exact ⟨rfl, rfl, .refl _, rfl, rfl, rfl, rfl⟩

/-- What a clock or a fetch of the DMC leaves. -/
structure DmcKept (d e : Dmc) : Prop where
  irqEnable : e.irqEnable = d.irqEnable
  loop : e.loop = d.loop
  period : e.period = d.period
  addr : e.sampleAddr = d.sampleAddr
  len : e.sampleLen = d.sampleLen

theorem dmcTimerClock_kept (d : Dmc) : DmcKept d (dmcTimerClock d) := by
  unfold dmcTimerClock
  simp only
  split_ifs <;> exact ⟨rfl, rfl, rfl, rfl, rfl⟩

theorem dmcLoadSample_kept (b : Byte) (d : Dmc) : DmcKept d (dmcLoadSample b d) := by
  unfold dmcLoadSample
  simp only
  split_ifs <;> exact ⟨rfl, rfl, rfl, rfl, rfl⟩

theorem triangleTimerClock_kept (t : Triangle) :
    (triangleTimerClock t).timerPeriod = t.timerPeriod ∧ (triangleTimerClock t).control = t.control
    ∧ (triangleTimerClock t).linearReloadValue = t.linearReloadValue ∧ (triangleTimerClock t).enabled = t.enabled
    ∧ (triangleTimerClock t).length = t.length := by
  unfold triangleTimerClock
  split <;> exact ⟨rfl, rfl, rfl, rfl, rfl⟩

theorem noiseTimerClock_kept (n : Noise) :
    (noiseTimerClock n).period = n.period ∧ (noiseTimerClock n).mode = n.mode
    ∧ (noiseTimerClock n).enabled = n.enabled ∧ (noiseTimerClock n).env = n.env
    ∧ (noiseTimerClock n).length = n.length := by
  unfold noiseTimerClock
  split <;> exact ⟨rfl, rfl, rfl, rfl, rfl⟩

theorem withDmc_kept (a : Apu) (d : Dmc) (h : DmcKept a.dmc d) : ApuKept a { a with dmc := d } :=
  ⟨.refl _, .refl _, rfl, rfl, rfl, rfl, rfl, rfl, rfl, .refl _, h.irqEnable, h.loop, h.period, h.addr, h.len, rfl, rfl⟩

theorem timerClocks_kept (a : Apu) : ApuKept a (timerClocks a) := by
  have ht := triangleTimerClock_kept a.tri
  have hn := noiseTimerClock_kept a.noise
  have hd := dmcTimerClock_kept a.dmc
  unfold timerClocks
  simp only
  split
  · exact ⟨pulseTimerClock_kept _, pulseTimerClock_kept _, ht.1, ht.2.1, ht.2.2.1, ht.2.2.2.1, hn.1, hn.2.1, hn.2.2.1,
      hn.2.2.2.1 ▸ .refl _, hd.irqEnable, hd.loop, hd.period, hd.addr, hd.len, rfl, rfl⟩
  · exact ⟨.refl _, .refl _, ht.1, ht.2.1, ht.2.2.1, ht.2.2.2.1, rfl, rfl, rfl, .refl _, hd.irqEnable, hd.loop,
      hd.period, hd.addr, hd.len, rfl, rfl⟩

/-- A tick leaves the APU registers that only a write changes. -/
theorem apuTick_kept (a : Apu) : ApuKept a (apuTick a) := by
  have h1 : ApuKept a (timerClocks (frameCounterStep { a with parity := !a.parity })) :=
    ((counters_kept a a.fcCycle (!a.parity) a.frameIrq a.sample).trans (frameCounterStep_kept _)).trans
      (timerClocks_kept _)
  unfold apuTick
  generalize timerClocks (frameCounterStep { a with parity := !a.parity }) = b at h1
  exact h1.trans ⟨.refl _, .refl _, rfl, rfl, rfl, rfl, rfl, rfl, rfl, .refl _, rfl, rfl, rfl, rfl, rfl, rfl, rfl⟩

/-- A read of $4015 leaves them too. -/
theorem apuStatusRead_kept (bus : Byte) (a : Apu) : ApuKept a (apuStatusRead bus a).2 :=
  counters_kept a a.fcCycle a.parity false a.sample

end Sys2Proof.Machine
end

