-- ==== Sys2Proof/Laws/ApuInv.lean ====
section
/-! SUPPORT. A tick of the APU, an access to its registers and a DMC fetch keep `ApuInv`. -/

namespace Sys2Proof.Machine

/-! The mixer (R560): the sample lies in [0, 1). -/

theorem envelopeVolume_le (e : Envelope) : envelopeVolume e ≤ 15 := by
  have h1 := e.vol.isLt
  have h2 := e.decay.isLt
  unfold envelopeVolume
  split <;> omega

theorem pulseOut_le (one : Bool) (p : Pulse) : pulseOut one p ≤ 15 := by
  have := envelopeVolume_le p.env
  unfold pulseOut
  split <;> omega

theorem noiseOut_le (n : Noise) : noiseOut n ≤ 15 := by
  have := envelopeVolume_le n.env
  unfold noiseOut
  split <;> omega

theorem triOut_le (t : Triangle) : triOut t ≤ 15 := by
  have h : ∀ k : BitVec 5, triTable.getD k.toNat 0 ≤ 15 := by decide
  exact h t.seqPos

theorem mixPulse_range (p : Nat) (h : p ≤ 30) : 0 ≤ mixPulse p ∧ mixPulse p ≤ 287640 / 1112800 := by
  unfold mixPulse
  split
  · norm_num
  · next hp =>
    have h1 : (0 : Rat) < p := by exact_mod_cast Nat.pos_of_ne_zero hp
    have h2 : (p : Rat) ≤ 30 := by exact_mod_cast h
    have h3 : (8128 : Rat) / 30 ≤ 8128 / p := div_le_div_of_nonneg_left (by norm_num) h1 h2
    have h4 : (0 : Rat) < 8128 / p + 100 := by positivity
    refine ⟨by positivity, ?_⟩
    rw [div_le_iff₀ h4]
    linarith

theorem mixTnd_range (t n d : Nat) (ht : t ≤ 15) (hn : n ≤ 15) (hd : d ≤ 127) :
    0 ≤ mixTnd t n d ∧ mixTnd t n d < 7415165 / 10000000 := by
  have h1 : (t : Rat) ≤ 15 := by exact_mod_cast ht
  have h2 : (n : Rat) ≤ 15 := by exact_mod_cast hn
  have h3 : (d : Rat) ≤ 127 := by exact_mod_cast hd
  have p1 : (0 : Rat) ≤ t := Nat.cast_nonneg t
  have p2 : (0 : Rat) ≤ n := Nat.cast_nonneg n
  have p3 : (0 : Rat) ≤ d := Nat.cast_nonneg d
  unfold mixTnd
  simp only
  generalize hq : (t : Rat) / 8227 + (n : Rat) / 12241 + (d : Rat) / 22638 = q
  have q0 : 0 ≤ q := by rw [← hq]; positivity
  have q1 : q ≤ 15 / 8227 + 15 / 12241 + 127 / 22638 := by rw [← hq]; linarith
  split
  · norm_num
  · next hne =>
    have qp : 0 < q := lt_of_le_of_ne q0 (Ne.symm hne)
    have h4 : (1 : Rat) / (15 / 8227 + 15 / 12241 + 127 / 22638) ≤ 1 / q :=
      div_le_div_of_nonneg_left (by norm_num) qp q1
    have h5 : (0 : Rat) < 1 / q + 100 := by positivity
    refine ⟨by positivity, ?_⟩
    rw [div_lt_iff₀ h5]
    norm_num at h4
    norm_num
    linarith

/-- R560: 0 ≤ sample < 1. -/
theorem mix_range (a : Apu) : 0 ≤ mix a ∧ mix a < 1 := by
  have h1 := mixPulse_range (pulseOut true a.pulse1 + pulseOut false a.pulse2)
    (by have := pulseOut_le true a.pulse1; have := pulseOut_le false a.pulse2; omega)
  have h2 := mixTnd_range (triOut a.tri) (noiseOut a.noise) a.dmc.level.toNat (triOut_le _) (noiseOut_le _)
    (by have := a.dmc.level.isLt; omega)
  unfold mix
  constructor
  · linarith [h1.1, h2.1]
  · have := h1.2
    have := h2.2
    norm_num at *
    linarith

/-! The parts of `ApuInv`. -/

/-- R56, R537: the shift register never becomes 0. -/
theorem lfsrNext_ne_zero (mode : Bool) (l : BitVec 15) (h : l ≠ 0) : lfsrNext mode l ≠ 0 := by
  intro he
  unfold lfsrNext at he
  have hb : ∀ i : Nat, i < 15 → (l >>> 1 ||| ((bit1 (bit l 0 ^^ (if mode then bit l 6 else bit l 1))).setWidth 15 <<< 14)).getLsbD i = false := by
    intro i _
    rw [he]
    simp
  have h0 : bit l 0 = true ∨ bit l 0 = false := by cases bit l 0 <;> simp
  have hs : ∀ i : Nat, 1 ≤ i → i < 15 → l.getLsbD i = false := by
    intro i h1 h2
    have := hb (i - 1) (by omega)
    simp only [BitVec.getLsbD_or, Bool.or_eq_false_iff, BitVec.getLsbD_ushiftRight] at this
    have e : 1 + (i - 1) = i := by omega
    rw [e] at this
    exact this.1
  have h14 := hb 14 (by omega)
  simp only [BitVec.getLsbD_or, Bool.or_eq_false_iff] at h14
  have h6 : bit l 6 = false := hs 6 (by omega) (by omega)
  have h1 : bit l 1 = false := hs 1 (by omega) (by omega)
  have hfb : bit l 0 = false := by
    have := h14.2
    rw [h6, h1] at this
    cases h0v : bit l 0
    · rfl
    · rw [h0v] at this
      exfalso
      revert this
      cases mode <;> decide
  apply h
  apply BitVec.eq_of_getLsbD_eq
  intro i hi
  rcases Nat.eq_zero_or_pos i with hz | hp
  · subst hz
    simpa [bit] using hfb
  · simpa using hs i hp hi

/-- The parts of the DMC's state in `ApuInv`. -/
structure DmcInv (d : Dmc) : Prop where
  rate : d.period ∈ dmcRateTable
  bits : 1 ≤ d.bitsRemaining.toNat ∧ d.bitsRemaining.toNat ≤ 8
  sampleLen : d.sampleLen.toNat ≤ 4081
  remaining : d.bytesRemaining.toNat ≤ 4081

theorem dmcTimerClock_inv {d : Dmc} (h : DmcInv d) : DmcInv (dmcTimerClock d) := by
  unfold dmcTimerClock
  simp only
  obtain ⟨h1, h2⟩ := h.bits
  split_ifs with c1 c2 c3
  · exact ⟨h.rate, h.bits, h.sampleLen, h.remaining⟩
  · exact ⟨h.rate, ⟨Nat.le_add_left 1 7, Nat.le_refl 8⟩, h.sampleLen, h.remaining⟩
  · exact ⟨h.rate, ⟨Nat.le_add_left 1 7, Nat.le_refl 8⟩, h.sampleLen, h.remaining⟩
  · refine ⟨h.rate, ?_, h.sampleLen, h.remaining⟩
    have e : (d.bitsRemaining - 1).toNat = d.bitsRemaining.toNat - 1 := by
      have : (1 : BitVec 4) ≤ d.bitsRemaining := by
        rw [BitVec.le_def]
        exact h1
      rw [BitVec.toNat_sub_of_le this]
      rfl
    have e0 : (d.bitsRemaining - 1).toNat ≠ 0 := fun e0 => c2 (BitVec.eq_of_toNat_eq e0)
    show 1 ≤ (d.bitsRemaining - 1).toNat ∧ (d.bitsRemaining - 1).toNat ≤ 8
    omega

theorem dmcLoadSample_inv {d : Dmc} (b : Byte) (h : DmcInv d) : DmcInv (dmcLoadSample b d) := by
  have hr := h.remaining
  have hle : d.bytesRemaining ≠ 0 → (d.bytesRemaining - 1).toNat ≤ 4081 := by
    intro hne
    have : (1 : BitVec 12) ≤ d.bytesRemaining := by
      rw [BitVec.le_def]
      have : d.bytesRemaining.toNat ≠ 0 := fun e => hne (BitVec.eq_of_toNat_eq e)
      show 1 ≤ d.bytesRemaining.toNat
      omega
    rw [BitVec.toNat_sub_of_le this]
    have : (1 : BitVec 12).toNat = 1 := rfl
    omega
  unfold dmcLoadSample
  simp only
  split_ifs with c1 c2
  · exact h
  · exact ⟨h.rate, h.bits, h.sampleLen, h.sampleLen⟩
  all_goals exact ⟨h.rate, h.bits, h.sampleLen, hle c1⟩

theorem dmcWrite_inv {d : Dmc} (r : Nat) (v : Byte) (h : DmcInv d) : DmcInv (dmcWrite r v d) := by
  unfold dmcWrite
  split
  · refine ⟨?_, h.bits, h.sampleLen, h.remaining⟩
    have : ∀ k : BitVec 4, dmcRateTable.getD k.toNat 0 ∈ dmcRateTable := by decide
    exact this _
  · exact ⟨h.rate, h.bits, h.sampleLen, h.remaining⟩
  · exact ⟨h.rate, h.bits, h.sampleLen, h.remaining⟩
  · refine ⟨h.rate, h.bits, ?_, h.remaining⟩
    have : ∀ w : Byte, ((w.setWidth 12 <<< 4) + 1 : BitVec 12).toNat ≤ 4081 := by decide +kernel
    exact this v

theorem dmcStatusWrite_inv {d : Dmc} (on : Bool) (h : DmcInv d) : DmcInv (dmcStatusWrite on d) := by
  unfold dmcStatusWrite
  split_ifs
  · exact ⟨h.rate, h.bits, h.sampleLen, Nat.zero_le _⟩
  · exact ⟨h.rate, h.bits, h.sampleLen, h.sampleLen⟩
  · exact ⟨h.rate, h.bits, h.sampleLen, h.remaining⟩

/-- The parts of `ApuInv` the frame sequencer and the timers can change, but for the frame counter. -/
structure UnitsInv (a : Apu) : Prop where
  lfsr : a.noise.lfsr ≠ 0
  dmc : DmcInv a.dmc
  length1 : a.pulse1.length.toNat ≤ 254
  length2 : a.pulse2.length.toNat ≤ 254
  length3 : a.tri.length.toNat ≤ 254
  length4 : a.noise.length.toNat ≤ 254

theorem ApuInv.units {a : Apu} (h : ApuInv a) : UnitsInv a :=
  ⟨h.lfsr, ⟨h.rate, h.bits, h.sampleLen, h.remaining⟩, h.length1, h.length2, h.length3, h.length4⟩

/-- `ApuInv` from its parts. -/
theorem UnitsInv.apu {a : Apu} (h : UnitsInv a) (hf : a.fcCycle.toNat ≤ if a.fcMode then 37281 else 29829)
    (hs : 0 ≤ a.sample ∧ a.sample < 1) : ApuInv a :=
  ⟨hf, h.lfsr, h.dmc.rate, h.dmc.bits, h.dmc.sampleLen, h.dmc.remaining, h.length1, h.length2, h.length3, h.length4, hs⟩

theorem lengthClock_le (halt : Bool) (l : Byte) (h : l.toNat ≤ 254) : (lengthClock halt l).toNat ≤ 254 := by
  unfold lengthClock
  split
  · next hc =>
    have hne : l ≠ 0 := by
      intro e
      simp [e] at hc
    have h1 : (1 : Byte) ≤ l := by
      rw [BitVec.le_def]
      have : l.toNat ≠ 0 := fun e => hne (BitVec.eq_of_toNat_eq e)
      show 1 ≤ l.toNat
      omega
    rw [BitVec.toNat_sub_of_le h1]
    omega
  · exact h

theorem quarterFrame_units {a : Apu} (h : UnitsInv a) : UnitsInv (quarterFrame a) :=
  ⟨h.lfsr, h.dmc, h.length1, h.length2, h.length3, h.length4⟩

theorem sweepClock_length (one : Bool) (p : Pulse) : (sweepClock one p).length = p.length := rfl

theorem halfFrame_units {a : Apu} (h : UnitsInv a) : UnitsInv (halfFrame a) :=
  ⟨h.lfsr, h.dmc, lengthClock_le _ _ h.length1, lengthClock_le _ _ h.length2, lengthClock_le _ _ h.length3,
   lengthClock_le _ _ h.length4⟩

theorem frameCounterStep_units {a : Apu} (h : UnitsInv a) : UnitsInv (frameCounterStep a) := by
  have hb : UnitsInv { a with fcCycle := a.fcCycle + 1 } := ⟨h.lfsr, h.dmc, h.length1, h.length2, h.length3, h.length4⟩
  have h0 : UnitsInv { a with fcCycle := 0 } := ⟨h.lfsr, h.dmc, h.length1, h.length2, h.length3, h.length4⟩
  have hq := quarterFrame_units hb
  have hh := halfFrame_units hq
  unfold frameCounterStep
  simp only
  split_ifs
  · exact hq
  · exact hh
  · exact hq
  · exact hh
  · exact h0
  · exact hb
  · exact ⟨hh.lfsr, hh.dmc, hh.length1, hh.length2, hh.length3, hh.length4⟩
  · exact h0
  · exact hb

/-- The frame counter stands within its period (R502). -/
def FrameInv (a : Apu) : Prop := a.fcCycle.toNat ≤ if a.fcMode then 37281 else 29829

theorem frameCounterStep_frame {a : Apu} (h : FrameInv a) : FrameInv (frameCounterStep a) := by
  unfold FrameInv at h
  have hk : (a.fcCycle + 1).toNat ≤ a.fcCycle.toNat + 1 := by
    rw [BitVec.toNat_add]
    exact Nat.mod_le _ _
  have hne : ∀ n : Word, ¬ a.fcCycle + 1 = n → (a.fcCycle + 1).toNat ≠ n.toNat :=
    fun n hn e => hn (BitVec.eq_of_toNat_eq e)
  unfold frameCounterStep
  simp only
  split_ifs with c1 c2 c3 c4 c5 c6 c7 c8
  · show (a.fcCycle + 1).toNat ≤ if a.fcMode then 37281 else 29829
    rw [c1]
    split <;> decide
  · show (a.fcCycle + 1).toNat ≤ if a.fcMode then 37281 else 29829
    rw [c2]
    split <;> decide
  · show (a.fcCycle + 1).toNat ≤ if a.fcMode then 37281 else 29829
    rw [c3]
    split <;> decide
  · show (a.fcCycle + 1).toNat ≤ if a.fcMode then 37281 else 29829
    rw [c5, c4]
    decide
  · exact Nat.zero_le _
  · show (a.fcCycle + 1).toNat ≤ if a.fcMode then 37281 else 29829
    rw [c4] at h ⊢
    have := hne _ c6
    have e : (37282 : Word).toNat = 37282 := rfl
    simp only [if_true] at h ⊢
    omega
  · show (a.fcCycle + 1).toNat ≤ if a.fcMode then 37281 else 29829
    rw [c7]
    split <;> decide
  · exact Nat.zero_le _
  · show (a.fcCycle + 1).toNat ≤ if a.fcMode then 37281 else 29829
    rw [Bool.not_eq_true] at c4
    rw [c4] at h ⊢
    have := hne _ c8
    have e : (29830 : Word).toNat = 29830 := rfl
    simp only [Bool.false_eq_true, if_false] at h ⊢
    omega

theorem timerClocks_units {a : Apu} (h : UnitsInv a) : UnitsInv (timerClocks a) := by
  have ht : (triangleTimerClock a.tri).length = a.tri.length := (triangleTimerClock_kept a.tri).2.2.2.2
  have hn : (noiseTimerClock a.noise).length = a.noise.length := (noiseTimerClock_kept a.noise).2.2.2.2
  have hp : ∀ p : Pulse, (pulseTimerClock p).length = p.length := by
    intro p
    unfold pulseTimerClock
    split <;> rfl
  have hl : (noiseTimerClock a.noise).lfsr ≠ 0 := by
    unfold noiseTimerClock
    split
    · exact lfsrNext_ne_zero _ _ h.lfsr
    · exact h.lfsr
  unfold timerClocks
  simp only
  split
  · exact ⟨hl, dmcTimerClock_inv h.dmc, (hp _).symm ▸ h.length1, (hp _).symm ▸ h.length2, ht.symm ▸ h.length3,
      hn.symm ▸ h.length4⟩
  · exact ⟨h.lfsr, dmcTimerClock_inv h.dmc, h.length1, h.length2, ht.symm ▸ h.length3, h.length4⟩

theorem timerClocks_frame (a : Apu) :
    (timerClocks a).fcCycle = a.fcCycle ∧ (timerClocks a).fcMode = a.fcMode := by
  unfold timerClocks
  simp only
  split <;> exact ⟨rfl, rfl⟩

/-- A tick keeps `ApuInv`. -/
theorem apuTick_inv {a : Apu} (h : ApuInv a) : ApuInv (apuTick a) := by
  have hu : UnitsInv { a with parity := !a.parity } :=
    ⟨h.lfsr, h.units.dmc, h.length1, h.length2, h.length3, h.length4⟩
  have hf : ({ a with parity := !a.parity } : Apu).fcCycle.toNat ≤
      if ({ a with parity := !a.parity } : Apu).fcMode then 37281 else 29829 := h.frame
  have h1 := timerClocks_units (frameCounterStep_units hu)
  have h2 := frameCounterStep_frame hf
  obtain ⟨e1, e2⟩ := timerClocks_frame (frameCounterStep { a with parity := !a.parity })
  unfold FrameInv at h2
  rw [← e1, ← e2] at h2
  unfold apuTick
  generalize timerClocks (frameCounterStep { a with parity := !a.parity }) = b at h1 h2
  exact UnitsInv.apu
    ⟨h1.lfsr, ⟨h1.dmc.rate, h1.dmc.bits, h1.dmc.sampleLen, h1.dmc.remaining⟩, h1.length1, h1.length2, h1.length3,
     h1.length4⟩ h2 (mix_range _)

theorem lenOf_le (v : Byte) : (lenOf v).toNat ≤ 254 := by
  have : ∀ k : BitVec 5, (lenTable.getD k.toNat 0).toNat ≤ 254 := by decide
  exact this _

theorem apuRegWrite_inv {a : Apu} (r : Nat) (v : Byte) (h : ApuInv a) : ApuInv (apuRegWrite r v a) := by
  have hl : ∀ (b : Bool) (l : Byte), l.toNat ≤ 254 → (if b then lenOf v else l).toNat ≤ 254 := by
    intro b l hl
    split
    · exact lenOf_le v
    · exact hl
  have hp : ∀ (k : Nat) (p : Pulse), p.length.toNat ≤ 254 → (pulseWrite k v p).length.toNat ≤ 254 := by
    intro k p hp
    unfold pulseWrite
    split
    · exact hp
    · exact hp
    · exact hp
    · exact hl _ _ hp
  have ht : ∀ (k : Nat) (t : Triangle), t.length.toNat ≤ 254 → (triWrite k v t).length.toNat ≤ 254 := by
    intro k t ht
    unfold triWrite
    split
    · exact ht
    · exact ht
    · exact ht
    · exact hl _ _ ht
  have hn : ∀ (k : Nat) (n : Noise), n.length.toNat ≤ 254 → (noiseWrite k v n).length.toNat ≤ 254 := by
    intro k n hn
    unfold noiseWrite
    split
    · exact hn
    · exact hn
    · exact hn
    · exact hl _ _ hn
  have hx : ∀ (k : Nat) (n : Noise), (noiseWrite k v n).lfsr = n.lfsr := by
    intro k n
    unfold noiseWrite
    split <;> rfl
  unfold apuRegWrite
  split
  · exact UnitsInv.apu ⟨h.lfsr, h.units.dmc, hp _ _ h.length1, h.length2, h.length3, h.length4⟩ h.frame h.sample
  · exact UnitsInv.apu ⟨h.lfsr, h.units.dmc, h.length1, hp _ _ h.length2, h.length3, h.length4⟩ h.frame h.sample
  · exact UnitsInv.apu ⟨h.lfsr, h.units.dmc, h.length1, h.length2, ht _ _ h.length3, h.length4⟩ h.frame h.sample
  · exact UnitsInv.apu ⟨(hx _ _).symm ▸ h.lfsr, h.units.dmc, h.length1, h.length2, h.length3, hn _ _ h.length4⟩ h.frame
      h.sample
  · exact UnitsInv.apu ⟨h.lfsr, dmcWrite_inv _ v h.units.dmc, h.length1, h.length2, h.length3, h.length4⟩ h.frame h.sample
  · exact h

theorem apuStatusWrite_inv {a : Apu} (v : Byte) (h : ApuInv a) : ApuInv (apuStatusWrite v a) := by
  have hl : ∀ (b : Bool) (l : Byte), l.toNat ≤ 254 → (if b then l else 0).toNat ≤ 254 := by
    intro b l hl
    split
    · exact hl
    · exact Nat.zero_le _
  exact UnitsInv.apu
    ⟨h.lfsr, dmcStatusWrite_inv _ h.units.dmc, hl _ _ h.length1, hl _ _ h.length2, hl _ _ h.length3, hl _ _ h.length4⟩
    h.frame h.sample

theorem frameCounterWrite_inv {a : Apu} (v : Byte) (h : ApuInv a) : ApuInv (frameCounterWrite v a) := by
  have hb : UnitsInv { a with fcMode := bit v 7, fcIrqInhibit := bit v 6, fcCycle := 0,
                              frameIrq := a.frameIrq && !bit v 6 } :=
    ⟨h.lfsr, h.units.dmc, h.length1, h.length2, h.length3, h.length4⟩
  unfold frameCounterWrite
  simp only
  split
  · exact UnitsInv.apu (halfFrame_units (quarterFrame_units hb)) (Nat.zero_le _) h.sample
  · exact UnitsInv.apu hb (Nat.zero_le _) h.sample

theorem apuStatusRead_inv {a : Apu} (bus : Byte) (h : ApuInv a) : ApuInv (apuStatusRead bus a).2 :=
  UnitsInv.apu ⟨h.lfsr, h.units.dmc, h.length1, h.length2, h.length3, h.length4⟩ h.frame h.sample

end Sys2Proof.Machine
end

