-- ==== Sys2Proof/Laws/Cart.lean ====
section
/-! SUPPORT. The cartridge: what a read of it depends on, what observing the PPU's bus and a CPU write leave, and mapper 0,
which has nothing to change. -/

namespace Sys2Proof.Machine

/-! Everything but `irq` reads the cartridge without what the mapper has observed. -/

@[simp] theorem Cartridge.unobserved_toBoard (c : Cartridge) : c.unobserved.toBoard = c.toBoard := rfl
@[simp] theorem Cartridge.unobserved_chr (c : Cartridge) : c.unobserved.chr = c.chr := rfl
@[simp] theorem Cartridge.unobserved_mapper (c : Cartridge) : c.unobserved.mapper = c.mapper := rfl
@[simp] theorem Cartridge.unobserved_regs (c : Cartridge) : c.unobserved.regs = c.regs := rfl
@[simp] theorem Cartridge.unobserved_cpuRead (c : Cartridge) (a : Word) : c.unobserved.cpuRead a = c.cpuRead a := rfl
@[simp] theorem Cartridge.unobserved_mirror (c : Cartridge) : c.unobserved.mirror = c.mirror := rfl
@[simp] theorem Cartridge.unobserved_chrIndex (c : Cartridge) (a : PpuAddr) :
    c.unobserved.chrIndex a = c.chrIndex a := rfl
@[simp] theorem ppuMemRead_unobserved (c : Cartridge) (p : Ppu) (a : PpuAddr) :
    ppuMemRead c.unobserved p a = ppuMemRead c p a := rfl

theorem Cartridge.cpuRead_congr {c d : Cartridge} (h : d.unobserved = c.unobserved) (a : Word) :
    d.cpuRead a = c.cpuRead a := by rw [← d.unobserved_cpuRead, h, c.unobserved_cpuRead]

theorem Cartridge.board_congr {c d : Cartridge} (h : d.unobserved = c.unobserved) : d.toBoard = c.toBoard := by
  rw [← d.unobserved_toBoard, h, c.unobserved_toBoard]

theorem Cartridge.mapper_congr {c d : Cartridge} (h : d.unobserved = c.unobserved) : d.mapper = c.mapper := by
  rw [← d.unobserved_mapper, h, c.unobserved_mapper]

theorem Cartridge.chr_congr {c d : Cartridge} (h : d.unobserved = c.unobserved) : d.chr = c.chr := by
  rw [← d.unobserved_chr, h, c.unobserved_chr]

theorem Cartridge.regs_congr {c d : Cartridge} (h : d.unobserved = c.unobserved) : d.regs = c.regs := by
  rw [← d.unobserved_regs, h, c.unobserved_regs]

theorem ppuMemRead_congr {c d : Cartridge} {p q : Ppu} (hc : d.unobserved = c.unobserved) (hv : q.vram = p.vram)
    (hp : q.palette = p.palette) (a : PpuAddr) : ppuMemRead d q a = ppuMemRead c p a := by
  rw [← ppuMemRead_unobserved d, hc, ppuMemRead_unobserved]
  unfold ppuMemRead
  rw [hv, hp]

/-! Observing the PPU's bus. -/

@[simp] theorem Cartridge.observe_unobserved (cyc : Nat) (addrs : List PpuAddr) (c : Cartridge) :
    (c.observe cyc addrs).unobserved = c.unobserved := rfl

/-! A CPU write. -/

@[simp] theorem Cartridge.cpuWrite_toBoard (c : Cartridge) (a : Word) (v : Byte) :
    (c.cpuWrite a v).toBoard = c.toBoard := rfl
@[simp] theorem Cartridge.cpuWrite_mapper (c : Cartridge) (a : Word) (v : Byte) :
    (c.cpuWrite a v).mapper = c.mapper := rfl
@[simp] theorem Cartridge.cpuWrite_chr (c : Cartridge) (a : Word) (v : Byte) : (c.cpuWrite a v).chr = c.chr := rfl

/-! Mapper 0 (R85). -/

theorem Cartridge.logic_nrom {c : Cartridge} (h : c.mapper = 0) : c.logic = nrom := by unfold Cartridge.logic; rw [h]; rfl

theorem Cartridge.cpuRead_nrom {c : Cartridge} (h : c.mapper = 0) (a : Word) : c.cpuRead a =
    if 0x8000 ≤ a.toNat then some (c.prg.get ((a.toNat - 0x8000) % nromPrgSize c.toBoard)) else none := by
  unfold Cartridge.cpuRead
  rw [c.logic_nrom h]
  by_cases h1 : a.toNat < 0x4020
  · rw [if_pos h1, if_neg (by omega)]
  · rw [if_neg h1]
    rfl

theorem Cartridge.cpuWrite_nrom {c : Cartridge} (h : c.mapper = 0) (a : Word) (v : Byte) : c.cpuWrite a v = c := by
  unfold Cartridge.cpuWrite
  rw [c.logic_nrom h]
  rfl

theorem Cartridge.observe_nrom {c : Cartridge} (h : c.mapper = 0) (cyc : Nat) (addrs : List PpuAddr) :
    c.observe cyc addrs = c := by
  have e : addrs.foldl (fun o _ => o) c.observer = c.observer := by
    induction addrs with
    | nil => rfl
    | cons a as ih => exact ih
  unfold Cartridge.observe
  rw [c.logic_nrom h]
  exact congrArg (fun o => { c with observer := o }) e

theorem Cartridge.irq_nrom {c : Cartridge} (h : c.mapper = 0) : c.irq = false := by
  unfold Cartridge.irq
  rw [c.logic_nrom h]
  rfl

theorem Cartridge.chrIndex_nrom {c : Cartridge} (h : c.mapper = 0) (a : PpuAddr) : c.chrIndex a = a.toNat := by
  unfold Cartridge.chrIndex
  rw [c.logic_nrom h]
  show (a.setWidth 21).toNat = _
  exact BitVec.toNat_setWidth_of_le (by decide)

theorem Cartridge.mirror_nrom {c : Cartridge} (h : c.mapper = 0) : c.mirror = c.mirroring := by
  unfold Cartridge.mirror
  rw [c.logic_nrom h]
  rfl

/-- Every index into CHR lies in the size `CartInv` gives it. -/
theorem Cartridge.chrIndex_lt (c : Cartridge) {a : PpuAddr} (h : a.toNat < 0x2000) :
    c.chrIndex a < if c.mapper = 0 then 0x2000 else 0x200000 := by
  split
  · next hm => rw [chrIndex_nrom hm]; exact h
  · exact (c.logic.chrIndex c.regs a).isLt

theorem CartInv.congr {c d : Cartridge} (h : d.unobserved = c.unobserved) (k : CartInv c) : CartInv d := by
  have hb := Cartridge.board_congr h
  have hm := Cartridge.mapper_congr h
  have hc := Cartridge.chr_congr h
  exact ⟨by rw [hb, hm]; exact k.prg, by rw [hm, hc]; exact k.chr⟩

/-! Plain addresses. -/

theorem Plain.ofRam {a : Word} (s : State) (h : a.toNat < 0x2000) : Plain a s := by
  unfold Plain driven
  simp [h]

theorem Plain.ofPrg {a : Word} {s : State} (hm : s.cart.mapper = 0) (h : 0x8000 ≤ a.toNat) : Plain a s := by
  unfold Plain driven
  rw [Cartridge.cpuRead_nrom hm, if_pos h]
  simp

theorem Plain.congr {a : Word} {s t : State} (h : t.cart.unobserved = s.cart.unobserved) (k : Plain a s) : Plain a t := by
  unfold Plain driven at *
  rw [Cartridge.cpuRead_congr h]
  exact k

end Sys2Proof.Machine
end

