-- ==== Sys2Proof/Laws/Mem.lean ====
section
/-! SUPPORT. Laws of the memories: a read after a write, and that a write keeps the canonical form. -/

namespace Sys2Proof.Memory

variable {w : Nat}

/-- Below its least listed address a canonical memory reads 0. -/
theorem get_of_lt (size lo a : Nat) (m : Memory w) (h : wfFrom size lo m = true) (ha : a < lo) : get m a = 0 := by
  induction m generalizing lo with
  | nil => rfl
  | cons c m ih =>
    obtain ⟨k, x⟩ := c
    simp only [wfFrom, Bool.and_eq_true, decide_eq_true_eq] at h
    have hk : k ≠ a := by omega
    simp only [get, hk, if_false]
    exact ih (k + 1) h.2 (by omega)

theorem wfFrom_mono (size lo lo' : Nat) (m : Memory w) (hl : lo' ≤ lo) (h : wfFrom size lo m = true) :
    wfFrom size lo' m = true := by
  cases m with
  | nil => rfl
  | cons c m =>
    simp only [wfFrom, Bool.and_eq_true, decide_eq_true_eq] at h ⊢
    exact ⟨⟨⟨by omega, h.1.1.2⟩, h.1.2⟩, h.2⟩

theorem wfFrom_set (size lo a : Nat) (m : Memory w) (v : BitVec w) (h : wfFrom size lo m = true) (hlo : lo ≤ a)
    (ha : a < size) : wfFrom size lo (set m a v) = true := by
  induction m generalizing lo with
  | nil =>
    simp only [set]
    split
    · rfl
    · next hv => simpa [wfFrom, hlo, ha] using hv
  | cons c m ih =>
    obtain ⟨k, x⟩ := c
    have h' := h
    simp only [wfFrom, Bool.and_eq_true, decide_eq_true_eq] at h'
    obtain ⟨⟨⟨h1, h2⟩, h3⟩, h4⟩ := h'
    simp only [set]
    split_ifs with c1 hv c2 hv
    · exact h
    · simp only [wfFrom, Bool.and_eq_true, decide_eq_true_eq, bne_iff_ne, ne_eq]
      exact ⟨⟨⟨hlo, ha⟩, hv⟩, ⟨⟨⟨by omega, h2⟩, by simpa using h3⟩, h4⟩⟩
    · exact wfFrom_mono size (k + 1) lo m (by omega) h4
    · simp only [wfFrom, Bool.and_eq_true, decide_eq_true_eq, bne_iff_ne, ne_eq]
      exact ⟨⟨⟨hlo, ha⟩, hv⟩, c2 ▸ h4⟩
    · simp only [wfFrom, Bool.and_eq_true, decide_eq_true_eq]
      exact ⟨⟨⟨h1, h2⟩, h3⟩, ih (k + 1) h4 (by omega)⟩

/-- A write keeps the canonical form. -/
theorem wf_set (size a : Nat) (m : Memory w) (v : BitVec w) (h : wf size m = true) (ha : a < size) :
    wf size (set m a v) = true := wfFrom_set size 0 a m v h (Nat.zero_le a) ha

/-- What a write to a canonical memory makes every address read as. -/
theorem get_set_from (size lo a b : Nat) (m : Memory w) (v : BitVec w) (h : wfFrom size lo m = true) :
    get (set m a v) b = if b = a then v else get m b := by
  induction m generalizing lo with
  | nil =>
    simp only [set]
    split_ifs with hv hb hb
    · exact hv.symm
    · rfl
    · simp only [get, hb, if_true]
    · simp only [get, if_neg (Ne.symm hb)]
  | cons c m ih =>
    obtain ⟨k, x⟩ := c
    simp only [wfFrom, Bool.and_eq_true, decide_eq_true_eq] at h
    have hz : ∀ j, j ≤ k → get m j = 0 := fun j hj => get_of_lt size (k + 1) j m h.2 (by omega)
    simp only [set]
    split_ifs with c1 hv hb hb c2 hv hb hb hb
    · have : ¬ k = b := by omega
      simp only [get, this, if_false, hv]
      exact hz b (by omega)
    · rfl
    · simp only [get, hb, if_true]
    · simp only [get, if_neg (Ne.symm hb)]
    · rw [hv]
      exact hz b (by omega)
    · have : ¬ k = b := by omega
      simp only [get, this, if_false]
    · simp only [get, hb, if_true]
    · have : ¬ k = b := by omega
      simp only [get, this, if_false, if_neg (Ne.symm hb)]
    · have : ¬ k = b := by omega
      rw [get, if_neg this, ih (k + 1) h.2, if_pos hb]
    · simp only [get, ih (k + 1) h.2, hb, if_false]

/-- A read after a write. -/
theorem get_set (size a b : Nat) (m : Memory w) (v : BitVec w) (h : wf size m = true) :
    get (set m a v) b = if b = a then v else get m b := get_set_from size 0 a b m v h

end Sys2Proof.Memory
end

