-- ==== Sys2Proof/Laws/PpuKeep.lean ====
section
/-! SUPPORT. What a tick of the PPU and a read of one of its registers leave unchanged. -/

namespace Sys2Proof.Machine

/-- PPU memories and the registers only a write changes are the same. -/
structure PpuStill (p q : Ppu) : Prop where
  oam : q.oam = p.oam
  vram : q.vram = p.vram
  palette : q.palette = p.palette
  regs : PpuRegsKept p q

theorem PpuStill.refl (p : Ppu) : PpuStill p p := ⟨rfl, rfl, rfl, ⟨rfl, rfl, rfl, rfl⟩⟩

theorem PpuStill.trans {p q r : Ppu} (h : PpuStill p q) (k : PpuStill q r) : PpuStill p r :=
  ⟨k.oam.trans h.oam, k.vram.trans h.vram, k.palette.trans h.palette,
   ⟨k.regs.ctrl.trans h.regs.ctrl, k.regs.mask.trans h.regs.mask, k.regs.t.trans h.regs.t,
    k.regs.fineX.trans h.regs.fineX⟩⟩

theorem PpuStill.ite {p q r : Ppu} {c : Prop} [Decidable c] (h : PpuStill p q) (k : PpuStill p r) :
    PpuStill p (if c then q else r) := by
  split <;> assumption

theorem statusFlags_still (sl : Int) (d : Nat) (p : Ppu) : PpuStill p (statusFlags sl d p) :=
  .ite ⟨rfl, rfl, rfl, ⟨rfl, rfl, rfl, rfl⟩⟩ (.ite ⟨rfl, rfl, rfl, ⟨rfl, rfl, rfl, rfl⟩⟩ (.refl p))

theorem scrollStep_still (sl : Int) (d : Nat) (p : Ppu) : PpuStill p (scrollStep sl d p) :=
  ⟨rfl, rfl, rfl, ⟨rfl, rfl, rfl, rfl⟩⟩

theorem bgFetch_still (c : Cartridge) (d : Nat) (p : Ppu) : PpuStill p (bgFetch c d p) := by
  unfold bgFetch
  split
  · split <;> exact ⟨rfl, rfl, rfl, ⟨rfl, rfl, rfl, rfl⟩⟩
  · exact .refl p

theorem bgShiftAndReload_still (d : Nat) (p : Ppu) : PpuStill p (bgShiftAndReload d p) :=
  ⟨rfl, rfl, rfl, ⟨rfl, rfl, rfl, rfl⟩⟩

theorem nextSprite_still (p : Ppu) : PpuStill p (nextSprite p) := ⟨rfl, rfl, rfl, ⟨rfl, rfl, rfl, rfl⟩⟩

theorem oam2Append_still (p : Ppu) : PpuStill p (oam2Append p) := ⟨rfl, rfl, rfl, ⟨rfl, rfl, rfl, rfl⟩⟩

theorem evScan_still (sl : Int) (p : Ppu) : PpuStill p (evScan sl p) :=
  .ite ⟨rfl, rfl, rfl, ⟨rfl, rfl, rfl, rfl⟩⟩ (nextSprite_still p)

theorem evCopy_still (p : Ppu) : PpuStill p (evCopy p) :=
  .ite ⟨rfl, rfl, rfl, ⟨rfl, rfl, rfl, rfl⟩⟩ ⟨rfl, rfl, rfl, ⟨rfl, rfl, rfl, rfl⟩⟩

theorem evOvf_still (sl : Int) (p : Ppu) : PpuStill p (evOvf sl p) :=
  .ite ⟨rfl, rfl, rfl, ⟨rfl, rfl, rfl, rfl⟩⟩ ⟨rfl, rfl, rfl, ⟨rfl, rfl, rfl, rfl⟩⟩

theorem spriteEvaluate_still (sl : Int) (d : Nat) (p : Ppu) : PpuStill p (spriteEvaluate sl d p) := by
  unfold spriteEvaluate
  split_ifs
  · exact ⟨rfl, rfl, rfl, ⟨rfl, rfl, rfl, rfl⟩⟩
  · exact ⟨rfl, rfl, rfl, ⟨rfl, rfl, rfl, rfl⟩⟩
  · exact .refl p
  · exact ⟨rfl, rfl, rfl, ⟨rfl, rfl, rfl, rfl⟩⟩
  · split
    · exact evScan_still sl p
    · exact evCopy_still p
    · exact evOvf_still sl p
    · exact .refl p
  · exact .refl p

theorem sprFetchSlot_still (c : Cartridge) (sl : Int) (i ph : Nat) (p : Ppu) :
    PpuStill p (sprFetchSlot c sl i ph p) := by
  unfold sprFetchSlot
  simp only
  split <;> exact ⟨rfl, rfl, rfl, ⟨rfl, rfl, rfl, rfl⟩⟩

theorem spriteFetch_still (c : Cartridge) (sl : Int) (d : Nat) (p : Ppu) : PpuStill p (spriteFetch c sl d p) := by
  unfold spriteFetch
  split
  · refine .trans ?_ (sprFetchSlot_still c sl _ _ _)
    split_ifs <;> exact ⟨rfl, rfl, rfl, ⟨rfl, rfl, rfl, rfl⟩⟩
  · exact .refl p

theorem spriteUnitsStep_still (d : Nat) (p : Ppu) : PpuStill p (spriteUnitsStep d p) :=
  .ite ⟨rfl, rfl, rfl, ⟨rfl, rfl, rfl, rfl⟩⟩ (.refl p)

theorem outputPixel_still (sl : Int) (x : Nat) (p : Ppu) : PpuStill p (outputPixel sl x p) :=
  ⟨rfl, rfl, rfl, ⟨rfl, rfl, rfl, rfl⟩⟩

theorem advance_still (sl : Int) (d : Nat) (p : Ppu) : PpuStill p (advance sl d p) := by
  unfold advance
  split_ifs <;> exact ⟨rfl, rfl, rfl, ⟨rfl, rfl, rfl, rfl⟩⟩

theorem renderBefore_still (sl : Int) (d : Nat) (p : Ppu) : PpuStill p (renderBefore sl d p) := by
  unfold renderBefore
  split
  · exact .ite ((bgShiftAndReload_still d p).trans (spriteEvaluate_still sl d _)) (bgShiftAndReload_still d p)
  · exact .refl p

theorem renderPixel_still (sl : Int) (d : Nat) (p : Ppu) : PpuStill p (renderPixel sl d p) :=
  .ite (outputPixel_still sl (d - 1) p) (.refl p)

theorem renderAfter_still (c : Cartridge) (sl : Int) (d : Nat) (p : Ppu) : PpuStill p (renderAfter c sl d p) :=
  .ite ((spriteUnitsStep_still d p).trans ((bgFetch_still c d _).trans ((scrollStep_still sl d _).trans
    (spriteFetch_still c sl d _)))) (.refl p)

/-- A dot leaves the PPU's memories and the registers only a write changes. -/
theorem ppuTick_still (c : Cartridge) (p : Ppu) : PpuStill p (ppuTick c p) :=
  (statusFlags_still _ _ p).trans ((renderBefore_still _ _ _).trans ((renderPixel_still _ _ _).trans
    ((renderAfter_still c _ _ _).trans (advance_still _ _ _))))

/-- A read of a PPU register leaves them too. -/
theorem ppuRegRead_still (c : Cartridge) (bus : Byte) (r : Nat) (p : Ppu) : PpuStill p (ppuRegRead c bus r p).2 := by
  unfold ppuRegRead
  split
  · exact ⟨rfl, rfl, rfl, ⟨rfl, rfl, rfl, rfl⟩⟩
  · exact .refl p
  · unfold dataRead
    simp only
    split <;> exact ⟨rfl, rfl, rfl, ⟨rfl, rfl, rfl, rfl⟩⟩
  · exact .refl p

end Sys2Proof.Machine
end

