-- ==== Sys2Proof/Laws/PpuClock.lean ====
section
/-! SUPPORT. The position on the screen and the frame's flags: only the two ends of a dot change them. -/

namespace Sys2Proof.Machine

/-- Position, frame parity, vertical-blank flag and its suppression, frame boundary are the same. -/
structure PpuClock (p q : Ppu) : Prop where
  scanline : q.scanline = p.scanline
  dot : q.dot = p.dot
  oddFrame : q.oddFrame = p.oddFrame
  suppressVbl : q.suppressVbl = p.suppressVbl
  vblank : q.vblank = p.vblank
  frameDone : q.frameDone = p.frameDone

theorem PpuClock.refl (p : Ppu) : PpuClock p p := ⟨rfl, rfl, rfl, rfl, rfl, rfl⟩

theorem PpuClock.trans {p q r : Ppu} (h : PpuClock p q) (k : PpuClock q r) : PpuClock p r :=
  ⟨k.scanline.trans h.scanline, k.dot.trans h.dot, k.oddFrame.trans h.oddFrame, k.suppressVbl.trans h.suppressVbl,
   k.vblank.trans h.vblank, k.frameDone.trans h.frameDone⟩

theorem PpuClock.ite {p q r : Ppu} {c : Prop} [Decidable c] (h : PpuClock p q) (k : PpuClock p r) :
    PpuClock p (if c then q else r) := by
  split <;> assumption

theorem scrollStep_clock (sl : Int) (d : Nat) (p : Ppu) : PpuClock p (scrollStep sl d p) :=
  ⟨rfl, rfl, rfl, rfl, rfl, rfl⟩

theorem bgFetch_clock (c : Cartridge) (d : Nat) (p : Ppu) : PpuClock p (bgFetch c d p) := by
  unfold bgFetch
  split
  · split <;> exact ⟨rfl, rfl, rfl, rfl, rfl, rfl⟩
  · exact .refl p

theorem bgShiftAndReload_clock (d : Nat) (p : Ppu) : PpuClock p (bgShiftAndReload d p) :=
  ⟨rfl, rfl, rfl, rfl, rfl, rfl⟩

theorem nextSprite_clock (p : Ppu) : PpuClock p (nextSprite p) := ⟨rfl, rfl, rfl, rfl, rfl, rfl⟩

theorem oam2Append_clock (p : Ppu) : PpuClock p (oam2Append p) := ⟨rfl, rfl, rfl, rfl, rfl, rfl⟩

theorem evScan_clock (sl : Int) (p : Ppu) : PpuClock p (evScan sl p) :=
  .ite ⟨rfl, rfl, rfl, rfl, rfl, rfl⟩ (nextSprite_clock p)

theorem evCopy_clock (p : Ppu) : PpuClock p (evCopy p) :=
  .ite ⟨rfl, rfl, rfl, rfl, rfl, rfl⟩ ⟨rfl, rfl, rfl, rfl, rfl, rfl⟩

theorem evOvf_clock (sl : Int) (p : Ppu) : PpuClock p (evOvf sl p) :=
  .ite ⟨rfl, rfl, rfl, rfl, rfl, rfl⟩ ⟨rfl, rfl, rfl, rfl, rfl, rfl⟩

theorem spriteEvaluate_clock (sl : Int) (d : Nat) (p : Ppu) : PpuClock p (spriteEvaluate sl d p) := by
  unfold spriteEvaluate
  split_ifs
  · exact ⟨rfl, rfl, rfl, rfl, rfl, rfl⟩
  · exact ⟨rfl, rfl, rfl, rfl, rfl, rfl⟩
  · exact .refl p
  · exact ⟨rfl, rfl, rfl, rfl, rfl, rfl⟩
  · split
    · exact evScan_clock sl p
    · exact evCopy_clock p
    · exact evOvf_clock sl p
    · exact .refl p
  · exact .refl p

theorem sprFetchSlot_clock (c : Cartridge) (sl : Int) (i ph : Nat) (p : Ppu) :
    PpuClock p (sprFetchSlot c sl i ph p) := by
  unfold sprFetchSlot
  simp only
  split <;> exact ⟨rfl, rfl, rfl, rfl, rfl, rfl⟩

theorem spriteFetch_clock (c : Cartridge) (sl : Int) (d : Nat) (p : Ppu) : PpuClock p (spriteFetch c sl d p) := by
  unfold spriteFetch
  split
  · refine .trans ?_ (sprFetchSlot_clock c sl _ _ _)
    split_ifs <;> exact ⟨rfl, rfl, rfl, rfl, rfl, rfl⟩
  · exact .refl p

theorem spriteUnitsStep_clock (d : Nat) (p : Ppu) : PpuClock p (spriteUnitsStep d p) :=
  .ite ⟨rfl, rfl, rfl, rfl, rfl, rfl⟩ (.refl p)

theorem outputPixel_clock (sl : Int) (x : Nat) (p : Ppu) : PpuClock p (outputPixel sl x p) :=
  ⟨rfl, rfl, rfl, rfl, rfl, rfl⟩

theorem renderBefore_clock (sl : Int) (d : Nat) (p : Ppu) : PpuClock p (renderBefore sl d p) := by
  unfold renderBefore
  split
  · exact .ite ((bgShiftAndReload_clock d p).trans (spriteEvaluate_clock sl d _)) (bgShiftAndReload_clock d p)
  · exact .refl p

theorem renderPixel_clock (sl : Int) (d : Nat) (p : Ppu) : PpuClock p (renderPixel sl d p) :=
  .ite (outputPixel_clock sl (d - 1) p) (.refl p)

theorem renderAfter_clock (c : Cartridge) (sl : Int) (d : Nat) (p : Ppu) : PpuClock p (renderAfter c sl d p) :=
  .ite ((spriteUnitsStep_clock d p).trans ((bgFetch_clock c d _).trans ((scrollStep_clock sl d _).trans
    (spriteFetch_clock c sl d _)))) (.refl p)

/-- The work of a dot between its two ends (R430 steps 2 and 3). -/
def dotWork (c : Cartridge) (sl : Int) (d : Nat) (p : Ppu) : Ppu :=
  renderAfter c sl d (renderPixel sl d (renderBefore sl d p))

theorem dotWork_clock (c : Cartridge) (sl : Int) (d : Nat) (p : Ppu) : PpuClock p (dotWork c sl d p) :=
  (renderBefore_clock sl d p).trans ((renderPixel_clock sl d _).trans (renderAfter_clock c sl d _))

theorem dotWork_still (c : Cartridge) (sl : Int) (d : Nat) (p : Ppu) : PpuStill p (dotWork c sl d p) :=
  (renderBefore_still sl d p).trans ((renderPixel_still sl d _).trans (renderAfter_still c sl d _))

/-- A dot is its first end, its work, its second end. -/
theorem ppuTick_eq (c : Cartridge) (p : Ppu) :
    ppuTick c p = advance p.scanline p.dot (dotWork c p.scanline p.dot (statusFlags p.scanline p.dot p)) := rfl

theorem statusFlags_scanline (sl : Int) (d : Nat) (p : Ppu) : (statusFlags sl d p).scanline = p.scanline := by
  unfold statusFlags
  split_ifs <;> rfl

theorem statusFlags_dot (sl : Int) (d : Nat) (p : Ppu) : (statusFlags sl d p).dot = p.dot := by
  unfold statusFlags
  split_ifs <;> rfl

theorem statusFlags_oddFrame (sl : Int) (d : Nat) (p : Ppu) : (statusFlags sl d p).oddFrame = p.oddFrame := by
  unfold statusFlags
  split_ifs <;> rfl

/-- Where the next dot stands, by the position of this one (R430 step 4, R432). -/
theorem ppuTick_position (c : Cartridge) (p : Ppu) :
    (ppuTick c p).scanline = (if p.dot = 340 then (if p.scanline = 260 then -1 else p.scanline + 1) else p.scanline)
    ∧ (ppuTick c p).dot =
        (if p.dot = 340 then 0
         else if p.scanline = -1 ∧ p.dot = 338 ∧ p.oddFrame = true ∧ bgEn p = true then 340 else p.dot + 1)
    ∧ (ppuTick c p).oddFrame = (if p.dot = 340 ∧ p.scanline = 260 then !p.oddFrame else p.oddFrame) := by
  rw [ppuTick_eq]
  generalize hq : dotWork c p.scanline p.dot (statusFlags p.scanline p.dot p) = q
  have h1 : q.scanline = p.scanline := by
    rw [← hq, (dotWork_clock c _ _ _).scanline, statusFlags_scanline]
  have h3 : q.oddFrame = p.oddFrame := by
    rw [← hq, (dotWork_clock c _ _ _).oddFrame, statusFlags_oddFrame]
  have h4 : bgEn q = bgEn p := by
    unfold bgEn
    rw [← hq, (dotWork_still c _ _ _).regs.mask, (statusFlags_still _ _ p).regs.mask]
  unfold advance
  simp only [h3, h4, Bool.and_eq_true, beq_iff_eq]
  by_cases hd : p.dot = 340
  · by_cases hs : p.scanline = 260
    · simp [hd, hs]
    · simp [hd, hs]
  · by_cases hk : ((p.scanline = -1 ∧ p.dot = 338) ∧ p.oddFrame = true) ∧ bgEn p = true
    · have hk' : p.scanline = -1 ∧ p.dot = 338 ∧ p.oddFrame = true ∧ bgEn p = true :=
        ⟨hk.1.1.1, hk.1.1.2, hk.1.2, hk.2⟩
      simp only [if_pos hk, if_pos hk', if_neg hd, h1, true_and]
      simp [hd]
    · have hk' : ¬ (p.scanline = -1 ∧ p.dot = 338 ∧ p.oddFrame = true ∧ bgEn p = true) :=
        fun h => hk ⟨⟨⟨h.1, h.2.1⟩, h.2.2.1⟩, h.2.2.2⟩
      simp only [if_neg hk, if_neg hk', if_neg hd, h1, true_and]
      simp [hd]

end Sys2Proof.Machine
end

