-- ==== Sys2Proof/Laws/PpuInv.lean ====
section
/-! SUPPORT. A dot and an access to a PPU register keep `PpuInv`. -/

namespace Sys2Proof.Machine

/-- The part of `PpuInv` the work of a dot can change. -/
structure PipeInv (p : Ppu) : Prop where
  oam : Memory.wf 256 p.oam = true
  oam2 : Memory.wf 32 p.oam2 = true
  palette : Memory.wf 32 p.palette = true
  vram : Memory.wf 2048 p.vram = true
  framebuffer : Memory.wf 61440 p.framebuffer = true
  units : p.units.length = 8
  sprCount : p.sprCount ≤ 8
  eval : EvalInv p

theorem PpuInv.pipe {p : Ppu} (h : PpuInv p) : PipeInv p :=
  ⟨h.oam, h.oam2, h.palette, h.vram, h.framebuffer, h.units, h.sprCount, h.eval⟩

theorem EvalInv.count {p : Ppu} (h : EvalInv p) : p.sprCountNext ≤ 8 := by
  unfold EvalInv at h
  split at h <;> omega

theorem statusFlags_pipe {p : Ppu} (sl : Int) (d : Nat) (h : PipeInv p) : PipeInv (statusFlags sl d p) := by
  unfold statusFlags
  split_ifs
  · exact ⟨h.oam, h.oam2, h.palette, h.vram, h.framebuffer, h.units, h.sprCount, h.eval⟩
  · exact ⟨h.oam, h.oam2, h.palette, h.vram, h.framebuffer, h.units, h.sprCount, h.eval⟩
  · exact h

theorem bgShiftAndReload_pipe {p : Ppu} (d : Nat) (h : PipeInv p) : PipeInv (bgShiftAndReload d p) :=
  ⟨h.oam, h.oam2, h.palette, h.vram, h.framebuffer, h.units, h.sprCount, h.eval⟩

theorem scrollStep_pipe {p : Ppu} (sl : Int) (d : Nat) (h : PipeInv p) : PipeInv (scrollStep sl d p) :=
  ⟨h.oam, h.oam2, h.palette, h.vram, h.framebuffer, h.units, h.sprCount, h.eval⟩

theorem bgFetch_pipe {p : Ppu} (c : Cartridge) (d : Nat) (h : PipeInv p) : PipeInv (bgFetch c d p) := by
  unfold bgFetch
  split
  · split <;> exact ⟨h.oam, h.oam2, h.palette, h.vram, h.framebuffer, h.units, h.sprCount, h.eval⟩
  · exact h

theorem spriteUnitsStep_pipe {p : Ppu} (d : Nat) (h : PipeInv p) : PipeInv (spriteUnitsStep d p) := by
  unfold spriteUnitsStep
  split
  · exact ⟨h.oam, h.oam2, h.palette, h.vram, h.framebuffer, by simp [h.units], h.sprCount, h.eval⟩
  · exact h

theorem sprFetchSlot_pipe {p : Ppu} (c : Cartridge) (sl : Int) (i ph : Nat) (h : PipeInv p) :
    PipeInv (sprFetchSlot c sl i ph p) := by
  unfold sprFetchSlot
  simp only
  split
  · exact ⟨h.oam, h.oam2, h.palette, h.vram, h.framebuffer, by simp [setUnit, h.units], h.sprCount, h.eval⟩
  · exact ⟨h.oam, h.oam2, h.palette, h.vram, h.framebuffer, by simp [setUnit, h.units], h.sprCount, h.eval⟩
  · exact h

theorem spriteFetch_pipe {p : Ppu} (c : Cartridge) (sl : Int) (d : Nat) (h : PipeInv p) :
    PipeInv (spriteFetch c sl d p) := by
  unfold spriteFetch
  split
  · apply sprFetchSlot_pipe
    split_ifs
    · exact ⟨h.oam, h.oam2, h.palette, h.vram, h.framebuffer, h.units, Nat.zero_le 8, h.eval⟩
    · exact ⟨h.oam, h.oam2, h.palette, h.vram, h.framebuffer, h.units, h.eval.count, h.eval⟩
    · exact ⟨h.oam, h.oam2, h.palette, h.vram, h.framebuffer, h.units, h.sprCount, h.eval⟩
  · exact h

/-- The pixel of column `x` of a visible line has a place in the frame buffer. -/
theorem renderPixel_pipe {p : Ppu} (sl : Int) (d : Nat) (h : PipeInv p) : PipeInv (renderPixel sl d p) := by
  unfold renderPixel
  split
  · next hc =>
    simp only [visibleLine, Bool.and_eq_true, decide_eq_true_eq] at hc
    refine ⟨h.oam, h.oam2, h.palette, h.vram, ?_, h.units, h.sprCount, h.eval⟩
    exact Memory.wf_set _ _ _ _ h.framebuffer (by omega)
  · exact h

theorem nextSprite_eval {p : Ppu} (hc : p.sprCountNext ≤ 8) (hk : p.ev.k = 4 * p.sprCountNext) :
    EvalInv (nextSprite p) := by
  unfold EvalInv nextSprite
  simp only
  split
  · next he => split_ifs at he; exact ⟨by omega, hk⟩
  · next he => split_ifs at he
  · next he => split_ifs at he with h1 h2; exact h2
  · exact hc

theorem oam2Append_wf {p : Ppu} (h : PipeInv p) : Memory.wf 32 (oam2Append p).oam2 = true :=
  Memory.wf_set _ _ _ _ h.oam2 (Nat.mod_lt _ (by decide))

theorem evScan_pipe {p : Ppu} (sl : Int) (h : PipeInv p) (hm : p.ev.mode = .scan) : PipeInv (evScan sl p) := by
  have he := h.eval
  unfold EvalInv at he
  rw [hm] at he
  simp only at he
  unfold evScan
  split
  · refine ⟨h.oam, oam2Append_wf h, h.palette, h.vram, h.framebuffer, h.units, h.sprCount, ?_⟩
    unfold EvalInv oam2Append
    simp only
    refine ⟨he.1, by decide, ?_⟩
    show p.ev.k + 1 = 4 * p.sprCountNext + 1
    omega
  · exact ⟨h.oam, h.oam2, h.palette, h.vram, h.framebuffer, h.units, h.sprCount, nextSprite_eval (by omega) he.2⟩

theorem evCopy_pipe {p : Ppu} (h : PipeInv p) (hm : p.ev.mode = .copy) : PipeInv (evCopy p) := by
  have he := h.eval
  unfold EvalInv at he
  rw [hm] at he
  simp only at he
  obtain ⟨h1, h2, h3⟩ := he
  unfold evCopy
  simp only
  have key : (oam2Append p).ev.m = p.ev.m := rfl
  have hlt := p.ev.m.isLt
  have hadd : (p.ev.m + 1).toNat = (p.ev.m.toNat + 1) % 4 := by simp [BitVec.toNat_add]
  split
  · next h0 =>
    have h0' : (p.ev.m + 1).toNat = 0 := by rw [← key, h0]; rfl
    refine ⟨h.oam, oam2Append_wf h, h.palette, h.vram, h.framebuffer, h.units, h.sprCount, nextSprite_eval ?_ ?_⟩
    · show p.sprCountNext + 1 ≤ 8
      omega
    · show p.ev.k + 1 = 4 * (p.sprCountNext + 1)
      omega
  · next h0 =>
    refine ⟨h.oam, oam2Append_wf h, h.palette, h.vram, h.framebuffer, h.units, h.sprCount, ?_⟩
    have h0' : (p.ev.m + 1).toNat ≠ 0 := fun e => h0 (BitVec.eq_of_toNat_eq e)
    unfold EvalInv oam2Append
    simp only [hm]
    refine ⟨h1, h0, ?_⟩
    omega

theorem evOvf_pipe {p : Ppu} (sl : Int) (h : PipeInv p) (hm : p.ev.mode = .ovf) : PipeInv (evOvf sl p) := by
  have he := h.eval
  unfold EvalInv at he
  rw [hm] at he
  simp only at he
  unfold evOvf
  split
  · exact ⟨h.oam, h.oam2, h.palette, h.vram, h.framebuffer, h.units, h.sprCount, Nat.le_of_eq he⟩
  · refine ⟨h.oam, h.oam2, h.palette, h.vram, h.framebuffer, h.units, h.sprCount, ?_⟩
    unfold EvalInv
    simp only [hm]
    split
    · next hx => split_ifs at hx
    · next hx => split_ifs at hx
    · exact he
    · exact Nat.le_of_eq he

theorem spriteEvaluate_pipe {p : Ppu} (sl : Int) (d : Nat) (h : PipeInv p) : PipeInv (spriteEvaluate sl d p) := by
  unfold spriteEvaluate
  split_ifs with h1 h2 h3 h4
  · exact ⟨h.oam, h.oam2, h.palette, h.vram, h.framebuffer, h.units, h.sprCount, Nat.zero_lt_succ 7, rfl⟩
  · simp only [Bool.and_eq_true, decide_eq_true_eq] at h2
    exact ⟨h.oam, Memory.wf_set _ _ _ _ h.oam2 (by omega), h.palette, h.vram, h.framebuffer, h.units, h.sprCount, h.eval⟩
  · exact h
  · exact ⟨h.oam, h.oam2, h.palette, h.vram, h.framebuffer, h.units, h.sprCount, h.eval⟩
  · split
    · next hm => exact evScan_pipe sl h hm
    · next hm => exact evCopy_pipe h hm
    · next hm => exact evOvf_pipe sl h hm
    · exact h
  · exact h

theorem dotWork_pipe {p : Ppu} (c : Cartridge) (sl : Int) (d : Nat) (h : PipeInv p) : PipeInv (dotWork c sl d p) := by
  have h1 : PipeInv (renderBefore sl d p) := by
    unfold renderBefore
    split
    · simp only
      split
      · exact spriteEvaluate_pipe sl d (bgShiftAndReload_pipe d h)
      · exact bgShiftAndReload_pipe d h
    · exact h
  have h2 := renderPixel_pipe sl d h1
  unfold dotWork renderAfter
  split
  · exact spriteFetch_pipe c sl d (scrollStep_pipe sl d (bgFetch_pipe c d (spriteUnitsStep_pipe d h2)))
  · exact h2

/-- The dot that sets the vertical-blank flag ends its suppression (R460). -/
theorem statusFlags_suppress {p : Ppu} (h : PpuInv p) : (statusFlags p.scanline p.dot p).suppressVbl = false := by
  have hs := h.suppress
  unfold statusFlags
  split_ifs with h1 h2
  · rfl
  · simp only [Bool.and_eq_true, beq_iff_eq] at h1
    cases hv : p.suppressVbl
    · rfl
    · exact absurd (hs hv) h1
  · simp only [Bool.and_eq_true, beq_iff_eq] at h1
    cases hv : p.suppressVbl
    · rfl
    · exact absurd (hs hv) h1

theorem advance_suppress (sl : Int) (d : Nat) (p : Ppu) : (advance sl d p).suppressVbl = p.suppressVbl := by
  unfold advance
  split_ifs <;> rfl

theorem advance_pipe {p : Ppu} (sl : Int) (d : Nat) (h : PipeInv p) : PipeInv (advance sl d p) := by
  unfold advance
  split_ifs <;>
    exact ⟨h.oam, h.oam2, h.palette, h.vram, h.framebuffer, h.units, h.sprCount, h.eval⟩

/-- A dot keeps `PpuInv`. -/
theorem ppuTick_inv {p : Ppu} (c : Cartridge) (h : PpuInv p) : PpuInv (ppuTick c p) := by
  have hp : PipeInv (ppuTick c p) :=
    advance_pipe _ _ (dotWork_pipe c _ _ (statusFlags_pipe _ _ h.pipe))
  have hs : (ppuTick c p).suppressVbl = false := by
    rw [ppuTick_eq, advance_suppress, (dotWork_clock c _ _ _).suppressVbl, statusFlags_suppress h]
  obtain ⟨e1, e2, -⟩ := ppuTick_position c p
  have h1 := h.scanline
  have h2 := h.dot
  refine ⟨hp.oam, hp.oam2, hp.palette, hp.vram, hp.framebuffer, ?_, ?_, hp.units, hp.sprCount, hp.eval, ?_⟩
  · rw [e1]
    split_ifs <;> omega
  · rw [e2]
    split_ifs <;> omega
  · intro hx
    rw [hs] at hx
    cases hx

theorem statusRead_inv {p : Ppu} (bus : Byte) (h : PpuInv p) : PpuInv (statusRead bus p).2 := by
  refine ⟨h.oam, h.oam2, h.palette, h.vram, h.framebuffer, h.scanline, h.dot, h.units, h.sprCount, h.eval, ?_⟩
  intro hx
  simp only [statusRead, Bool.or_eq_true, Bool.and_eq_true, beq_iff_eq] at hx
  rcases hx with hx | hx
  · exact h.suppress hx
  · exact hx

/-- A read of a PPU register keeps `PpuInv`. -/
theorem ppuRegRead_inv {p : Ppu} (c : Cartridge) (bus : Byte) (r : Nat) (h : PpuInv p) :
    PpuInv (ppuRegRead c bus r p).2 := by
  unfold ppuRegRead
  split
  · exact statusRead_inv bus h
  · exact h
  · unfold dataRead
    simp only
    split <;>
      exact ⟨h.oam, h.oam2, h.palette, h.vram, h.framebuffer, h.scanline, h.dot, h.units, h.sprCount, h.eval, h.suppress⟩
  · exact h

theorem ntIndex_lt (m : Mirroring) (a : PpuAddr) : ntIndex m a < 2048 := by
  unfold ntIndex
  simp only
  split <;> omega

theorem palIndex_lt (a : PpuAddr) : palIndex a < 32 := by
  unfold palIndex
  simp only
  split <;> omega

/-- A write to PPU memory keeps `PpuInv` and `CartInv`. -/
theorem ppuMemWrite_inv {c : Cartridge} {p : Ppu} (a : PpuAddr) (v : Byte) (h : PpuInv p) (hc : CartInv c) :
    CartInv (ppuMemWrite c p a v).1 ∧ PpuInv (ppuMemWrite c p a v).2 := by
  unfold ppuMemWrite
  split_ifs with h1 h2
  · refine ⟨?_, h⟩
    unfold Cartridge.ppuWrite
    split
    · exact ⟨hc.prg, Memory.wf_set _ _ _ _ hc.chr (c.chrIndex_lt h1)⟩
    · exact hc
  · exact ⟨hc, h.oam, h.oam2, h.palette, Memory.wf_set _ _ _ _ h.vram (ntIndex_lt _ _), h.framebuffer, h.scanline,
      h.dot, h.units, h.sprCount, h.eval, h.suppress⟩
  · exact ⟨hc, h.oam, h.oam2, Memory.wf_set _ _ _ _ h.palette (palIndex_lt _), h.vram, h.framebuffer, h.scanline,
      h.dot, h.units, h.sprCount, h.eval, h.suppress⟩

/-- A write to a PPU register keeps `PpuInv` and `CartInv`. -/
theorem ppuRegWrite_inv {c : Cartridge} {p : Ppu} (r : Nat) (v : Byte) (h : PpuInv p) (hc : CartInv c) :
    CartInv (ppuRegWrite c r v p).1 ∧ PpuInv (ppuRegWrite c r v p).2 := by
  have keep : ∀ q : Ppu, q.oam = p.oam → q.oam2 = p.oam2 → q.palette = p.palette → q.vram = p.vram →
      q.framebuffer = p.framebuffer → q.scanline = p.scanline → q.dot = p.dot → q.units = p.units →
      q.sprCount = p.sprCount → q.ev = p.ev → q.sprCountNext = p.sprCountNext → q.suppressVbl = p.suppressVbl →
      PpuInv q := by
    intro q e1 e2 e3 e4 e5 e6 e7 e8 e9 e10 e11 e12
    have he := h.eval
    unfold EvalInv at he
    exact ⟨e1 ▸ h.oam, e2 ▸ h.oam2, e3 ▸ h.palette, e4 ▸ h.vram, e5 ▸ h.framebuffer, e6 ▸ h.scanline, e7 ▸ h.dot,
      e8 ▸ h.units, e9 ▸ h.sprCount, by unfold EvalInv; rw [e10, e11]; exact he,
      by rw [e6, e7, e12]; exact h.suppress⟩
  unfold ppuRegWrite
  split
  · exact ⟨hc, keep _ rfl rfl rfl rfl rfl rfl rfl rfl rfl rfl rfl rfl⟩
  · exact ⟨hc, keep _ rfl rfl rfl rfl rfl rfl rfl rfl rfl rfl rfl rfl⟩
  · exact ⟨hc, keep _ rfl rfl rfl rfl rfl rfl rfl rfl rfl rfl rfl rfl⟩
  · exact ⟨hc, Memory.wf_set _ _ _ _ h.oam p.oamaddr.isLt, h.oam2, h.palette, h.vram, h.framebuffer, h.scanline,
      h.dot, h.units, h.sprCount, h.eval, h.suppress⟩
  · refine ⟨hc, ?_⟩
    unfold scrollWrite
    split <;> exact keep _ rfl rfl rfl rfl rfl rfl rfl rfl rfl rfl rfl rfl
  · refine ⟨hc, ?_⟩
    unfold addrWrite
    split <;> exact keep _ rfl rfl rfl rfl rfl rfl rfl rfl rfl rfl rfl rfl
  · obtain ⟨k1, k2⟩ := ppuMemWrite_inv (vAddr p) v h hc
    exact ⟨k1, k2.oam, k2.oam2, k2.palette, k2.vram, k2.framebuffer, k2.scanline, k2.dot, k2.units, k2.sprCount,
      k2.eval, k2.suppress⟩
  · exact ⟨hc, h⟩

end Sys2Proof.Machine
end

