-- ==== Sys2Proof/Laws/Bus.lean ====
section
/-! SUPPORT. What a bus cycle leaves unchanged and what it keeps true: read cycles, idle cycles, write cycles, OAM
DMA, the DMC's stolen cycles. -/

namespace Sys2Proof.Machine

theorem TimePassed.trans {s t u : State} : TimePassed s t → TimePassed t u → TimePassed s u := by
  rintro ⟨x, hx, nx⟩ ⟨y, hy, ny⟩
  exact ⟨y ++ x, by rw [hy, hx, List.append_assoc], by rw [ny, nx, List.length_append]; omega⟩

theorem NeverChanged.refl (s : State) : NeverChanged s s :=
  ⟨rfl, rfl, rfl, rfl, rfl, rfl, id, ⟨[], rfl, rfl⟩⟩

theorem NeverChanged.trans {s t u : State} (h : NeverChanged s t) (k : NeverChanged t u) : NeverChanged s u :=
  ⟨k.params.trans h.params, k.board.trans h.board, k.mapper.trans h.mapper, k.pad0.trans h.pad0, k.pad1.trans h.pad1, k.resetPending.trans h.resetPending,
   fun e => k.nmiLatch (h.nmiLatch e), h.time.trans k.time⟩

theorem PpuRegsKept.refl (p : Ppu) : PpuRegsKept p p := ⟨rfl, rfl, rfl, rfl⟩

theorem PpuRegsKept.trans {p q r : Ppu} (h : PpuRegsKept p q) (k : PpuRegsKept q r) : PpuRegsKept p r :=
  ⟨k.ctrl.trans h.ctrl, k.mask.trans h.mask, k.t.trans h.t, k.fineX.trans h.fineX⟩

/-- What cycles that write nothing leave: every memory, the registers only a write changes, the CPU. -/
structure ReadStill (s t : State) : Prop where
  cpu : t.cpu = s.cpu
  ram : t.ram = s.ram
  cart : t.cart.unobserved = s.cart.unobserved
  ppu : PpuStill s.ppu t.ppu
  apu : ApuKept s.apu t.apu
  strobe : t.pads.strobe = s.pads.strobe
  pad0 : t.pads.pad0 = s.pads.pad0
  pad1 : t.pads.pad1 = s.pads.pad1
  params : t.params = s.params
  resetPending : t.resetPending = s.resetPending
  nmiLatch : s.nmiLatch = true → t.nmiLatch = true
  quiet : bit s.ppu.ctrl 7 = false → t.nmiLatch = s.nmiLatch
  time : TimePassed s t

theorem ReadStill.refl (s : State) : ReadStill s s :=
  ⟨rfl, rfl, rfl, .refl _, .refl _, rfl, rfl, rfl, rfl, rfl, id, fun _ => rfl, ⟨[], rfl, rfl⟩⟩

theorem ReadStill.trans {s t u : State} (h : ReadStill s t) (k : ReadStill t u) : ReadStill s u :=
  ⟨k.cpu.trans h.cpu, k.ram.trans h.ram, k.cart.trans h.cart, h.ppu.trans k.ppu, h.apu.trans k.apu,
   k.strobe.trans h.strobe, k.pad0.trans h.pad0, k.pad1.trans h.pad1, k.params.trans h.params,
   k.resetPending.trans h.resetPending, fun e => k.nmiLatch (h.nmiLatch e),
   fun e => (k.quiet (by rw [h.ppu.regs.ctrl]; exact e)).trans (h.quiet e), h.time.trans k.time⟩

theorem nmiEdgeDetect_still (s : State) : ReadStill s (nmiEdgeDetect s) :=
  ⟨rfl, rfl, rfl, .refl _, .refl _, rfl, rfl, rfl, rfl, rfl, fun e => by simp [nmiEdgeDetect, e],
   fun e => by simp [nmiEdgeDetect, nmiOut, e], ⟨[], rfl, rfl⟩⟩

theorem ppuDot_still (s : State) : ReadStill s (ppuDot s) :=
  ReadStill.trans (t := { s with cart := s.cart.observe s.cyc (dotBusAddrs s.ppu), ppu := ppuTick s.cart s.ppu })
    ⟨rfl, rfl, Cartridge.observe_unobserved _ _ _, ppuTick_still _ _, .refl _, rfl, rfl, rfl, rfl, rfl, id,
     fun _ => rfl, ⟨[], rfl, rfl⟩⟩ (nmiEdgeDetect_still _)

theorem clockDevices_still (s : State) : ReadStill s (clockDevices s) := by
  have h := ((ppuDot_still { s with cyc := s.cyc + 1 }).trans (ppuDot_still _)).trans (ppuDot_still _)
  unfold clockDevices
  simp only
  generalize ppuDot (ppuDot (ppuDot { s with cyc := s.cyc + 1 })) = t at h
  obtain ⟨out, ha, hc⟩ := h.time
  refine ⟨h.cpu, h.ram, h.cart, h.ppu, h.apu.trans (apuTick_kept _), h.strobe, h.pad0, h.pad1, h.params,
    h.resetPending, h.nmiLatch, h.quiet, (apuTick t.apu).sample :: out, ?_, ?_⟩
  · show _ :: t.audio = _; rw [ha]; rfl
  · show t.cyc = _; rw [hc, List.length_cons]; show s.cyc + 1 + _ = _; omega

theorem ticks_still (n : Nat) (s : State) : ReadStill s (ticks n s) := by
  induction n generalizing s with
  | zero => exact .refl s
  | succ n ih => exact (clockDevices_still s).trans (ih _)

theorem dmcFetch_still (s : State) : ReadStill s (dmcFetch s) := by
  have h := dmcLoadSample_kept ((s.cart.cpuRead s.apu.dmc.curAddr).getD s.busLatch) s.apu.dmc
  exact ⟨rfl, rfl, rfl, .refl _, withDmc_kept _ _ ⟨h.irqEnable, h.loop, h.period, h.addr, h.len⟩, rfl, rfl, rfl, rfl,
    rfl, id, fun _ => rfl, ⟨[], rfl, rfl⟩⟩

theorem serviceDmcStall_still (s : State) : ReadStill s (serviceDmcStall s) := by
  unfold serviceDmcStall
  split
  · exact (ticks_still 4 s).trans (dmcFetch_still _)
  · exact .refl s

theorem endCycle_still (s : State) : ReadStill s (endCycle s) :=
  (nmiEdgeDetect_still s).trans (serviceDmcStall_still _)

theorem readDecode_still (a : Word) (s : State) : ReadStill s (readDecode a s).2 := by
  unfold readDecode
  simp only
  split_ifs
  · exact .refl s
  · exact ⟨rfl, rfl, Cartridge.observe_unobserved _ _ _, ppuRegRead_still _ _ _ _, .refl _, rfl, rfl, rfl, rfl, rfl, id,
      fun _ => rfl, ⟨[], rfl, rfl⟩⟩
  · exact ⟨rfl, rfl, rfl, .refl _, apuStatusRead_kept s.busLatch _, rfl, rfl, rfl, rfl, rfl, id,
      fun _ => rfl, ⟨[], rfl, rfl⟩⟩
  · exact ⟨rfl, rfl, rfl, .refl _, .refl _, rfl, rfl, rfl, rfl, rfl, id, fun _ => rfl, ⟨[], rfl, rfl⟩⟩
  · exact ⟨rfl, rfl, rfl, .refl _, .refl _, rfl, rfl, rfl, rfl, rfl, id, fun _ => rfl, ⟨[], rfl, rfl⟩⟩
  · exact .refl s
  · exact .refl s

theorem readAccess_still (a : Word) (s : State) : ReadStill s (readAccess a s).2 :=
  (readDecode_still a s).trans ⟨rfl, rfl, rfl, .refl _, .refl _, rfl, rfl, rfl, rfl, rfl, id, fun _ => rfl, ⟨[], rfl, rfl⟩⟩

/-- A read cycle writes nothing. -/
theorem memRead_still (a : Word) (s : State) : ReadStill s (memRead a s).2 := by
  unfold memRead
  split
  · exact ((clockDevices_still s).trans (readAccess_still a _)).trans (endCycle_still _)
  · exact ((readAccess_still a s).trans (clockDevices_still _)).trans (endCycle_still _)

/-- A dummy read writes nothing, whichever way it is taken. -/
theorem dummyRead_still (a : Word) (s : State) : ReadStill s (dummyRead a s) := by
  unfold dummyRead
  split
  · exact memRead_still a s
  · exact clockDevices_still s

theorem ReadStill.peek {s t : State} (h : ReadStill s t) (a : Word) : peek a t = peek a s := by
  unfold Machine.peek
  rw [h.ram, Cartridge.cpuRead_congr h.cart]

theorem ReadStill.plain {s t : State} (h : ReadStill s t) {a : Word} (k : Plain a s) : Plain a t := k.congr h.cart

/-- The mapper drives nothing below $4020 (R82). -/
theorem Cartridge.cpuRead_low (c : Cartridge) {a : Word} (h : a.toNat < 0x4020) : c.cpuRead a = none := by
  unfold Cartridge.cpuRead
  rw [if_pos h]

/-- A read of a plain address returns what RAM or the cartridge answers (R77, R82). -/
theorem readAccess_plain (a : Word) (s : State) (h : Plain a s) : (readAccess a s).1 = peek a s := by
  unfold Plain driven at h
  simp only [Bool.or_eq_true, decide_eq_true_eq] at h
  unfold readAccess readDecode peek
  by_cases h1 : a.toNat < 0x2000
  · simp only [h1, if_true]
  · have hs := h.resolve_left h1
    have h6 : ¬ a.toNat < 0x4020 := fun k => by rw [s.cart.cpuRead_low k] at hs; cases hs
    have h2 : ¬ a.toNat < 0x4000 := by omega
    have h3 : ¬ a.toNat = 0x4015 := by omega
    have h4 : ¬ a.toNat = 0x4016 := by omega
    have h5 : ¬ a.toNat = 0x4017 := by omega
    simp only [h1, h2, h3, h4, h5, h6, if_false]
    obtain ⟨b, hb⟩ := Option.isSome_iff_exists.1 hs
    rw [hb]
    rfl

/-- A read cycle at a plain address returns the byte that stands there. -/
theorem memRead_plain (a : Word) (s : State) (h : Plain a s) : (memRead a s).1 = peek a s := by
  unfold memRead
  split
  · have k := clockDevices_still s
    simp only
    rw [readAccess_plain a _ (k.plain h), k.peek]
  · exact readAccess_plain a s h

/-! The number of cycles. -/

theorem nmiEdgeDetect_cyc (s : State) : (nmiEdgeDetect s).cyc = s.cyc := rfl

theorem ppuDot_cyc (s : State) : (ppuDot s).cyc = s.cyc := rfl

/-- A cycle is one cycle. -/
theorem clockDevices_cyc (s : State) : (clockDevices s).cyc = s.cyc + 1 := rfl

theorem ticks_cyc (n : Nat) (s : State) : (ticks n s).cyc = s.cyc + n := by
  induction n generalizing s with
  | zero => rfl
  | succ n ih =>
    show (ticks n (tick s)).cyc = _
    rw [ih]
    show s.cyc + 1 + n = s.cyc + (n + 1)
    omega

theorem dmcTimerClock_fetch (d : Dmc) :
    (dmcTimerClock d).bytesRemaining = d.bytesRemaining ∧ (dmcTimerClock d).stallRequest = d.stallRequest := by
  unfold dmcTimerClock
  simp only
  split_ifs <;> exact ⟨rfl, rfl⟩

theorem timerClocks_dmc (a : Apu) : (timerClocks a).dmc = dmcTimerClock a.dmc := by
  unfold timerClocks
  simp only
  split <;> rfl

theorem frameCounterStep_dmc (a : Apu) : (frameCounterStep a).dmc = a.dmc := by
  unfold frameCounterStep
  simp only
  split_ifs <;> rfl

theorem apuTick_dmc (a : Apu) : (apuTick a).dmc = dmcRequest (dmcTimerClock a.dmc) := by
  have h : (timerClocks (frameCounterStep { a with parity := !a.parity })).dmc = dmcTimerClock a.dmc := by
    rw [timerClocks_dmc, frameCounterStep_dmc]
  unfold apuTick
  generalize timerClocks (frameCounterStep { a with parity := !a.parity }) = b at h
  show dmcRequest b.dmc = _
  rw [h]

/-- While no byte is left to fetch, a tick asks for none. -/
theorem apuTick_idle {a : Apu} (h1 : a.dmc.bytesRemaining = 0) (h2 : a.dmc.stallRequest = false) :
    (apuTick a).dmc.bytesRemaining = 0 ∧ (apuTick a).dmc.stallRequest = false := by
  obtain ⟨e1, e2⟩ := dmcTimerClock_fetch a.dmc
  rw [apuTick_dmc]
  unfold dmcRequest
  simp [e1, e2, h1, h2]

theorem nmiEdgeDetect_idle {s : State} (h : DmcIdle s) : DmcIdle (nmiEdgeDetect s) := h

theorem ppuDot_apu (s : State) : (ppuDot s).apu = s.apu := rfl

theorem clockDevices_apu (s : State) : (clockDevices s).apu = apuTick s.apu := rfl

theorem clockDevices_idle {s : State} (h : DmcIdle s) : DmcIdle (clockDevices s) := by
  unfold DmcIdle
  rw [clockDevices_apu]
  exact apuTick_idle h.1 h.2

theorem ticks_idle (n : Nat) {s : State} (h : DmcIdle s) : DmcIdle (ticks n s) := by
  induction n generalizing s with
  | zero => exact h
  | succ n ih => exact ih (clockDevices_idle h)

/-- With the DMC idle no cycle is stolen. -/
theorem endCycle_idle {s : State} (h : DmcIdle s) : endCycle s = nmiEdgeDetect s := by
  unfold endCycle serviceDmcStall
  have : (nmiEdgeDetect s).apu.dmc.stallRequest = false := h.2
  rw [this]
  rfl

theorem readDecode_idle (a : Word) {s : State} (h : DmcIdle s) : DmcIdle (readDecode a s).2 := by
  unfold readDecode
  simp only
  split_ifs <;> exact h

theorem readDecode_cyc (a : Word) (s : State) : (readDecode a s).2.cyc = s.cyc := by
  unfold readDecode
  simp only
  split_ifs <;> rfl

theorem readAccess_idle (a : Word) {s : State} (h : DmcIdle s) : DmcIdle (readAccess a s).2 := readDecode_idle a h

theorem readAccess_cyc (a : Word) (s : State) : (readAccess a s).2.cyc = s.cyc := readDecode_cyc a s

/-- A read cycle with the DMC idle is one cycle and leaves it idle. -/
theorem memRead_idle (a : Word) {s : State} (h : DmcIdle s) :
    DmcIdle (memRead a s).2 ∧ (memRead a s).2.cyc = s.cyc + 1 := by
  unfold memRead
  split
  · have h1 := readAccess_idle a (clockDevices_idle h)
    simp only
    rw [endCycle_idle h1]
    exact ⟨h1, by rw [nmiEdgeDetect_cyc, readAccess_cyc, clockDevices_cyc]⟩
  · have h1 := clockDevices_idle (readAccess_idle a h)
    simp only
    rw [endCycle_idle h1]
    exact ⟨h1, by rw [nmiEdgeDetect_cyc, clockDevices_cyc, readAccess_cyc]⟩

theorem dummyRead_idle (a : Word) {s : State} (h : DmcIdle s) :
    DmcIdle (dummyRead a s) ∧ (dummyRead a s).cyc = s.cyc + 1 := by
  unfold dummyRead
  split
  · exact memRead_idle a h
  · exact ⟨clockDevices_idle h, clockDevices_cyc s⟩

/-! The edge detector has seen the line as it is at the end of every cycle (R73 to R76, R312). -/

theorem clockDevices_edge (s : State) : (clockDevices s).nmiLinePrev = nmiOut (clockDevices s).ppu := rfl

theorem ticks_edge (n : Nat) {s : State} (h : s.nmiLinePrev = nmiOut s.ppu) :
    (ticks n s).nmiLinePrev = nmiOut (ticks n s).ppu := by
  induction n generalizing s with
  | zero => exact h
  | succ n ih => exact ih (clockDevices_edge s)

theorem endCycle_edge (s : State) : (endCycle s).nmiLinePrev = nmiOut (endCycle s).ppu := by
  unfold endCycle serviceDmcStall
  split
  · exact ticks_edge 4 (s := nmiEdgeDetect s) rfl
  · rfl

theorem memRead_edge (a : Word) (s : State) : (memRead a s).2.nmiLinePrev = nmiOut (memRead a s).2.ppu := by
  unfold memRead
  split <;> exact endCycle_edge _

theorem writeCycle_edge (a : Word) (v : Byte) (s : State) :
    (writeCycle a v s).nmiLinePrev = nmiOut (writeCycle a v s).ppu := by
  unfold writeCycle
  split <;> exact endCycle_edge _

theorem oamCopy_edge (h : Byte) (n i : Nat) {s : State} (k : s.nmiLinePrev = nmiOut s.ppu) :
    (oamCopy h n i s).nmiLinePrev = nmiOut (oamCopy h n i s).ppu := by
  induction n generalizing i s with
  | zero => exact k
  | succ n ih => exact ih (i + 1) (writeCycle_edge _ _ _)

theorem memWrite_edge (a : Word) (v : Byte) (s : State) :
    (memWrite a v s).nmiLinePrev = nmiOut (memWrite a v s).ppu := by
  unfold memWrite
  simp only
  split
  · exact oamCopy_edge v 256 0 (ticks_edge _ (writeCycle_edge a v s))
  · exact writeCycle_edge a v s

end Sys2Proof.Machine
end

