-- ==== Sys2Proof/Laws/Store.lean ====
section
/-! SUPPORT. What a write cycle changes: RAM at its address, or the register of a device it names; OAM DMA writes OAM
and nothing else. -/

namespace Sys2Proof.Machine

/-- Everything but the CPU and RAM is as time and the side effects of reads leave it. -/
structure BusStill (s t : State) : Prop where
  cart : t.cart.unobserved = s.cart.unobserved
  ppu : PpuStill s.ppu t.ppu
  apu : ApuKept s.apu t.apu
  strobe : t.pads.strobe = s.pads.strobe
  pad0 : t.pads.pad0 = s.pads.pad0
  pad1 : t.pads.pad1 = s.pads.pad1
  params : t.params = s.params
  resetPending : t.resetPending = s.resetPending
  nmiLatch : s.nmiLatch = true → t.nmiLatch = true
  quiet : bit s.ppu.ctrl 7 = false → t.nmiLatch = s.nmiLatch
  time : TimePassed s t

theorem BusStill.refl (s : State) : BusStill s s :=
  ⟨rfl, .refl _, .refl _, rfl, rfl, rfl, rfl, rfl, id, fun _ => rfl, ⟨[], rfl, rfl⟩⟩

theorem BusStill.trans {s t u : State} (h : BusStill s t) (k : BusStill t u) : BusStill s u :=
  ⟨k.cart.trans h.cart, h.ppu.trans k.ppu, h.apu.trans k.apu,
   k.strobe.trans h.strobe, k.pad0.trans h.pad0, k.pad1.trans h.pad1, k.params.trans h.params,
   k.resetPending.trans h.resetPending, fun e => k.nmiLatch (h.nmiLatch e),
   fun e => (k.quiet (by rw [h.ppu.regs.ctrl]; exact e)).trans (h.quiet e), h.time.trans k.time⟩

theorem ReadStill.bus {s t : State} (h : ReadStill s t) : BusStill s t :=
  ⟨h.cart, h.ppu, h.apu, h.strobe, h.pad0, h.pad1, h.params, h.resetPending, h.nmiLatch, h.quiet,
   h.time⟩

theorem BusStill.never {s t : State} (h : BusStill s t) : NeverChanged s t :=
  ⟨h.params, Cartridge.board_congr h.cart, Cartridge.mapper_congr h.cart, h.pad0, h.pad1, h.resetPending, h.nmiLatch,
   h.time⟩

theorem BusStill.devices {s t : State} (h : BusStill s t) : DevicesKept s t :=
  ⟨h.never, h.quiet, h.cart, ppuMemRead_congr h.cart h.ppu.vram h.ppu.palette, fun k => by rw [h.ppu.oam], h.ppu.regs, h.apu, h.strobe⟩

/-- What a write of `v` to `ea` and the time it takes leave. -/
structure WriteStill (ea : Word) (v : Byte) (s t : State) : Prop where
  cpu : t.cpu = s.cpu
  ram : t.ram = if ea.toNat < 0x2000 then s.ram.set (ea.toNat % 0x800) v else s.ram
  never : NeverChanged s t
  quiet : ¬ (0x2000 ≤ ea.toNat ∧ ea.toNat < 0x4000) → bit s.ppu.ctrl 7 = false → t.nmiLatch = s.nmiLatch
  cart : ¬ IsPpuReg 7 ea → KeepsBanks ea s → t.cart.unobserved = s.cart.unobserved
  banks : ea.toNat < 0x4020 → t.cart.regs = s.cart.regs
  ppuRam : ¬ IsPpuReg 7 ea → t.cart.chr = s.cart.chr ∧ t.ppu.vram = s.ppu.vram ∧ t.ppu.palette = s.ppu.palette
  oam : ¬ IsPpuReg 4 ea → ea ≠ 0x4014 → t.ppu.oam = s.ppu.oam
  ppuRegs : ¬ (0x2000 ≤ ea.toNat ∧ ea.toNat < 0x4000) → PpuRegsKept s.ppu t.ppu
  apuRegs : ¬ IsApuReg ea → ApuKept s.apu t.apu
  strobe : ea ≠ 0x4016 → t.pads.strobe = s.pads.strobe

theorem WriteStill.after {ea : Word} {v : Byte} {s t u : State} (h : ReadStill s t) (k : WriteStill ea v t u) :
    WriteStill ea v s u where
  cpu := k.cpu.trans h.cpu
  ram := by rw [k.ram, h.ram]
  never := h.bus.never.trans k.never
  quiet := fun n e => (k.quiet n (by rw [h.ppu.regs.ctrl]; exact e)).trans (h.quiet e)
  cart := fun n m => (k.cart n (m.imp_right (Cartridge.mapper_congr h.cart).trans)).trans h.cart
  banks := fun n => (k.banks n).trans (Cartridge.regs_congr h.cart)
  ppuRam := fun n => by
    obtain ⟨h1, h2, h3⟩ := k.ppuRam n
    exact ⟨h1.trans (Cartridge.chr_congr h.cart), h2.trans h.ppu.vram, h3.trans h.ppu.palette⟩
  oam := fun n m => (k.oam n m).trans h.ppu.oam
  ppuRegs := fun n => h.ppu.regs.trans (k.ppuRegs n)
  apuRegs := fun n => h.apu.trans (k.apuRegs n)
  strobe := fun n => (k.strobe n).trans h.strobe

theorem WriteStill.before {ea : Word} {v : Byte} {s t u : State} (h : WriteStill ea v s t) (k : ReadStill t u) :
    WriteStill ea v s u where
  cpu := k.cpu.trans h.cpu
  ram := by rw [k.ram, h.ram]
  never := h.never.trans k.bus.never
  quiet := fun n e => (k.quiet (by rw [(h.ppuRegs n).ctrl]; exact e)).trans (h.quiet n e)
  cart := fun n m => k.cart.trans (h.cart n m)
  banks := fun n => (Cartridge.regs_congr k.cart).trans (h.banks n)
  ppuRam := fun n => by
    obtain ⟨h1, h2, h3⟩ := h.ppuRam n
    exact ⟨(Cartridge.chr_congr k.cart).trans h1, k.ppu.vram.trans h2, k.ppu.palette.trans h3⟩
  oam := fun n m => k.ppu.oam.trans (h.oam n m)
  ppuRegs := fun n => (h.ppuRegs n).trans k.ppu.regs
  apuRegs := fun n => (h.apuRegs n).trans k.apu
  strobe := fun n => k.strobe.trans (h.strobe n)

/-! The registers of the PPU. -/

/-- A write to a register of the PPU changes CHR-RAM of the cartridge at most. -/
theorem ppuRegWrite_wiring (c : Cartridge) (r : Nat) (v : Byte) (p : Ppu) :
    (ppuRegWrite c r v p).1 = { c with chr := (ppuRegWrite c r v p).1.chr } := by
  unfold ppuRegWrite
  split <;> try rfl
  unfold dataWrite ppuMemWrite Cartridge.ppuWrite
  simp only
  split_ifs <;> rfl

/-- Only $2007 writes PPU memory. -/
theorem ppuRegWrite_mem (c : Cartridge) (r : Nat) (v : Byte) (p : Ppu) (h : r ≠ 7) :
    (ppuRegWrite c r v p).1 = c ∧ (ppuRegWrite c r v p).2.vram = p.vram ∧ (ppuRegWrite c r v p).2.palette = p.palette := by
  unfold ppuRegWrite
  split
  · exact ⟨rfl, rfl, rfl⟩
  · exact ⟨rfl, rfl, rfl⟩
  · exact ⟨rfl, rfl, rfl⟩
  · exact ⟨rfl, rfl, rfl⟩
  · refine ⟨rfl, ?_⟩
    unfold scrollWrite
    simp only
    split <;> exact ⟨rfl, rfl⟩
  · refine ⟨rfl, ?_⟩
    unfold addrWrite
    simp only
    split <;> exact ⟨rfl, rfl⟩
  · exact absurd rfl h
  · exact ⟨rfl, rfl, rfl⟩

/-- Only $2004 writes OAM. -/
theorem ppuRegWrite_oam (c : Cartridge) (r : Nat) (v : Byte) (p : Ppu) (h : r ≠ 4) :
    (ppuRegWrite c r v p).2.oam = p.oam := by
  unfold ppuRegWrite
  split
  · rfl
  · rfl
  · rfl
  · exact absurd rfl h
  · unfold scrollWrite
    simp only
    split <;> rfl
  · unfold addrWrite
    simp only
    split <;> rfl
  · unfold dataWrite ppuMemWrite incV
    simp only
    split_ifs <;> rfl
  · rfl

/-- What an access leaves that is no write to the PPU and that the cartridge does not see. -/
theorem WriteStill.device {a : Word} {v : Byte} {s : State} (t : State) (h1 : 0x2000 ≤ a.toNat)
    (hr : t = { s with busLatch := t.busLatch, apu := t.apu, pads := t.pads })
    (hp : t.pads.pad0 = s.pads.pad0 ∧ t.pads.pad1 = s.pads.pad1) (ha : ¬ IsApuReg a → ApuKept s.apu t.apu)
    (hs : a ≠ 0x4016 → t.pads.strobe = s.pads.strobe) : WriteStill a v s t := by
  rw [hr] at hp ha hs ⊢
  exact ⟨rfl, (if_neg (by omega)).symm, ⟨rfl, rfl, rfl, hp.1, hp.2, rfl, id, ⟨[], rfl, rfl⟩⟩, fun _ _ => rfl,
    fun _ _ => rfl, fun _ => rfl, fun _ => ⟨rfl, rfl, rfl⟩, fun _ _ => rfl, fun _ => .refl _, ha, hs⟩

theorem padWrite_pads (v : Byte) (c : Controllers) : (padWrite v c).pad0 = c.pad0 ∧ (padWrite v c).pad1 = c.pad1 := by
  unfold padWrite
  split <;> exact ⟨rfl, rfl⟩

/-- The access of a write cycle. -/
theorem writeAccess_still (a : Word) (v : Byte) (s : State) : WriteStill a v s (writeAccess a v s) := by
  unfold writeAccess writeDecode
  simp only
  split_ifs with h1 h2 h3 h4 h5 h6 h7
  · exact ⟨rfl, by simp [h1], ⟨rfl, rfl, rfl, rfl, rfl, rfl, id, ⟨[], rfl, rfl⟩⟩, fun _ _ => rfl, fun _ _ => rfl,
      fun _ => rfl, fun _ => ⟨rfl, rfl, rfl⟩, fun _ _ => rfl, fun _ => .refl _, fun _ => .refl _, fun _ => rfl⟩
  · have hw := ppuRegWrite_wiring s.cart (a.toNat % 8) v s.ppu
    have ho : ∀ d : Cartridge, (d.observe s.cyc (writeBusAddrs (a.toNat % 8) v s.ppu)).unobserved = d.unobserved :=
      Cartridge.observe_unobserved _ _
    refine ⟨rfl, by simp [h1], ⟨rfl, ?_, ?_, rfl, rfl, rfl, id, ⟨[], rfl, rfl⟩⟩, fun n => absurd ⟨by omega, h2⟩ n,
      fun n _ => ?_, fun _ => ?_, fun n => ?_, fun n _ => ?_,
      fun n => absurd ⟨by omega, h2⟩ n, fun _ => .refl _, fun _ => rfl⟩
    · exact (Cartridge.board_congr (ho _)).trans (by rw [hw])
    · exact (Cartridge.mapper_congr (ho _)).trans (by rw [hw])
    · exact (ho _).trans (by rw [(ppuRegWrite_mem s.cart _ v s.ppu (fun e => n ⟨by omega, h2, e⟩)).1])
    · exact (Cartridge.regs_congr (ho _)).trans (by rw [hw])
    · obtain ⟨m1, m2⟩ := ppuRegWrite_mem s.cart _ v s.ppu (fun e => n ⟨by omega, h2, e⟩)
      exact ⟨(Cartridge.chr_congr (ho _)).trans (by rw [m1]), m2⟩
    · exact ppuRegWrite_oam s.cart _ v s.ppu (fun e => n ⟨by omega, h2, e⟩)
  · exact .device _ (by omega) rfl ⟨rfl, rfl⟩ (fun n => absurd ⟨by omega, by omega, by omega, by omega⟩ n) (fun _ => rfl)
  · exact .device _ (by omega) rfl ⟨rfl, rfl⟩ (fun n => absurd ⟨by omega, by omega, by omega, by omega⟩ n) (fun _ => rfl)
  · exact .device _ (by omega) rfl (padWrite_pads v s.pads) (fun _ => .refl _)
      (fun n => absurd (BitVec.eq_of_toNat_eq h5) n)
  · exact .device _ (by omega) rfl ⟨rfl, rfl⟩ (fun n => absurd ⟨by omega, by omega, by omega, by omega⟩ n) (fun _ => rfl)
  · exact .device _ (by omega) rfl ⟨rfl, rfl⟩ (fun _ => .refl _) (fun _ => rfl)
  · refine ⟨rfl, by simp [h1], ⟨rfl, rfl, rfl, rfl, rfl, rfl, id, ⟨[], rfl, rfl⟩⟩, fun _ _ => rfl, fun _ m => ?_,
      fun n => absurd n h7, fun _ => ⟨rfl, rfl, rfl⟩, fun _ _ => rfl, fun _ => .refl _, fun _ => .refl _, fun _ => rfl⟩
    exact congrArg _ (Cartridge.cpuWrite_nrom (m.resolve_left h7) a v)

/-- A write cycle. -/
theorem writeCycle_still (a : Word) (v : Byte) (s : State) : WriteStill a v s (writeCycle a v s) := by
  unfold writeCycle
  split
  · exact ((writeAccess_still a v _).after (clockDevices_still s)).before (endCycle_still _)
  · exact (writeAccess_still a v s).before ((clockDevices_still _).trans (endCycle_still _))

/-- What OAM DMA leaves: everything but OAM is as time and reads leave it. -/
structure DmaStill (s t : State) : Prop where
  cpu : t.cpu = s.cpu
  ram : t.ram = s.ram
  cart : t.cart.unobserved = s.cart.unobserved
  vram : t.ppu.vram = s.ppu.vram
  palette : t.ppu.palette = s.ppu.palette
  regs : PpuRegsKept s.ppu t.ppu
  apu : ApuKept s.apu t.apu
  strobe : t.pads.strobe = s.pads.strobe
  never : NeverChanged s t
  quiet : bit s.ppu.ctrl 7 = false → t.nmiLatch = s.nmiLatch

theorem DmaStill.trans {s t u : State} (h : DmaStill s t) (k : DmaStill t u) : DmaStill s u :=
  ⟨k.cpu.trans h.cpu, k.ram.trans h.ram, k.cart.trans h.cart, k.vram.trans h.vram, k.palette.trans h.palette,
   h.regs.trans k.regs, h.apu.trans k.apu, k.strobe.trans h.strobe, h.never.trans k.never,
   fun e => (k.quiet (by rw [h.regs.ctrl]; exact e)).trans (h.quiet e)⟩

theorem ReadStill.dma {s t : State} (h : ReadStill s t) : DmaStill s t :=
  ⟨h.cpu, h.ram, h.cart, h.ppu.vram, h.ppu.palette, h.ppu.regs, h.apu, h.strobe, h.bus.never, h.quiet⟩

/-- A write of $2004 changes none of the registers only a write changes. -/
theorem writeCycle_oamData (v : Byte) (s : State) : DmaStill s (writeCycle 0x2004 v s) := by
  have acc : ∀ s : State, DmaStill s (writeAccess 0x2004 v s) := by
    intro s
    have k := writeAccess_still 0x2004 v s
    obtain ⟨m1, m2, m3⟩ := k.ppuRam (by unfold IsPpuReg; decide)
    exact ⟨k.cpu, k.ram, k.cart (by unfold IsPpuReg; decide) (.inl (by decide)), m2, m3, ⟨rfl, rfl, rfl, rfl⟩,
      k.apuRegs (by unfold IsApuReg; decide), k.strobe (by decide), k.never, fun _ => rfl⟩
  unfold writeCycle
  split
  · exact ((clockDevices_still s).dma.trans (acc _)).trans (endCycle_still _).dma
  · exact ((acc s).trans (clockDevices_still _).dma).trans (endCycle_still _).dma

theorem oamCopy_still (h : Byte) (n i : Nat) (s : State) : DmaStill s (oamCopy h n i s) := by
  induction n generalizing i s with
  | zero => exact (ReadStill.refl s).dma
  | succ n ih =>
    unfold oamCopy
    exact ((memRead_still _ s).dma.trans (writeCycle_oamData _ _)).trans (ih _ _)

theorem oamDma_still (h : Byte) (s : State) : DmaStill s (oamDma h s) :=
  (ticks_still _ s).dma.trans (oamCopy_still h 256 0 _)

/-- A store of `v` to `a`, with the OAM DMA it may start. -/
theorem memWrite_still (a : Word) (v : Byte) (s : State) : WriteStill a v s (memWrite a v s) := by
  unfold memWrite
  simp only
  split
  · next he =>
    subst he
    have k := writeCycle_still 0x4014 v s
    have d := oamDma_still v (writeCycle 0x4014 v s)
    refine ⟨d.cpu.trans k.cpu, d.ram.trans k.ram, k.never.trans d.never,
      fun n e => (d.quiet (by rw [(k.ppuRegs n).ctrl]; exact e)).trans (k.quiet n e), fun n m => d.cart.trans (k.cart n m),
      fun n => (Cartridge.regs_congr d.cart).trans (k.banks n), fun n => ?_, fun _ n => absurd rfl n,
      fun n => (k.ppuRegs n).trans d.regs, fun n => (k.apuRegs n).trans d.apu, fun n => d.strobe.trans (k.strobe n)⟩
    obtain ⟨m1, m2, m3⟩ := k.ppuRam n
    exact ⟨(Cartridge.chr_congr d.cart).trans m1, d.vram.trans m2, d.palette.trans m3⟩
  · exact writeCycle_still a v s

/-- What the CPU reads of the cartridge depends on its board, its mapper and the mapper's registers alone. -/
theorem Cartridge.cpuRead_of {c d : Cartridge} (hb : d.toBoard = c.toBoard) (hm : d.mapper = c.mapper)
    (hr : d.regs = c.regs) (a : Word) : d.cpuRead a = c.cpuRead a := by
  unfold Cartridge.cpuRead Cartridge.logic
  rw [hb, hm, hr]

/-- Where a store keeps the banks, the cartridge shows the CPU the same bytes after it. -/
theorem WriteStill.cpuRead {ea : Word} {v : Byte} {s t : State} (h : WriteStill ea v s t) (hk : KeepsBanks ea s)
    (a : Word) : t.cart.cpuRead a = s.cart.cpuRead a := by
  rcases hk with hk | hk
  · exact Cartridge.cpuRead_of h.never.board h.never.mapper (h.banks hk) a
  · rw [Cartridge.cpuRead_nrom hk, Cartridge.cpuRead_nrom (h.never.mapper.trans hk), h.never.board]

/-- Where a byte of RAM or of the cartridge reads from after a store (R77). -/
theorem WriteStill.peek {ea : Word} {v : Byte} {s t : State} (h : WriteStill ea v s t)
    (hw : Memory.wf 0x800 s.ram = true) (a : Word) (hk : a.toNat < 0x2000 ∨ KeepsBanks ea s)
    [Decidable (SameRam ea a)] : peek a t = if SameRam ea a then v else peek a s := by
  unfold Machine.peek
  rw [h.ram]
  by_cases ha : a.toNat < 0x2000
  · simp only [ha, if_true]
    by_cases he : ea.toNat < 0x2000
    · simp only [he, if_true]
      rw [Memory.get_set 0x800 _ _ _ _ hw]
      by_cases hm : a.toNat % 0x800 = ea.toNat % 0x800
      · rw [if_pos hm, if_pos ⟨he, ha, hm.symm⟩]
      · rw [if_neg hm, if_neg (fun k : SameRam ea a => hm k.2.2.symm)]
    · simp only [he, if_false]
      rw [if_neg (fun k : SameRam ea a => he k.1)]
  · simp only [ha, if_false]
    rw [if_neg (fun k : SameRam ea a => ha k.2.1), h.cpuRead (hk.resolve_left ha)]

/-- A store in the terms of claims. -/
theorem WriteStill.storedAt {ea : Word} {v : Byte} {s t : State} (h : WriteStill ea v s t)
    (hw : Memory.wf 0x800 s.ram = true) : StoredAt ea v s t := by
  classical
  refine ⟨fun he => ?_, fun a ha hk => ?_, h.never, h.quiet, h.cart, fun n m => ?_, h.ppuRam, fun n m => ?_, h.ppuRegs,
    h.apuRegs, h.strobe⟩
  · rw [h.peek hw ea (.inl he), if_pos ⟨he, he, rfl⟩]
  · rw [h.peek hw a hk, if_neg ha]
  · obtain ⟨-, m2, m3⟩ := h.ppuRam n
    exact ppuMemRead_congr (h.cart n m) m2 m3
  · exact fun k => by rw [h.oam n m]

/-- RAM stays canonical. -/
theorem WriteStill.ramWf {ea : Word} {v : Byte} {s t : State} (h : WriteStill ea v s t)
    (hw : Memory.wf 0x800 s.ram = true) : Memory.wf 0x800 t.ram = true := by
  rw [h.ram]
  split
  · exact Memory.wf_set _ _ _ _ hw (Nat.mod_lt _ (by decide))
  · exact hw

/-- A store to RAM changes no device. -/
theorem WriteStill.bus {ea : Word} {v : Byte} {s t : State} (h : WriteStill ea v s t) (he : ea.toNat < 0x2000) :
    BusStill s t := by
  obtain ⟨-, m2, m3⟩ := h.ppuRam (fun k => by have := k.1; omega)
  have m1 := h.cart (fun k => by have := k.1; omega) (.inl (by omega))
  have hn : ∀ w : Word, 0x2000 ≤ w.toNat → ea ≠ w := fun w hw e => by rw [e] at he; omega
  exact ⟨m1, ⟨h.oam (fun k => by have := k.1; omega) (hn _ (by decide)), m2, m3, h.ppuRegs (by omega)⟩,
    h.apuRegs (fun k => by have := k.1; omega), h.strobe (hn _ (by decide)), h.never.pad0, h.never.pad1,
    h.never.params, h.never.resetPending, h.never.nmiLatch, h.quiet (by omega), h.never.time⟩

/-! The number of cycles of a store, and the idle DMC. -/

theorem writeDecode_cyc (a : Word) (v : Byte) (s : State) : (writeDecode a v s).cyc = s.cyc := by
  unfold writeDecode
  simp only
  split_ifs <;> rfl

theorem apuRegWrite_idle (r : Nat) (v : Byte) (a : Apu) :
    (apuRegWrite r v a).dmc.bytesRemaining = a.dmc.bytesRemaining
    ∧ (apuRegWrite r v a).dmc.stallRequest = a.dmc.stallRequest := by
  unfold apuRegWrite
  split
  · exact ⟨rfl, rfl⟩
  · exact ⟨rfl, rfl⟩
  · exact ⟨rfl, rfl⟩
  · exact ⟨rfl, rfl⟩
  · show (dmcWrite _ v a.dmc).bytesRemaining = _ ∧ (dmcWrite _ v a.dmc).stallRequest = _
    unfold dmcWrite
    split <;> exact ⟨rfl, rfl⟩
  · exact ⟨rfl, rfl⟩

theorem frameCounterWrite_dmc (v : Byte) (a : Apu) : (frameCounterWrite v a).dmc = a.dmc := by
  unfold frameCounterWrite
  simp only
  split <;> rfl

/-- Only a write of $4015 can make the DMC fetch again. -/
theorem writeAccess_idle (a : Word) (v : Byte) {s : State} (h : DmcIdle s) (ha : a ≠ 0x4015) :
    DmcIdle (writeAccess a v s) := by
  unfold writeAccess writeDecode
  simp only
  split_ifs with h1 h2 h3 h4 h5 h6 h7
  · exact h
  · exact h
  · obtain ⟨e1, e2⟩ := apuRegWrite_idle (a.toNat - 0x4000) v s.apu
    exact ⟨e1.trans h.1, e2.trans h.2⟩
  · exact absurd (BitVec.eq_of_toNat_eq h4) ha
  · exact h
  · show (frameCounterWrite v s.apu).dmc.bytesRemaining = 0 ∧ (frameCounterWrite v s.apu).dmc.stallRequest = false
    rw [frameCounterWrite_dmc]
    exact h
  · exact h
  · exact h

theorem writeCycle_idle (a : Word) (v : Byte) {s : State} (h : DmcIdle s) (ha : a ≠ 0x4015) :
    DmcIdle (writeCycle a v s) ∧ (writeCycle a v s).cyc = s.cyc + 1 := by
  unfold writeCycle
  split
  · have k := writeAccess_idle a v (clockDevices_idle h) ha
    rw [endCycle_idle k]
    exact ⟨k, by rw [nmiEdgeDetect_cyc]; unfold writeAccess; rw [writeDecode_cyc]; rfl⟩
  · have k := clockDevices_idle (writeAccess_idle a v h ha)
    rw [endCycle_idle k]
    exact ⟨k, by rw [nmiEdgeDetect_cyc, clockDevices_cyc]; unfold writeAccess; rw [writeDecode_cyc]⟩

/-- A store that starts neither OAM DMA nor the DMC is one cycle. -/
theorem memWrite_idle (a : Word) (v : Byte) {s : State} (h : DmcIdle s) (ha : a ≠ 0x4015) (hb : a ≠ 0x4014) :
    DmcIdle (memWrite a v s) ∧ (memWrite a v s).cyc = s.cyc + 1 := by
  unfold memWrite
  simp only [hb, if_false]
  exact writeCycle_idle a v h ha

theorem oamCopy_idle (h : Byte) (n i : Nat) {s : State} (k : DmcIdle s) :
    DmcIdle (oamCopy h n i s) ∧ (oamCopy h n i s).cyc = s.cyc + 2 * n := by
  induction n generalizing i s with
  | zero => exact ⟨k, rfl⟩
  | succ n ih =>
    unfold oamCopy
    simp only
    obtain ⟨k1, c1⟩ := memRead_idle (word h (BitVec.ofNat 8 i)) k
    obtain ⟨k2, c2⟩ := writeCycle_idle 0x2004 (memRead (word h (BitVec.ofNat 8 i)) s).1 k1 (by decide)
    obtain ⟨k3, c3⟩ := ih (i + 1) k2
    exact ⟨k3, by rw [c3, c2, c1]; omega⟩

/-- R90: 513 cycles, 514 from an odd cycle. -/
theorem oamDma_idle (h : Byte) {s : State} (k : DmcIdle s) :
    DmcIdle (oamDma h s) ∧ (oamDma h s).cyc = s.cyc + 513 + s.cyc % 2 := by
  unfold oamDma
  obtain ⟨k1, c1⟩ := oamCopy_idle h 256 0 (ticks_idle (1 + s.cyc % 2) k)
  exact ⟨k1, by rw [c1, ticks_cyc]; omega⟩

end Sys2Proof.Machine
end

