-- ==== Sys2Proof/Laws/BusInv.lean ====
section
/-! SUPPORT. Every bus cycle keeps `Inv`. -/

namespace Sys2Proof.Machine

/-- `Inv` but for the edge detector, which an access upsets until the end of its cycle. -/
structure PreInv (s : State) : Prop where
  ram : Memory.wf 0x800 s.ram = true
  ppu : PpuInv s.ppu
  apu : ApuInv s.apu
  cart : CartInv s.cart

theorem Inv.pre {s : State} (h : Inv s) : PreInv s := ⟨h.ram, h.ppu, h.apu, h.cart⟩

/-- `Inv` does not read the CPU. -/
theorem Inv.withCpu {s : State} (h : Inv s) (c : Cpu) : Inv { s with cpu := c } := ⟨h.ram, h.ppu, h.apu, h.cart, h.edge⟩

theorem nmiEdgeDetect_inv {s : State} (h : PreInv s) : Inv (nmiEdgeDetect s) := ⟨h.ram, h.ppu, h.apu, h.cart, rfl⟩

theorem ppuDot_inv {s : State} (h : PreInv s) : Inv (ppuDot s) :=
  nmiEdgeDetect_inv (s := { s with cart := s.cart.observe s.cyc (dotBusAddrs s.ppu), ppu := ppuTick s.cart s.ppu })
    ⟨h.ram, ppuTick_inv _ h.ppu, h.apu, h.cart.congr (Cartridge.observe_unobserved _ _ _)⟩

theorem clockDevices_inv {s : State} (h : PreInv s) : Inv (clockDevices s) := by
  have h0 : PreInv { s with cyc := s.cyc + 1 } := ⟨h.ram, h.ppu, h.apu, h.cart⟩
  have h3 := ppuDot_inv (ppuDot_inv (ppuDot_inv h0).pre).pre
  unfold clockDevices
  simp only
  generalize ppuDot (ppuDot (ppuDot { s with cyc := s.cyc + 1 })) = t at h3
  exact ⟨h3.ram, h3.ppu, apuTick_inv h3.apu, h3.cart, h3.edge⟩

theorem tick_inv {s : State} (h : Inv s) : Inv (tick s) := clockDevices_inv h.pre

theorem ticks_inv (n : Nat) {s : State} (h : Inv s) : Inv (ticks n s) := by
  induction n generalizing s with
  | zero => exact h
  | succ n ih => exact ih (tick_inv h)

theorem dmcFetch_inv {s : State} (h : Inv s) : Inv (dmcFetch s) := by
  have k := dmcLoadSample_inv ((s.cart.cpuRead s.apu.dmc.curAddr).getD s.busLatch) h.apu.units.dmc
  exact ⟨h.ram, h.ppu,
    UnitsInv.apu ⟨h.apu.lfsr, ⟨k.rate, k.bits, k.sampleLen, k.remaining⟩, h.apu.length1, h.apu.length2, h.apu.length3,
      h.apu.length4⟩ h.apu.frame h.apu.sample, h.cart, h.edge⟩

theorem endCycle_inv {s : State} (h : PreInv s) : Inv (endCycle s) := by
  have k := nmiEdgeDetect_inv h
  unfold endCycle serviceDmcStall
  split
  · exact dmcFetch_inv (ticks_inv 4 k)
  · exact k

theorem readAccess_inv (a : Word) {s : State} (h : PreInv s) : PreInv (readAccess a s).2 := by
  unfold readAccess readDecode
  simp only
  split_ifs
  · exact ⟨h.ram, h.ppu, h.apu, h.cart⟩
  · exact ⟨h.ram, ppuRegRead_inv _ _ _ h.ppu, h.apu, h.cart.congr (Cartridge.observe_unobserved _ _ _)⟩
  · exact ⟨h.ram, h.ppu, apuStatusRead_inv s.busLatch h.apu, h.cart⟩
  · exact ⟨h.ram, h.ppu, h.apu, h.cart⟩
  · exact ⟨h.ram, h.ppu, h.apu, h.cart⟩
  · exact ⟨h.ram, h.ppu, h.apu, h.cart⟩
  · exact ⟨h.ram, h.ppu, h.apu, h.cart⟩

theorem writeAccess_inv (a : Word) (v : Byte) {s : State} (h : PreInv s) : PreInv (writeAccess a v s) := by
  unfold writeAccess writeDecode
  simp only
  split_ifs
  · exact ⟨Memory.wf_set _ _ _ _ h.ram (Nat.mod_lt _ (by decide)), h.ppu, h.apu, h.cart⟩
  · obtain ⟨k1, k2⟩ := ppuRegWrite_inv (a.toNat % 8) v h.ppu h.cart
    exact ⟨h.ram, k2, h.apu, k1.congr (Cartridge.observe_unobserved _ _ _)⟩
  · exact ⟨h.ram, h.ppu, apuRegWrite_inv _ v h.apu, h.cart⟩
  · exact ⟨h.ram, h.ppu, apuStatusWrite_inv v h.apu, h.cart⟩
  · exact ⟨h.ram, h.ppu, h.apu, h.cart⟩
  · exact ⟨h.ram, h.ppu, frameCounterWrite_inv v h.apu, h.cart⟩
  · exact ⟨h.ram, h.ppu, h.apu, h.cart⟩
  · exact ⟨h.ram, h.ppu, h.apu, h.cart.prg, h.cart.chr⟩

/-- A read cycle keeps `Inv`. -/
theorem memRead_inv (a : Word) {s : State} (h : Inv s) : Inv (memRead a s).2 := by
  unfold memRead
  split
  · exact endCycle_inv (readAccess_inv a (clockDevices_inv h.pre).pre)
  · exact endCycle_inv (clockDevices_inv (readAccess_inv a h.pre)).pre

/-- A write cycle keeps `Inv`. -/
theorem writeCycle_inv (a : Word) (v : Byte) {s : State} (h : Inv s) : Inv (writeCycle a v s) := by
  unfold writeCycle
  split
  · exact endCycle_inv (writeAccess_inv a v (clockDevices_inv h.pre).pre)
  · exact endCycle_inv (clockDevices_inv (writeAccess_inv a v h.pre)).pre

theorem oamCopy_inv (h : Byte) (n i : Nat) {s : State} (k : Inv s) : Inv (oamCopy h n i s) := by
  induction n generalizing i s with
  | zero => exact k
  | succ n ih =>
    unfold oamCopy
    exact ih _ (writeCycle_inv _ _ (memRead_inv _ k))

theorem oamDma_inv (h : Byte) {s : State} (k : Inv s) : Inv (oamDma h s) := oamCopy_inv h 256 0 (ticks_inv _ k)

/-- A store keeps `Inv`. -/
theorem memWrite_inv (a : Word) (v : Byte) {s : State} (h : Inv s) : Inv (memWrite a v s) := by
  unfold memWrite
  simp only
  split
  · exact oamDma_inv v (writeCycle_inv a v h)
  · exact writeCycle_inv a v h

theorem dummyRead_inv (a : Word) {s : State} (h : Inv s) : Inv (dummyRead a s) := by
  unfold dummyRead
  split
  · exact memRead_inv a h
  · exact tick_inv h

theorem dummyWrite_inv (a : Word) (v : Byte) {s : State} (h : Inv s) : Inv (dummyWrite a v s) := by
  unfold dummyWrite
  split
  · exact memWrite_inv a v h
  · exact tick_inv h

end Sys2Proof.Machine
end

