-- ==== Sys2Proof/Laws/State.lean ====
section
/-! SUPPORT. What each update of a CPU register or flag leaves in each field of the state; true by rfl, but for `pPull`, which is six of them. -/

namespace Sys2Proof.Machine

@[simp] theorem setA_cpu (v : Byte) (s : State) : (setA v s).cpu = { s.cpu with a := v } := rfl
@[simp] theorem setA_nmiLatch (v : Byte) (s : State) : (setA v s).nmiLatch = s.nmiLatch := rfl
@[simp] theorem setA_nmiLinePrev (v : Byte) (s : State) : (setA v s).nmiLinePrev = s.nmiLinePrev := rfl
@[simp] theorem setA_resetPending (v : Byte) (s : State) : (setA v s).resetPending = s.resetPending := rfl
@[simp] theorem setA_cyc (v : Byte) (s : State) : (setA v s).cyc = s.cyc := rfl
@[simp] theorem setA_busLatch (v : Byte) (s : State) : (setA v s).busLatch = s.busLatch := rfl
@[simp] theorem setA_ram (v : Byte) (s : State) : (setA v s).ram = s.ram := rfl
@[simp] theorem setA_ppu (v : Byte) (s : State) : (setA v s).ppu = s.ppu := rfl
@[simp] theorem setA_apu (v : Byte) (s : State) : (setA v s).apu = s.apu := rfl
@[simp] theorem setA_pads (v : Byte) (s : State) : (setA v s).pads = s.pads := rfl
@[simp] theorem setA_cart (v : Byte) (s : State) : (setA v s).cart = s.cart := rfl
@[simp] theorem setA_audio (v : Byte) (s : State) : (setA v s).audio = s.audio := rfl
@[simp] theorem setA_params (v : Byte) (s : State) : (setA v s).params = s.params := rfl

@[simp] theorem setX_cpu (v : Byte) (s : State) : (setX v s).cpu = { s.cpu with x := v } := rfl
@[simp] theorem setX_nmiLatch (v : Byte) (s : State) : (setX v s).nmiLatch = s.nmiLatch := rfl
@[simp] theorem setX_nmiLinePrev (v : Byte) (s : State) : (setX v s).nmiLinePrev = s.nmiLinePrev := rfl
@[simp] theorem setX_resetPending (v : Byte) (s : State) : (setX v s).resetPending = s.resetPending := rfl
@[simp] theorem setX_cyc (v : Byte) (s : State) : (setX v s).cyc = s.cyc := rfl
@[simp] theorem setX_busLatch (v : Byte) (s : State) : (setX v s).busLatch = s.busLatch := rfl
@[simp] theorem setX_ram (v : Byte) (s : State) : (setX v s).ram = s.ram := rfl
@[simp] theorem setX_ppu (v : Byte) (s : State) : (setX v s).ppu = s.ppu := rfl
@[simp] theorem setX_apu (v : Byte) (s : State) : (setX v s).apu = s.apu := rfl
@[simp] theorem setX_pads (v : Byte) (s : State) : (setX v s).pads = s.pads := rfl
@[simp] theorem setX_cart (v : Byte) (s : State) : (setX v s).cart = s.cart := rfl
@[simp] theorem setX_audio (v : Byte) (s : State) : (setX v s).audio = s.audio := rfl
@[simp] theorem setX_params (v : Byte) (s : State) : (setX v s).params = s.params := rfl

@[simp] theorem setY_cpu (v : Byte) (s : State) : (setY v s).cpu = { s.cpu with y := v } := rfl
@[simp] theorem setY_nmiLatch (v : Byte) (s : State) : (setY v s).nmiLatch = s.nmiLatch := rfl
@[simp] theorem setY_nmiLinePrev (v : Byte) (s : State) : (setY v s).nmiLinePrev = s.nmiLinePrev := rfl
@[simp] theorem setY_resetPending (v : Byte) (s : State) : (setY v s).resetPending = s.resetPending := rfl
@[simp] theorem setY_cyc (v : Byte) (s : State) : (setY v s).cyc = s.cyc := rfl
@[simp] theorem setY_busLatch (v : Byte) (s : State) : (setY v s).busLatch = s.busLatch := rfl
@[simp] theorem setY_ram (v : Byte) (s : State) : (setY v s).ram = s.ram := rfl
@[simp] theorem setY_ppu (v : Byte) (s : State) : (setY v s).ppu = s.ppu := rfl
@[simp] theorem setY_apu (v : Byte) (s : State) : (setY v s).apu = s.apu := rfl
@[simp] theorem setY_pads (v : Byte) (s : State) : (setY v s).pads = s.pads := rfl
@[simp] theorem setY_cart (v : Byte) (s : State) : (setY v s).cart = s.cart := rfl
@[simp] theorem setY_audio (v : Byte) (s : State) : (setY v s).audio = s.audio := rfl
@[simp] theorem setY_params (v : Byte) (s : State) : (setY v s).params = s.params := rfl

@[simp] theorem setS_cpu (v : Byte) (s : State) : (setS v s).cpu = { s.cpu with s := v } := rfl
@[simp] theorem setS_nmiLatch (v : Byte) (s : State) : (setS v s).nmiLatch = s.nmiLatch := rfl
@[simp] theorem setS_nmiLinePrev (v : Byte) (s : State) : (setS v s).nmiLinePrev = s.nmiLinePrev := rfl
@[simp] theorem setS_resetPending (v : Byte) (s : State) : (setS v s).resetPending = s.resetPending := rfl
@[simp] theorem setS_cyc (v : Byte) (s : State) : (setS v s).cyc = s.cyc := rfl
@[simp] theorem setS_busLatch (v : Byte) (s : State) : (setS v s).busLatch = s.busLatch := rfl
@[simp] theorem setS_ram (v : Byte) (s : State) : (setS v s).ram = s.ram := rfl
@[simp] theorem setS_ppu (v : Byte) (s : State) : (setS v s).ppu = s.ppu := rfl
@[simp] theorem setS_apu (v : Byte) (s : State) : (setS v s).apu = s.apu := rfl
@[simp] theorem setS_pads (v : Byte) (s : State) : (setS v s).pads = s.pads := rfl
@[simp] theorem setS_cart (v : Byte) (s : State) : (setS v s).cart = s.cart := rfl
@[simp] theorem setS_audio (v : Byte) (s : State) : (setS v s).audio = s.audio := rfl
@[simp] theorem setS_params (v : Byte) (s : State) : (setS v s).params = s.params := rfl

@[simp] theorem setPc_cpu (v : Word) (s : State) : (setPc v s).cpu = { s.cpu with pc := v } := rfl
@[simp] theorem setPc_nmiLatch (v : Word) (s : State) : (setPc v s).nmiLatch = s.nmiLatch := rfl
@[simp] theorem setPc_nmiLinePrev (v : Word) (s : State) : (setPc v s).nmiLinePrev = s.nmiLinePrev := rfl
@[simp] theorem setPc_resetPending (v : Word) (s : State) : (setPc v s).resetPending = s.resetPending := rfl
@[simp] theorem setPc_cyc (v : Word) (s : State) : (setPc v s).cyc = s.cyc := rfl
@[simp] theorem setPc_busLatch (v : Word) (s : State) : (setPc v s).busLatch = s.busLatch := rfl
@[simp] theorem setPc_ram (v : Word) (s : State) : (setPc v s).ram = s.ram := rfl
@[simp] theorem setPc_ppu (v : Word) (s : State) : (setPc v s).ppu = s.ppu := rfl
@[simp] theorem setPc_apu (v : Word) (s : State) : (setPc v s).apu = s.apu := rfl
@[simp] theorem setPc_pads (v : Word) (s : State) : (setPc v s).pads = s.pads := rfl
@[simp] theorem setPc_cart (v : Word) (s : State) : (setPc v s).cart = s.cart := rfl
@[simp] theorem setPc_audio (v : Word) (s : State) : (setPc v s).audio = s.audio := rfl
@[simp] theorem setPc_params (v : Word) (s : State) : (setPc v s).params = s.params := rfl

@[simp] theorem setN_cpu (v : Bool) (s : State) : (setN v s).cpu = { s.cpu with n := v } := rfl
@[simp] theorem setN_nmiLatch (v : Bool) (s : State) : (setN v s).nmiLatch = s.nmiLatch := rfl
@[simp] theorem setN_nmiLinePrev (v : Bool) (s : State) : (setN v s).nmiLinePrev = s.nmiLinePrev := rfl
@[simp] theorem setN_resetPending (v : Bool) (s : State) : (setN v s).resetPending = s.resetPending := rfl
@[simp] theorem setN_cyc (v : Bool) (s : State) : (setN v s).cyc = s.cyc := rfl
@[simp] theorem setN_busLatch (v : Bool) (s : State) : (setN v s).busLatch = s.busLatch := rfl
@[simp] theorem setN_ram (v : Bool) (s : State) : (setN v s).ram = s.ram := rfl
@[simp] theorem setN_ppu (v : Bool) (s : State) : (setN v s).ppu = s.ppu := rfl
@[simp] theorem setN_apu (v : Bool) (s : State) : (setN v s).apu = s.apu := rfl
@[simp] theorem setN_pads (v : Bool) (s : State) : (setN v s).pads = s.pads := rfl
@[simp] theorem setN_cart (v : Bool) (s : State) : (setN v s).cart = s.cart := rfl
@[simp] theorem setN_audio (v : Bool) (s : State) : (setN v s).audio = s.audio := rfl
@[simp] theorem setN_params (v : Bool) (s : State) : (setN v s).params = s.params := rfl

@[simp] theorem setV_cpu (v : Bool) (s : State) : (setV v s).cpu = { s.cpu with v := v } := rfl
@[simp] theorem setV_nmiLatch (v : Bool) (s : State) : (setV v s).nmiLatch = s.nmiLatch := rfl
@[simp] theorem setV_nmiLinePrev (v : Bool) (s : State) : (setV v s).nmiLinePrev = s.nmiLinePrev := rfl
@[simp] theorem setV_resetPending (v : Bool) (s : State) : (setV v s).resetPending = s.resetPending := rfl
@[simp] theorem setV_cyc (v : Bool) (s : State) : (setV v s).cyc = s.cyc := rfl
@[simp] theorem setV_busLatch (v : Bool) (s : State) : (setV v s).busLatch = s.busLatch := rfl
@[simp] theorem setV_ram (v : Bool) (s : State) : (setV v s).ram = s.ram := rfl
@[simp] theorem setV_ppu (v : Bool) (s : State) : (setV v s).ppu = s.ppu := rfl
@[simp] theorem setV_apu (v : Bool) (s : State) : (setV v s).apu = s.apu := rfl
@[simp] theorem setV_pads (v : Bool) (s : State) : (setV v s).pads = s.pads := rfl
@[simp] theorem setV_cart (v : Bool) (s : State) : (setV v s).cart = s.cart := rfl
@[simp] theorem setV_audio (v : Bool) (s : State) : (setV v s).audio = s.audio := rfl
@[simp] theorem setV_params (v : Bool) (s : State) : (setV v s).params = s.params := rfl

@[simp] theorem setD_cpu (v : Bool) (s : State) : (setD v s).cpu = { s.cpu with d := v } := rfl
@[simp] theorem setD_nmiLatch (v : Bool) (s : State) : (setD v s).nmiLatch = s.nmiLatch := rfl
@[simp] theorem setD_nmiLinePrev (v : Bool) (s : State) : (setD v s).nmiLinePrev = s.nmiLinePrev := rfl
@[simp] theorem setD_resetPending (v : Bool) (s : State) : (setD v s).resetPending = s.resetPending := rfl
@[simp] theorem setD_cyc (v : Bool) (s : State) : (setD v s).cyc = s.cyc := rfl
@[simp] theorem setD_busLatch (v : Bool) (s : State) : (setD v s).busLatch = s.busLatch := rfl
@[simp] theorem setD_ram (v : Bool) (s : State) : (setD v s).ram = s.ram := rfl
@[simp] theorem setD_ppu (v : Bool) (s : State) : (setD v s).ppu = s.ppu := rfl
@[simp] theorem setD_apu (v : Bool) (s : State) : (setD v s).apu = s.apu := rfl
@[simp] theorem setD_pads (v : Bool) (s : State) : (setD v s).pads = s.pads := rfl
@[simp] theorem setD_cart (v : Bool) (s : State) : (setD v s).cart = s.cart := rfl
@[simp] theorem setD_audio (v : Bool) (s : State) : (setD v s).audio = s.audio := rfl
@[simp] theorem setD_params (v : Bool) (s : State) : (setD v s).params = s.params := rfl

@[simp] theorem setI_cpu (v : Bool) (s : State) : (setI v s).cpu = { s.cpu with i := v } := rfl
@[simp] theorem setI_nmiLatch (v : Bool) (s : State) : (setI v s).nmiLatch = s.nmiLatch := rfl
@[simp] theorem setI_nmiLinePrev (v : Bool) (s : State) : (setI v s).nmiLinePrev = s.nmiLinePrev := rfl
@[simp] theorem setI_resetPending (v : Bool) (s : State) : (setI v s).resetPending = s.resetPending := rfl
@[simp] theorem setI_cyc (v : Bool) (s : State) : (setI v s).cyc = s.cyc := rfl
@[simp] theorem setI_busLatch (v : Bool) (s : State) : (setI v s).busLatch = s.busLatch := rfl
@[simp] theorem setI_ram (v : Bool) (s : State) : (setI v s).ram = s.ram := rfl
@[simp] theorem setI_ppu (v : Bool) (s : State) : (setI v s).ppu = s.ppu := rfl
@[simp] theorem setI_apu (v : Bool) (s : State) : (setI v s).apu = s.apu := rfl
@[simp] theorem setI_pads (v : Bool) (s : State) : (setI v s).pads = s.pads := rfl
@[simp] theorem setI_cart (v : Bool) (s : State) : (setI v s).cart = s.cart := rfl
@[simp] theorem setI_audio (v : Bool) (s : State) : (setI v s).audio = s.audio := rfl
@[simp] theorem setI_params (v : Bool) (s : State) : (setI v s).params = s.params := rfl

@[simp] theorem setZ_cpu (v : Bool) (s : State) : (setZ v s).cpu = { s.cpu with z := v } := rfl
@[simp] theorem setZ_nmiLatch (v : Bool) (s : State) : (setZ v s).nmiLatch = s.nmiLatch := rfl
@[simp] theorem setZ_nmiLinePrev (v : Bool) (s : State) : (setZ v s).nmiLinePrev = s.nmiLinePrev := rfl
@[simp] theorem setZ_resetPending (v : Bool) (s : State) : (setZ v s).resetPending = s.resetPending := rfl
@[simp] theorem setZ_cyc (v : Bool) (s : State) : (setZ v s).cyc = s.cyc := rfl
@[simp] theorem setZ_busLatch (v : Bool) (s : State) : (setZ v s).busLatch = s.busLatch := rfl
@[simp] theorem setZ_ram (v : Bool) (s : State) : (setZ v s).ram = s.ram := rfl
@[simp] theorem setZ_ppu (v : Bool) (s : State) : (setZ v s).ppu = s.ppu := rfl
@[simp] theorem setZ_apu (v : Bool) (s : State) : (setZ v s).apu = s.apu := rfl
@[simp] theorem setZ_pads (v : Bool) (s : State) : (setZ v s).pads = s.pads := rfl
@[simp] theorem setZ_cart (v : Bool) (s : State) : (setZ v s).cart = s.cart := rfl
@[simp] theorem setZ_audio (v : Bool) (s : State) : (setZ v s).audio = s.audio := rfl
@[simp] theorem setZ_params (v : Bool) (s : State) : (setZ v s).params = s.params := rfl

@[simp] theorem setC_cpu (v : Bool) (s : State) : (setC v s).cpu = { s.cpu with c := v } := rfl
@[simp] theorem setC_nmiLatch (v : Bool) (s : State) : (setC v s).nmiLatch = s.nmiLatch := rfl
@[simp] theorem setC_nmiLinePrev (v : Bool) (s : State) : (setC v s).nmiLinePrev = s.nmiLinePrev := rfl
@[simp] theorem setC_resetPending (v : Bool) (s : State) : (setC v s).resetPending = s.resetPending := rfl
@[simp] theorem setC_cyc (v : Bool) (s : State) : (setC v s).cyc = s.cyc := rfl
@[simp] theorem setC_busLatch (v : Bool) (s : State) : (setC v s).busLatch = s.busLatch := rfl
@[simp] theorem setC_ram (v : Bool) (s : State) : (setC v s).ram = s.ram := rfl
@[simp] theorem setC_ppu (v : Bool) (s : State) : (setC v s).ppu = s.ppu := rfl
@[simp] theorem setC_apu (v : Bool) (s : State) : (setC v s).apu = s.apu := rfl
@[simp] theorem setC_pads (v : Bool) (s : State) : (setC v s).pads = s.pads := rfl
@[simp] theorem setC_cart (v : Bool) (s : State) : (setC v s).cart = s.cart := rfl
@[simp] theorem setC_audio (v : Bool) (s : State) : (setC v s).audio = s.audio := rfl
@[simp] theorem setC_params (v : Bool) (s : State) : (setC v s).params = s.params := rfl

@[simp] theorem setNZ_cpu (v : Byte) (s : State) : (setNZ v s).cpu = { s.cpu with n := bit v 7, z := v == 0 } := rfl
@[simp] theorem setNZ_nmiLatch (v : Byte) (s : State) : (setNZ v s).nmiLatch = s.nmiLatch := rfl
@[simp] theorem setNZ_nmiLinePrev (v : Byte) (s : State) : (setNZ v s).nmiLinePrev = s.nmiLinePrev := rfl
@[simp] theorem setNZ_resetPending (v : Byte) (s : State) : (setNZ v s).resetPending = s.resetPending := rfl
@[simp] theorem setNZ_cyc (v : Byte) (s : State) : (setNZ v s).cyc = s.cyc := rfl
@[simp] theorem setNZ_busLatch (v : Byte) (s : State) : (setNZ v s).busLatch = s.busLatch := rfl
@[simp] theorem setNZ_ram (v : Byte) (s : State) : (setNZ v s).ram = s.ram := rfl
@[simp] theorem setNZ_ppu (v : Byte) (s : State) : (setNZ v s).ppu = s.ppu := rfl
@[simp] theorem setNZ_apu (v : Byte) (s : State) : (setNZ v s).apu = s.apu := rfl
@[simp] theorem setNZ_pads (v : Byte) (s : State) : (setNZ v s).pads = s.pads := rfl
@[simp] theorem setNZ_cart (v : Byte) (s : State) : (setNZ v s).cart = s.cart := rfl
@[simp] theorem setNZ_audio (v : Byte) (s : State) : (setNZ v s).audio = s.audio := rfl
@[simp] theorem setNZ_params (v : Byte) (s : State) : (setNZ v s).params = s.params := rfl

@[simp] theorem pPull_cpu (v : Byte) (s : State) :
    (pPull v s).cpu = { s.cpu with n := bit v 7, v := bit v 6, d := bit v 3, i := bit v 2, z := bit v 1, c := bit v 0 } := by
  simp only [pPull, setN_cpu, setV_cpu, setD_cpu, setI_cpu, setZ_cpu, setC_cpu]
@[simp] theorem pPull_nmiLatch (v : Byte) (s : State) : (pPull v s).nmiLatch = s.nmiLatch := by
  simp only [pPull, setN_nmiLatch, setV_nmiLatch, setD_nmiLatch, setI_nmiLatch, setZ_nmiLatch, setC_nmiLatch]
@[simp] theorem pPull_nmiLinePrev (v : Byte) (s : State) : (pPull v s).nmiLinePrev = s.nmiLinePrev := by
  simp only [pPull, setN_nmiLinePrev, setV_nmiLinePrev, setD_nmiLinePrev, setI_nmiLinePrev, setZ_nmiLinePrev, setC_nmiLinePrev]
@[simp] theorem pPull_resetPending (v : Byte) (s : State) : (pPull v s).resetPending = s.resetPending := by
  simp only [pPull, setN_resetPending, setV_resetPending, setD_resetPending, setI_resetPending, setZ_resetPending, setC_resetPending]
@[simp] theorem pPull_cyc (v : Byte) (s : State) : (pPull v s).cyc = s.cyc := by
  simp only [pPull, setN_cyc, setV_cyc, setD_cyc, setI_cyc, setZ_cyc, setC_cyc]
@[simp] theorem pPull_busLatch (v : Byte) (s : State) : (pPull v s).busLatch = s.busLatch := by
  simp only [pPull, setN_busLatch, setV_busLatch, setD_busLatch, setI_busLatch, setZ_busLatch, setC_busLatch]
@[simp] theorem pPull_ram (v : Byte) (s : State) : (pPull v s).ram = s.ram := by
  simp only [pPull, setN_ram, setV_ram, setD_ram, setI_ram, setZ_ram, setC_ram]
@[simp] theorem pPull_ppu (v : Byte) (s : State) : (pPull v s).ppu = s.ppu := by
  simp only [pPull, setN_ppu, setV_ppu, setD_ppu, setI_ppu, setZ_ppu, setC_ppu]
@[simp] theorem pPull_apu (v : Byte) (s : State) : (pPull v s).apu = s.apu := by
  simp only [pPull, setN_apu, setV_apu, setD_apu, setI_apu, setZ_apu, setC_apu]
@[simp] theorem pPull_pads (v : Byte) (s : State) : (pPull v s).pads = s.pads := by
  simp only [pPull, setN_pads, setV_pads, setD_pads, setI_pads, setZ_pads, setC_pads]
@[simp] theorem pPull_cart (v : Byte) (s : State) : (pPull v s).cart = s.cart := by
  simp only [pPull, setN_cart, setV_cart, setD_cart, setI_cart, setZ_cart, setC_cart]
@[simp] theorem pPull_audio (v : Byte) (s : State) : (pPull v s).audio = s.audio := by
  simp only [pPull, setN_audio, setV_audio, setD_audio, setI_audio, setZ_audio, setC_audio]
@[simp] theorem pPull_params (v : Byte) (s : State) : (pPull v s).params = s.params := by
  simp only [pPull, setN_params, setV_params, setD_params, setI_params, setZ_params, setC_params]

end Sys2Proof.Machine
end

