-- ==== Sys2Proof/Laws/Ops.lean ====
section
/-! SUPPORT. One set of laws for each operation an instruction is made of: what it does to the CPU, to RAM and to the
rest (`ReadStill`, `BusStill`, `WriteStill`), which byte it reads at a plain address, how many cycles it takes with
the DMC idle, and that it keeps `Inv`. -/

namespace Sys2Proof.Machine

/-- `ReadStill` with a different CPU in the end. -/
structure ReadTo (c : Cpu) (s t : State) : Prop where
  cpu : t.cpu = c
  ram : t.ram = s.ram
  bus : BusStill s t

theorem ReadStill.to {s t : State} (h : ReadStill s t) : ReadTo s.cpu s t := ⟨h.cpu, h.ram, h.bus⟩

theorem ReadTo.trans {c d : Cpu} {s t u : State} (h : ReadTo c s t) (k : ReadTo d t u) : ReadTo d s u :=
  ⟨k.cpu, k.ram.trans h.ram, h.bus.trans k.bus⟩

theorem ReadTo.then {c : Cpu} {s t u : State} (h : ReadTo c s t) (k : ReadStill t u) : ReadTo c s u :=
  ⟨k.cpu.trans h.cpu, k.ram.trans h.ram, h.bus.trans k.bus⟩

/-- Only the CPU changes. -/
theorem readTo_withCpu (c : Cpu) (s : State) : ReadTo c s { s with cpu := c } :=
  ⟨rfl, rfl, rfl, .refl _, .refl _, rfl, rfl, rfl, rfl, rfl, id, fun _ => rfl, ⟨[], rfl, rfl⟩⟩

theorem ReadTo.peek {c : Cpu} {s t : State} (h : ReadTo c s t) (a : Word) : peek a t = peek a s := by
  unfold Machine.peek
  rw [h.ram, Cartridge.cpuRead_congr h.bus.cart]

theorem ReadTo.plain {c : Cpu} {s t : State} (h : ReadTo c s t) {a : Word} (k : Plain a s) : Plain a t :=
  k.congr h.bus.cart

/-- An operation that stores nothing, in the terms of claims. -/
theorem ReadTo.nothingStored {c : Cpu} {s t : State} (h : ReadTo c s t) : NothingStored s t :=
  ⟨h.peek, h.bus.devices⟩

/-- A store after reads. -/
theorem StoredAt.after {c : Cpu} {ea : Word} {v : Byte} {s u t : State} (f : StoredAt ea v u t) (k : ReadTo c s u) :
    StoredAt ea v s t := by
  have d := k.bus.devices
  have hk : KeepsBanks ea s → KeepsBanks ea u := Or.imp_right (Cartridge.mapper_congr d.cart).trans
  refine ⟨f.stored, fun a ha m => (f.byte a ha (m.imp_right hk)).trans (k.peek a), d.never.trans f.never,
    fun n e => (f.quiet n (by rw [d.ppuRegs.ctrl]; exact e)).trans (d.quiet e), fun n m => (f.cart n (hk m)).trans d.cart,
    fun n m b => (f.ppuMem n (hk m) b).trans (d.ppuMem b), fun n => ?_, fun n m j => (f.oam n m j).trans (d.oam j),
    fun n => d.ppuRegs.trans (f.ppuRegs n), fun n => d.apuRegs.trans (f.apuRegs n),
    fun n => (f.strobe n).trans d.strobe⟩
  obtain ⟨x1, x2, x3⟩ := f.ppuRam n
  exact ⟨x1.trans (Cartridge.chr_congr d.cart), x2.trans k.bus.ppu.vram, x3.trans k.bus.ppu.palette⟩

/-- A store before reads. -/
theorem StoredAt.before {c : Cpu} {ea : Word} {v : Byte} {s u t : State} (f : StoredAt ea v s u) (k : ReadTo c u t) :
    StoredAt ea v s t := by
  have d := k.bus.devices
  refine ⟨fun h => (k.peek _).trans (f.stored h), fun a ha m => (k.peek a).trans (f.byte a ha m), f.never.trans d.never,
    fun n e => (d.quiet (by rw [(f.ppuRegs n).ctrl]; exact e)).trans (f.quiet n e), fun n m => d.cart.trans (f.cart n m),
    fun n m b => (d.ppuMem b).trans (f.ppuMem n m b), fun n => ?_, fun n m j => (d.oam j).trans (f.oam n m j),
    fun n => (f.ppuRegs n).trans d.ppuRegs, fun n => (f.apuRegs n).trans d.apuRegs,
    fun n => d.strobe.trans (f.strobe n)⟩
  obtain ⟨x1, x2, x3⟩ := f.ppuRam n
  exact ⟨(Cartridge.chr_congr d.cart).trans x1, k.bus.ppu.vram.trans x2, k.bus.ppu.palette.trans x3⟩

/-- What is not the CPU does not depend on it. -/
theorem withCpu_idle {s : State} (c : Cpu) (h : DmcIdle s) : DmcIdle { s with cpu := c } := h

/-! Fetching. -/

theorem fetch_to (s : State) : ReadTo { s.cpu with pc := s.cpu.pc + 1 } s (fetch s).2 := by
  have h := memRead_still s.cpu.pc s
  have e : (fetch s).2 = { (memRead s.cpu.pc s).2 with
      cpu := { (memRead s.cpu.pc s).2.cpu with pc := (memRead s.cpu.pc s).2.cpu.pc + 1 } } := rfl
  rw [e, h.cpu]
  exact h.to.trans (readTo_withCpu _ _)

theorem fetch_plain (s : State) (h : Plain s.cpu.pc s) : (fetch s).1 = peek s.cpu.pc s := memRead_plain _ s h

theorem fetch_idle {s : State} (h : DmcIdle s) : DmcIdle (fetch s).2 ∧ (fetch s).2.cyc = s.cyc + 1 :=
  memRead_idle s.cpu.pc h

theorem fetch_inv {s : State} (h : Inv s) : Inv (fetch s).2 := (memRead_inv s.cpu.pc h).withCpu _

theorem dummyFetch_still (s : State) : ReadStill s (dummyFetch s) := dummyRead_still _ s

theorem dummyFetch_idle {s : State} (h : DmcIdle s) : DmcIdle (dummyFetch s) ∧ (dummyFetch s).cyc = s.cyc + 1 :=
  dummyRead_idle _ h

theorem dummyFetch_inv {s : State} (h : Inv s) : Inv (dummyFetch s) := dummyRead_inv _ h

theorem fetchWord_to (s : State) : ReadTo { s.cpu with pc := s.cpu.pc + 2 } s (fetchWord s).2 := by
  have h1 := fetch_to s
  have h2 := fetch_to (fetch s).2
  have h := h1.trans h2
  rw [h1.cpu] at h
  have e : s.cpu.pc + 1 + 1 = s.cpu.pc + 2 := by bv_omega
  simp only [e] at h
  exact h

theorem fetchWord_plain (s : State) (h0 : Plain s.cpu.pc s) (h1 : Plain (s.cpu.pc + 1) s) :
    (fetchWord s).1 = word (peek (s.cpu.pc + 1) s) (peek s.cpu.pc s) := by
  have e : (fetch s).2.cpu.pc = s.cpu.pc + 1 := by rw [(fetch_to s).cpu]
  have k := fetch_plain (fetch s).2 (by rw [e]; exact (fetch_to s).plain h1)
  rw [e, (fetch_to s).peek] at k
  show word (fetch (fetch s).2).1 (fetch s).1 = _
  rw [k, fetch_plain s h0]

theorem fetchWord_idle {s : State} (h : DmcIdle s) : DmcIdle (fetchWord s).2 ∧ (fetchWord s).2.cyc = s.cyc + 2 := by
  obtain ⟨h1, c1⟩ := fetch_idle h
  obtain ⟨h2, c2⟩ := fetch_idle h1
  exact ⟨h2, by show (fetch (fetch s).2).2.cyc = _; rw [c2, c1]⟩

theorem fetchWord_inv {s : State} (h : Inv s) : Inv (fetchWord s).2 := fetch_inv (fetch_inv h)

/-! The stack. -/

theorem stackAddr_lt (s : State) : (stackAddr s).toNat < 0x2000 := by
  have : ∀ b : Byte, (word 0x01 b).toNat < 0x2000 := by decide +kernel
  exact this _

theorem stackAddr_plain (s : State) : Plain (stackAddr s) s := .ofRam s (stackAddr_lt s)

/-- `Push(v)` (R13): RAM takes `v` at the old stack address, S goes down by 1. -/
theorem push_spec (v : Byte) (s : State) :
    (push v s).cpu = { s.cpu with s := s.cpu.s - 1 }
    ∧ (push v s).ram = s.ram.set ((stackAddr s).toNat % 0x800) v ∧ BusStill s (push v s) := by
  have k := memWrite_still (stackAddr s) v s
  have b := k.bus (stackAddr_lt s)
  have e : push v s = { memWrite (stackAddr s) v s with
      cpu := { (memWrite (stackAddr s) v s).cpu with s := (memWrite (stackAddr s) v s).cpu.s - 1 } } := rfl
  refine ⟨by rw [e, k.cpu], ?_, ?_⟩
  · have := k.ram
    rw [if_pos (stackAddr_lt s)] at this
    exact this
  · rw [e]
    exact b.trans (readTo_withCpu _ _).bus

/-- What RAM and the cartridge read as after a push. -/
theorem push_peek (v : Byte) (s : State) (hw : Memory.wf 0x800 s.ram = true) (a : Word)
    [Decidable (SameRam (stackAddr s) a)] :
    peek a (push v s) = if SameRam (stackAddr s) a then v else peek a s :=
  (memWrite_still (stackAddr s) v s).peek hw a (.inr (.inl (lt_trans (stackAddr_lt s) (by decide))))

theorem push_ramWf (v : Byte) (s : State) (hw : Memory.wf 0x800 s.ram = true) :
    Memory.wf 0x800 (push v s).ram = true := (memWrite_still (stackAddr s) v s).ramWf hw

theorem push_idle (v : Byte) {s : State} (h : DmcIdle s) : DmcIdle (push v s) ∧ (push v s).cyc = s.cyc + 1 := by
  have hn : ∀ w : Word, 0x2000 ≤ w.toNat → stackAddr s ≠ w := fun w hw e => by
    have := stackAddr_lt s
    rw [e] at this
    omega
  exact memWrite_idle (stackAddr s) v h (hn _ (by decide)) (hn _ (by decide))

theorem push_inv (v : Byte) {s : State} (h : Inv s) : Inv (push v s) := (memWrite_inv _ v h).withCpu _

theorem prePull_to (s : State) : ReadTo { s.cpu with s := s.cpu.s + 1 } s (prePull s) := by
  have h := dummyRead_still (stackAddr s) s
  have e : prePull s = { dummyRead (stackAddr s) s with
      cpu := { (dummyRead (stackAddr s) s).cpu with s := (dummyRead (stackAddr s) s).cpu.s + 1 } } := rfl
  rw [e, h.cpu]
  exact h.to.trans (readTo_withCpu _ _)

theorem prePull_idle {s : State} (h : DmcIdle s) : DmcIdle (prePull s) ∧ (prePull s).cyc = s.cyc + 1 :=
  dummyRead_idle (stackAddr s) h

theorem prePull_inv {s : State} (h : Inv s) : Inv (prePull s) := (dummyRead_inv _ h).withCpu _

theorem readStack_still (s : State) : ReadStill s (readStack s).2 := memRead_still _ s

/-- A pull reads the stack page, which is RAM. -/
theorem readStack_value (s : State) : (readStack s).1 = peek (stackAddr s) s := memRead_plain _ s (stackAddr_plain s)

theorem readStack_idle {s : State} (h : DmcIdle s) : DmcIdle (readStack s).2 ∧ (readStack s).2.cyc = s.cyc + 1 :=
  memRead_idle _ h

theorem readStack_inv {s : State} (h : Inv s) : Inv (readStack s).2 := memRead_inv _ h

theorem pull_to (s : State) : ReadTo { s.cpu with s := s.cpu.s + 1 } s (pull s).2 := by
  have h := readStack_still s
  have e : (pull s).2 = { (readStack s).2 with
      cpu := { (readStack s).2.cpu with s := (readStack s).2.cpu.s + 1 } } := rfl
  rw [e, h.cpu]
  exact h.to.trans (readTo_withCpu _ _)

theorem pull_value (s : State) : (pull s).1 = peek (stackAddr s) s := readStack_value s

theorem pull_idle {s : State} (h : DmcIdle s) : DmcIdle (pull s).2 ∧ (pull s).2.cyc = s.cyc + 1 := readStack_idle h

theorem pull_inv {s : State} (h : Inv s) : Inv (pull s).2 := (readStack_inv h).withCpu _

theorem resetPush_to (s : State) : ReadTo { s.cpu with s := s.cpu.s - 1 } s (resetPush s) := by
  have h := dummyRead_still (stackAddr s) s
  have e : resetPush s = { dummyRead (stackAddr s) s with
      cpu := { (dummyRead (stackAddr s) s).cpu with s := (dummyRead (stackAddr s) s).cpu.s - 1 } } := rfl
  rw [e, h.cpu]
  exact h.to.trans (readTo_withCpu _ _)

theorem resetPush_idle {s : State} (h : DmcIdle s) : DmcIdle (resetPush s) ∧ (resetPush s).cyc = s.cyc + 1 :=
  dummyRead_idle (stackAddr s) h

theorem resetPush_inv {s : State} (h : Inv s) : Inv (resetPush s) := (dummyRead_inv _ h).withCpu _

/-! Exceptions. -/

theorem setI_setPc (v : Word) (b : Bool) (s : State) :
    setPc v (setI b s) = { s with cpu := { s.cpu with i := b, pc := v } } := rfl

/-- The address the last two cycles of an entry load (R83). -/
def vectorPc (vec : Word) (s : State) : Word := word (memRead (vec + 1) (memRead vec s).2).1 (memRead vec s).1

/-- The last two cycles of an entry. -/
theorem loadVector_to (vec : Word) (s : State) :
    ReadTo { s.cpu with i := true, pc := vectorPc vec s } s (loadVector vec s) := by
  have k := (memRead_still vec s).trans (memRead_still (vec + 1) (memRead vec s).2)
  unfold loadVector vectorPc
  simp only
  rw [setI_setPc, k.cpu]
  exact k.to.trans (readTo_withCpu _ _)

/-- Where the vector is plain the address is the one that stands there. -/
theorem vectorPc_plain (vec : Word) (s : State) (h0 : Plain vec s) (h1 : Plain (vec + 1) s) :
    vectorPc vec s = word (peek (vec + 1) s) (peek vec s) := by
  have k0 := memRead_still vec s
  unfold vectorPc
  rw [memRead_plain vec s h0, memRead_plain (vec + 1) _ (k0.plain h1), k0.peek]

theorem loadVector_idle (vec : Word) {s : State} (h : DmcIdle s) :
    DmcIdle (loadVector vec s) ∧ (loadVector vec s).cyc = s.cyc + 2 := by
  obtain ⟨h1, c1⟩ := memRead_idle vec h
  obtain ⟨h2, c2⟩ := memRead_idle (vec + 1) h1
  unfold loadVector
  simp only
  rw [setI_setPc]
  exact ⟨h2, by show (memRead (vec + 1) (memRead vec s).2).2.cyc = _; rw [c2, c1]⟩

theorem loadVector_inv (vec : Word) {s : State} (h : Inv s) : Inv (loadVector vec s) := by
  unfold loadVector
  simp only
  rw [setI_setPc]
  exact (memRead_inv _ (memRead_inv _ h)).withCpu _

theorem enterException_idle (b : Bool) (vec : Word) {s : State} (h : DmcIdle s) :
    DmcIdle (enterException b vec s) ∧ (enterException b vec s).cyc = s.cyc + 5 := by
  unfold enterException
  simp only
  obtain ⟨h1, c1⟩ := push_idle (hiByte s.cpu.pc) h
  generalize push (hiByte s.cpu.pc) s = s3 at h1 c1
  obtain ⟨h2, c2⟩ := push_idle (loByte s3.cpu.pc) h1
  generalize push (loByte s3.cpu.pc) s3 = s4 at h2 c2
  obtain ⟨h3, c3⟩ := push_idle (pPush b s4.cpu) h2
  generalize push (pPush b s4.cpu) s4 = s5 at h3 c3
  obtain ⟨h4, c4⟩ := loadVector_idle vec h3
  exact ⟨h4, by rw [c4, c3, c2, c1]⟩

theorem enterException_inv (b : Bool) (vec : Word) {s : State} (h : Inv s) : Inv (enterException b vec s) :=
  loadVector_inv vec (push_inv _ (push_inv _ (push_inv _ h)))

theorem interruptSequence_inv (vec : Word) {s : State} (h : Inv s) : Inv (interruptSequence vec s) :=
  enterException_inv false vec (dummyFetch_inv (dummyFetch_inv h))

theorem pPull_eq (v : Byte) (s : State) : pPull v s = { s with cpu := s.cpu.pulled v } := by
  unfold pPull setN setV setD setI setZ setC Cpu.pulled
  rfl

theorem returnFromException_inv {s : State} (h : Inv s) : Inv (returnFromException s) := by
  unfold returnFromException
  simp only
  have h1 := pull_inv (prePull_inv (dummyFetch_inv h))
  generalize pull (prePull (dummyFetch s)) = r at h1
  rw [pPull_eq]
  exact (readStack_inv (pull_inv (h1.withCpu _))).withCpu _

theorem resetSequence_inv {s : State} (h : Inv s) : Inv (resetSequence s) := by
  have h0 : Inv { s with resetPending := false, nmiLatch := false } := ⟨h.ram, h.ppu, h.apu, h.cart, h.edge⟩
  exact loadVector_inv _ (resetPush_inv (resetPush_inv (resetPush_inv (dummyFetch_inv (dummyFetch_inv h0)))))

theorem pollInterrupts_inv {s : State} (h : Inv s) : Inv (pollInterrupts s) := by
  have h0 : Inv { s with nmiLatch := false } := ⟨h.ram, h.ppu, h.apu, h.cart, h.edge⟩
  unfold pollInterrupts
  split_ifs
  · exact interruptSequence_inv _ h0
  · exact interruptSequence_inv _ h
  · exact h

end Sys2Proof.Machine
end

