-- ==== Sys2Proof/Laws/Operands.lean ====
section
/-! SUPPORT. The laws of the addressing modes and of read-modify-write: CPU, RAM and the rest, effective address, value
read, cycles, invariant. -/

namespace Sys2Proof.Machine

/-- The CPU after `n` instruction bytes more are fetched. -/
def Cpu.advanced (c : Cpu) (n : Nat) : Cpu := { c with pc := c.pc + BitVec.ofNat 16 n }

theorem zpage_plain (b : Byte) (s : State) : Plain (zext16 b) s := by
  have h : ∀ b : Byte, (zext16 b).toNat < 0x2000 := by decide +kernel
  exact .ofRam s (h b)

theorem zpAddr_to (s : State) : ReadTo (s.cpu.advanced 1) s (zpAddr s).2 := fetch_to s

theorem zpIndexed_to (idx : Byte) (s : State) : ReadTo (s.cpu.advanced 1) s (zpIndexed idx s).2 :=
  (fetch_to s).then (dummyRead_still _ _)

theorem zpPointer_still (p : Byte) (s : State) : ReadStill s (zpPointer p s).2 :=
  (memRead_still _ s).trans (memRead_still _ _)

theorem zpPointer_value (p : Byte) (s : State) : (zpPointer p s).1 = pointerAt p s := by
  have h0 := memRead_plain (zext16 p) s (zpage_plain p s)
  have h1 := memRead_plain (zext16 (p + 1)) (memRead (zext16 p) s).2 (zpage_plain _ _)
  rw [(memRead_still _ s).peek] at h1
  unfold zpPointer pointerAt
  simp only
  rw [h0, h1]

theorem izxAddr_to (s : State) : ReadTo (s.cpu.advanced 1) s (izxAddr s).2 :=
  ((fetch_to s).then (dummyRead_still _ _)).then (zpPointer_still _ _)

theorem izyBase_to (s : State) : ReadTo (s.cpu.advanced 1) s (izyBase s).2 := (fetch_to s).then (zpPointer_still _ _)

theorem readIndexed_still (base : Word) (idx : Byte) (s : State) : ReadStill s (readIndexed base idx s).2 := by
  unfold readIndexed
  simp only
  split
  · exact (memRead_still _ s).trans (memRead_still _ _)
  · exact memRead_still _ s

/-- The operand of an indexed read is the byte at `EA`. -/
theorem readIndexed_plain (base : Word) (idx : Byte) (s : State) (h : Plain (eaFix base idx) s) :
    (readIndexed base idx s).1 = peek (eaFix base idx) s := by
  unfold readIndexed
  simp only
  split
  · have k := memRead_still (eaNoFix base idx) s
    rw [memRead_plain _ _ (k.plain h), k.peek]
  · next hc =>
    unfold pageCross at hc
    simp only [bne_iff_ne, ne_eq, not_not] at hc
    rw [← hc]
    exact memRead_plain _ _ h

theorem readIndexed_idle (base : Word) (idx : Byte) {s : State} (h : DmcIdle s) :
    DmcIdle (readIndexed base idx s).2
    ∧ (readIndexed base idx s).2.cyc = s.cyc + 1 + (if pageCross base idx then 1 else 0) := by
  obtain ⟨h1, c1⟩ := memRead_idle (eaNoFix base idx) h
  unfold readIndexed
  simp only
  split
  · obtain ⟨h2, c2⟩ := memRead_idle (eaFix base idx) h1
    exact ⟨h2, by rw [c2, c1]⟩
  · exact ⟨h1, c1⟩

theorem readIndexed_inv (base : Word) (idx : Byte) {s : State} (h : Inv s) : Inv (readIndexed base idx s).2 := by
  unfold readIndexed
  simp only
  split
  · exact memRead_inv _ (memRead_inv _ h)
  · exact memRead_inv _ h

theorem advanced_x (c : Cpu) (n : Nat) : (c.advanced n).x = c.x := rfl

theorem advanced_y (c : Cpu) (n : Nat) : (c.advanced n).y = c.y := rfl

theorem fetchWord_advanced (s : State) : ReadTo (s.cpu.advanced 2) s (fetchWord s).2 := fetchWord_to s

/-! The operand of a read-class instruction. -/

/-- It stores nothing and moves PC past the operand bytes. -/
theorem readOperand_to (m : ReadMode) (s : State) :
    ReadTo (s.cpu.advanced (m.bytes - 1)) s (readOperand m s).2 := by
  cases m with
  | imm => exact fetch_to s
  | zp => exact (zpAddr_to s).then (memRead_still _ _)
  | zpx => exact (zpIndexed_to _ s).then (memRead_still _ _)
  | zpy => exact (zpIndexed_to _ s).then (memRead_still _ _)
  | abs => exact (fetchWord_advanced s).then (memRead_still _ _)
  | abx => exact (fetchWord_advanced s).then (readIndexed_still _ _ _)
  | aby => exact (fetchWord_advanced s).then (readIndexed_still _ _ _)
  | izx => exact (izxAddr_to s).then (memRead_still _ _)
  | izy => exact (izyBase_to s).then (readIndexed_still _ _ _)

theorem izxAddr_value (s : State) (h : Plain s.cpu.pc s) :
    (izxAddr s).1 = pointerAt (peek s.cpu.pc s + s.cpu.x) s := by
  have hp := fetch_plain s h
  have k := (fetch_to s).then (dummyRead_still (zext16 (fetch s).1) (fetch s).2)
  have hx : (fetch s).2.cpu.x = s.cpu.x := by rw [(fetch_to s).cpu]
  show (zpPointer _ _).1 = _
  rw [zpPointer_value]
  unfold pointerAt
  rw [k.peek, k.peek, hp, hx]

theorem izyBase_value (s : State) (h : Plain s.cpu.pc s) : (izyBase s).1 = pointerAt (peek s.cpu.pc s) s := by
  have hp := fetch_plain s h
  show (zpPointer _ _).1 = _
  rw [zpPointer_value]
  unfold pointerAt
  rw [(fetch_to s).peek, (fetch_to s).peek, hp]

/-- The operand is the byte at the effective address, where the operand bytes and that byte are plain. -/
theorem readOperand_plain (m : ReadMode) (s : State) (h : OperandsPlain m s) (he : Plain (effectiveAddr m s) s) :
    (readOperand m s).1 = peek (effectiveAddr m s) s := by
  obtain ⟨h0, h1⟩ := h
  have hp := fetch_plain s h0
  cases m with
  | imm => exact hp
  | zp =>
    show (memRead (zext16 (fetch s).1) (fetch s).2).1 = _
    rw [hp]
    exact (memRead_plain _ _ ((fetch_to s).plain he)).trans ((fetch_to s).peek _)
  | zpx =>
    show (memRead (zext16 ((fetch s).1 + s.cpu.x)) (zpIndexed s.cpu.x s).2).1 = _
    rw [hp]
    exact (memRead_plain _ _ ((zpIndexed_to _ s).plain he)).trans ((zpIndexed_to _ s).peek _)
  | zpy =>
    show (memRead (zext16 ((fetch s).1 + s.cpu.y)) (zpIndexed s.cpu.y s).2).1 = _
    rw [hp]
    exact (memRead_plain _ _ ((zpIndexed_to _ s).plain he)).trans ((zpIndexed_to _ s).peek _)
  | abs =>
    have hw := fetchWord_plain s h0 (h1 rfl)
    show (memRead (fetchWord s).1 (fetchWord s).2).1 = _
    rw [hw]
    exact (memRead_plain _ _ ((fetchWord_to s).plain he)).trans ((fetchWord_to s).peek _)
  | abx =>
    have hw := fetchWord_plain s h0 (h1 rfl)
    have hx : (fetchWord s).2.cpu.x = s.cpu.x := by rw [(fetchWord_to s).cpu]
    show (readIndexed (fetchWord s).1 (fetchWord s).2.cpu.x (fetchWord s).2).1 = _
    rw [hw, hx]
    exact (readIndexed_plain _ _ _ ((fetchWord_to s).plain he)).trans ((fetchWord_to s).peek _)
  | aby =>
    have hw := fetchWord_plain s h0 (h1 rfl)
    have hy : (fetchWord s).2.cpu.y = s.cpu.y := by rw [(fetchWord_to s).cpu]
    show (readIndexed (fetchWord s).1 (fetchWord s).2.cpu.y (fetchWord s).2).1 = _
    rw [hw, hy]
    exact (readIndexed_plain _ _ _ ((fetchWord_to s).plain he)).trans ((fetchWord_to s).peek _)
  | izx =>
    have hv := izxAddr_value s h0
    show (memRead (izxAddr s).1 (izxAddr s).2).1 = _
    rw [hv]
    exact (memRead_plain _ _ ((izxAddr_to s).plain he)).trans ((izxAddr_to s).peek _)
  | izy =>
    have hv := izyBase_value s h0
    have hy : (izyBase s).2.cpu.y = s.cpu.y := by rw [(izyBase_to s).cpu]; rfl
    show (readIndexed (izyBase s).1 (izyBase s).2.cpu.y (izyBase s).2).1 = _
    rw [hv, hy]
    exact (readIndexed_plain _ _ _ ((izyBase_to s).plain he)).trans ((izyBase_to s).peek _)

/-! The read cycle of a read-class instruction. -/

/-- An indexed read is a read cycle at `EA`, on a page crossing after a discarded one at `EA_nofix`. -/
theorem readIndexed_eq (base : Word) (idx : Byte) (s : State) :
    readIndexed base idx s
      = memRead (eaFix base idx) (if pageCross base idx then (memRead (eaNoFix base idx) s).2 else s) := by
  unfold readIndexed
  by_cases h : pageCross base idx = true
  · simp only [h, if_true]
  · have e : eaFix base idx = eaNoFix base idx := by simpa [pageCross] using h
    simp only [h, if_false, e, Bool.false_eq_true]

/-- The cycles before it store nothing. -/
theorem readAddr_nothingStored (m : ReadMode) (s : State) : NothingStored s (readAddr m s).2 := by
  have crossed : ∀ {c : Cpu} {t : State} (base : Word) (idx : Byte), ReadTo c s t →
      NothingStored s (if pageCross base idx then (memRead (eaNoFix base idx) t).2 else t) := by
    intro c t base idx k
    split
    · exact (k.then (memRead_still _ _)).nothingStored
    · exact k.nothingStored
  cases m with
  | imm => exact (ReadStill.refl s).to.nothingStored
  | zp => exact (zpAddr_to s).nothingStored
  | zpx => exact (zpIndexed_to _ s).nothingStored
  | zpy => exact (zpIndexed_to _ s).nothingStored
  | abs => exact (fetchWord_to s).nothingStored
  | abx => exact crossed _ _ (fetchWord_to s)
  | aby => exact crossed _ _ (fetchWord_to s)
  | izx => exact (izxAddr_to s).nothingStored
  | izy => exact crossed _ _ (izyBase_to s)

/-- The operand is what the read cycle at the effective address answers; that cycle is the last, and PC is then past the
operand bytes. -/
theorem readOperand_cycle (m : ReadMode) (s : State) :
    let r := memRead (readAddr m s).1 (readAddr m s).2
    readOperand m s = (r.1, { r.2 with cpu := s.cpu.advanced (m.bytes - 1) }) := by
  have same : ∀ {r : Byte × State}, readOperand m s = r → readOperand m s
      = (r.1, { r.2 with cpu := s.cpu.advanced (m.bytes - 1) }) := by
    intro r e
    have k := (readOperand_to m s).cpu
    rw [e] at k ⊢
    rw [← k]
  cases m with
  | imm =>
    show (_, setPc _ _) = _
    have k := (memRead_still s.cpu.pc s).cpu
    simp only [setPc, k]
    rfl
  | zp => exact same rfl
  | zpx => exact same rfl
  | zpy => exact same rfl
  | abs => exact same rfl
  | abx =>
    have e : (fetchWord s).2.cpu.x = s.cpu.x := by rw [(fetchWord_to s).cpu]
    exact same ((readIndexed_eq _ _ _).trans (by rw [e]; rfl))
  | aby =>
    have e : (fetchWord s).2.cpu.y = s.cpu.y := by rw [(fetchWord_to s).cpu]
    exact same ((readIndexed_eq _ _ _).trans (by rw [e]; rfl))
  | izx => exact same rfl
  | izy =>
    have e : (izyBase s).2.cpu.y = s.cpu.y := by rw [(izyBase_to s).cpu]; rfl
    exact same ((readIndexed_eq _ _ _).trans (by rw [e]; rfl))

/-- It goes to the effective address of the mode, where the operand bytes are plain. -/
theorem readAddr_plain (m : ReadMode) (s : State) (h : OperandsPlain m s) :
    (readAddr m s).1 = effectiveAddr m s := by
  obtain ⟨h0, h1⟩ := h
  have hp := fetch_plain s h0
  cases m with
  | imm => rfl
  | zp => show zext16 (fetch s).1 = _; rw [hp]; rfl
  | zpx => show zext16 ((fetch s).1 + s.cpu.x) = _; rw [hp]; rfl
  | zpy => show zext16 ((fetch s).1 + s.cpu.y) = _; rw [hp]; rfl
  | abs => exact fetchWord_plain s h0 (h1 rfl)
  | abx => show eaFix (fetchWord s).1 s.cpu.x = _; rw [fetchWord_plain s h0 (h1 rfl)]; rfl
  | aby => show eaFix (fetchWord s).1 s.cpu.y = _; rw [fetchWord_plain s h0 (h1 rfl)]; rfl
  | izx => exact izxAddr_value s h0
  | izy => show eaFix (izyBase s).1 s.cpu.y = _; rw [izyBase_value s h0]; rfl

theorem zpIndexed_idle (idx : Byte) {s : State} (h : DmcIdle s) :
    DmcIdle (zpIndexed idx s).2 ∧ (zpIndexed idx s).2.cyc = s.cyc + 2 := by
  obtain ⟨h1, c1⟩ := fetch_idle h
  obtain ⟨h2, c2⟩ := dummyRead_idle (zext16 (fetch s).1) h1
  exact ⟨h2, by show (dummyRead _ _).cyc = _; rw [c2, c1]⟩

theorem zpPointer_idle (p : Byte) {s : State} (h : DmcIdle s) :
    DmcIdle (zpPointer p s).2 ∧ (zpPointer p s).2.cyc = s.cyc + 2 := by
  obtain ⟨h1, c1⟩ := memRead_idle (zext16 p) h
  obtain ⟨h2, c2⟩ := memRead_idle (zext16 (p + 1)) h1
  exact ⟨h2, by show (memRead _ _).2.cyc = _; rw [c2, c1]⟩

theorem izxAddr_idle {s : State} (h : DmcIdle s) : DmcIdle (izxAddr s).2 ∧ (izxAddr s).2.cyc = s.cyc + 4 := by
  obtain ⟨h1, c1⟩ := fetch_idle h
  obtain ⟨h2, c2⟩ := dummyRead_idle (zext16 (fetch s).1) h1
  obtain ⟨h3, c3⟩ := zpPointer_idle ((fetch s).1 + (fetch s).2.cpu.x) h2
  exact ⟨h3, by show (zpPointer _ _).2.cyc = _; rw [c3, c2, c1]⟩

theorem izyBase_idle {s : State} (h : DmcIdle s) : DmcIdle (izyBase s).2 ∧ (izyBase s).2.cyc = s.cyc + 3 := by
  obtain ⟨h1, c1⟩ := fetch_idle h
  obtain ⟨h2, c2⟩ := zpPointer_idle (fetch s).1 h1
  exact ⟨h2, by show (zpPointer _ _).2.cyc = _; rw [c2, c1]⟩

/-- The cycles of a read-class instruction after its opcode fetch, with the DMC idle (R130, R164, R165). -/
theorem readOperand_idle (m : ReadMode) {s : State} (h : DmcIdle s) :
    DmcIdle (readOperand m s).2
    ∧ (readOperand m s).2.cyc + 1 = s.cyc + m.cycles + (if readCrosses m s then 1 else 0) := by
  cases m with
  | imm =>
    obtain ⟨h1, c1⟩ := fetch_idle h
    exact ⟨h1, by show (fetch s).2.cyc + 1 = s.cyc + 2 + 0; omega⟩
  | zp =>
    obtain ⟨h1, c1⟩ := fetch_idle h
    obtain ⟨h2, c2⟩ := memRead_idle (zext16 (fetch s).1) h1
    exact ⟨h2, by show (memRead (zext16 (fetch s).1) (fetch s).2).2.cyc + 1 = s.cyc + 3 + 0; rw [c2]; omega⟩
  | zpx =>
    obtain ⟨h1, c1⟩ := zpIndexed_idle s.cpu.x h
    obtain ⟨h2, c2⟩ := memRead_idle (zpIndexed s.cpu.x s).1 h1
    exact ⟨h2, by show (memRead (zpIndexed s.cpu.x s).1 _).2.cyc + 1 = s.cyc + 4 + 0; rw [c2]; omega⟩
  | zpy =>
    obtain ⟨h1, c1⟩ := zpIndexed_idle s.cpu.y h
    obtain ⟨h2, c2⟩ := memRead_idle (zpIndexed s.cpu.y s).1 h1
    exact ⟨h2, by show (memRead (zpIndexed s.cpu.y s).1 _).2.cyc + 1 = s.cyc + 4 + 0; rw [c2]; omega⟩
  | abs =>
    obtain ⟨h1, c1⟩ := fetchWord_idle h
    obtain ⟨h2, c2⟩ := memRead_idle (fetchWord s).1 h1
    exact ⟨h2, by show (memRead (fetchWord s).1 _).2.cyc + 1 = s.cyc + 4 + 0; rw [c2]; omega⟩
  | abx =>
    obtain ⟨h1, c1⟩ := fetchWord_idle h
    obtain ⟨h2, c2⟩ := readIndexed_idle (fetchWord s).1 (fetchWord s).2.cpu.x h1
    have hx : (fetchWord s).2.cpu.x = s.cpu.x := by rw [(fetchWord_to s).cpu]
    refine ⟨h2, ?_⟩
    show (readIndexed (fetchWord s).1 (fetchWord s).2.cpu.x (fetchWord s).2).2.cyc + 1
      = s.cyc + 4 + (if pageCross (fetchWord s).1 s.cpu.x then 1 else 0)
    rw [c2, c1, hx]
    omega
  | aby =>
    obtain ⟨h1, c1⟩ := fetchWord_idle h
    obtain ⟨h2, c2⟩ := readIndexed_idle (fetchWord s).1 (fetchWord s).2.cpu.y h1
    have hx : (fetchWord s).2.cpu.y = s.cpu.y := by rw [(fetchWord_to s).cpu]
    refine ⟨h2, ?_⟩
    show (readIndexed (fetchWord s).1 (fetchWord s).2.cpu.y (fetchWord s).2).2.cyc + 1
      = s.cyc + 4 + (if pageCross (fetchWord s).1 s.cpu.y then 1 else 0)
    rw [c2, c1, hx]
    omega
  | izx =>
    obtain ⟨h1, c1⟩ := izxAddr_idle h
    obtain ⟨h2, c2⟩ := memRead_idle (izxAddr s).1 h1
    exact ⟨h2, by show (memRead (izxAddr s).1 _).2.cyc + 1 = s.cyc + 6 + 0; rw [c2]; omega⟩
  | izy =>
    obtain ⟨h1, c1⟩ := izyBase_idle h
    obtain ⟨h2, c2⟩ := readIndexed_idle (izyBase s).1 (izyBase s).2.cpu.y h1
    have hx : (izyBase s).2.cpu.y = s.cpu.y := by rw [(izyBase_to s).cpu]; rfl
    refine ⟨h2, ?_⟩
    show (readIndexed (izyBase s).1 (izyBase s).2.cpu.y (izyBase s).2).2.cyc + 1
      = s.cyc + 5 + (if pageCross (izyBase s).1 s.cpu.y then 1 else 0)
    rw [c2, c1, hx]
    omega

theorem zpPointer_inv (p : Byte) {s : State} (h : Inv s) : Inv (zpPointer p s).2 := memRead_inv _ (memRead_inv _ h)

theorem izxAddr_inv {s : State} (h : Inv s) : Inv (izxAddr s).2 := zpPointer_inv _ (dummyRead_inv _ (fetch_inv h))

theorem readOperand_inv (m : ReadMode) {s : State} (h : Inv s) : Inv (readOperand m s).2 := by
  cases m with
  | imm => exact fetch_inv h
  | zp => exact memRead_inv _ (fetch_inv h)
  | zpx => exact memRead_inv _ (dummyRead_inv _ (fetch_inv h))
  | zpy => exact memRead_inv _ (dummyRead_inv _ (fetch_inv h))
  | abs => exact memRead_inv _ (fetchWord_inv h)
  | abx => exact readIndexed_inv _ _ (fetchWord_inv h)
  | aby => exact readIndexed_inv _ _ (fetchWord_inv h)
  | izx => exact memRead_inv _ (izxAddr_inv h)
  | izy => exact readIndexed_inv _ _ (zpPointer_inv _ (fetch_inv h))

/-! The address of a store. -/

theorem storeAddr_to (m : StoreMode) (s : State) : ReadTo (s.cpu.advanced (m.bytes - 1)) s (storeAddr m s).2 := by
  cases m with
  | zp => exact zpAddr_to s
  | zpx => exact zpIndexed_to _ s
  | zpy => exact zpIndexed_to _ s
  | abs => exact fetchWord_advanced s
  | abx => exact (fetchWord_advanced s).then (dummyRead_still _ _)
  | aby => exact (fetchWord_advanced s).then (dummyRead_still _ _)
  | izx => exact izxAddr_to s
  | izy => exact (izyBase_to s).then (dummyRead_still _ _)

/-- The store goes to the effective address, where the operand bytes are plain. -/
theorem storeAddr_plain (m : StoreMode) (s : State) (h : OperandsPlain (storeAsRead m) s) :
    (storeAddr m s).1 = effectiveAddr (storeAsRead m) s := by
  obtain ⟨h0, h1⟩ := h
  have hp := fetch_plain s h0
  cases m with
  | zp => show zext16 (fetch s).1 = _; rw [hp]; rfl
  | zpx => show zext16 ((fetch s).1 + s.cpu.x) = _; rw [hp]; rfl
  | zpy => show zext16 ((fetch s).1 + s.cpu.y) = _; rw [hp]; rfl
  | abs => exact fetchWord_plain s h0 (h1 rfl)
  | abx =>
    have hx : (fetchWord s).2.cpu.x = s.cpu.x := by rw [(fetchWord_to s).cpu]
    show (fetchWord s).1 + zext16 (fetchWord s).2.cpu.x = _
    rw [fetchWord_plain s h0 (h1 rfl), hx]
    rfl
  | aby =>
    have hx : (fetchWord s).2.cpu.y = s.cpu.y := by rw [(fetchWord_to s).cpu]
    show (fetchWord s).1 + zext16 (fetchWord s).2.cpu.y = _
    rw [fetchWord_plain s h0 (h1 rfl), hx]
    rfl
  | izx => exact izxAddr_value s h0
  | izy =>
    have hx : (izyBase s).2.cpu.y = s.cpu.y := by rw [(izyBase_to s).cpu]; rfl
    show (izyBase s).1 + zext16 (izyBase s).2.cpu.y = _
    rw [izyBase_value s h0, hx]
    rfl

theorem storeAddr_idle (m : StoreMode) {s : State} (h : DmcIdle s) :
    DmcIdle (storeAddr m s).2 ∧ (storeAddr m s).2.cyc + 2 = s.cyc + m.cycles := by
  cases m with
  | zp =>
    obtain ⟨h1, c1⟩ := fetch_idle h
    exact ⟨h1, by show (fetch s).2.cyc + 2 = s.cyc + 3; omega⟩
  | zpx =>
    obtain ⟨h1, c1⟩ := zpIndexed_idle s.cpu.x h
    exact ⟨h1, by show (zpIndexed s.cpu.x s).2.cyc + 2 = s.cyc + 4; omega⟩
  | zpy =>
    obtain ⟨h1, c1⟩ := zpIndexed_idle s.cpu.y h
    exact ⟨h1, by show (zpIndexed s.cpu.y s).2.cyc + 2 = s.cyc + 4; omega⟩
  | abs =>
    obtain ⟨h1, c1⟩ := fetchWord_idle h
    exact ⟨h1, by show (fetchWord s).2.cyc + 2 = s.cyc + 4; omega⟩
  | abx =>
    obtain ⟨h1, c1⟩ := fetchWord_idle h
    obtain ⟨h2, c2⟩ := dummyRead_idle (eaNoFix (fetchWord s).1 (fetchWord s).2.cpu.x) h1
    exact ⟨h2, by show (dummyRead _ _).cyc + 2 = s.cyc + 5; rw [c2]; omega⟩
  | aby =>
    obtain ⟨h1, c1⟩ := fetchWord_idle h
    obtain ⟨h2, c2⟩ := dummyRead_idle (eaNoFix (fetchWord s).1 (fetchWord s).2.cpu.y) h1
    exact ⟨h2, by show (dummyRead _ _).cyc + 2 = s.cyc + 5; rw [c2]; omega⟩
  | izx =>
    obtain ⟨h1, c1⟩ := izxAddr_idle h
    exact ⟨h1, by show (izxAddr s).2.cyc + 2 = s.cyc + 6; omega⟩
  | izy =>
    obtain ⟨h1, c1⟩ := izyBase_idle h
    obtain ⟨h2, c2⟩ := dummyRead_idle (eaNoFix (izyBase s).1 (izyBase s).2.cpu.y) h1
    exact ⟨h2, by show (dummyRead _ _).cyc + 2 = s.cyc + 6; rw [c2]; omega⟩

theorem storeAddr_inv (m : StoreMode) {s : State} (h : Inv s) : Inv (storeAddr m s).2 := by
  cases m with
  | zp => exact fetch_inv h
  | zpx => exact dummyRead_inv _ (fetch_inv h)
  | zpy => exact dummyRead_inv _ (fetch_inv h)
  | abs => exact fetchWord_inv h
  | abx => exact dummyRead_inv _ (fetchWord_inv h)
  | aby => exact dummyRead_inv _ (fetchWord_inv h)
  | izx => exact izxAddr_inv h
  | izy => exact dummyRead_inv _ (zpPointer_inv _ (fetch_inv h))

theorem storeOperand_inv (m : StoreMode) (r : Byte) {s : State} (h : Inv s) : Inv (storeOperand m r s) :=
  memWrite_inv _ _ (storeAddr_inv m h)

/-! Read-modify-write. -/

theorem rmwAddr_to (m : RmwMode) (s : State) : ReadTo (s.cpu.advanced (m.bytes - 1)) s (rmwAddr m s).2 := by
  cases m with
  | zp => exact zpAddr_to s
  | zpx => exact zpIndexed_to _ s
  | abs => exact fetchWord_advanced s
  | abx => exact (fetchWord_advanced s).then (dummyRead_still _ _)

theorem rmwAddr_plain (m : RmwMode) (s : State) (h : OperandsPlain (rmwAsRead m) s) :
    (rmwAddr m s).1 = effectiveAddr (rmwAsRead m) s := by
  cases m with
  | zp => exact storeAddr_plain .zp s h
  | zpx => exact storeAddr_plain .zpx s h
  | abs => exact storeAddr_plain .abs s h
  | abx => exact storeAddr_plain .abx s h

theorem rmwAddr_idle (m : RmwMode) {s : State} (h : DmcIdle s) :
    DmcIdle (rmwAddr m s).2 ∧ (rmwAddr m s).2.cyc + 4 = s.cyc + m.cycles := by
  cases m with
  | zp =>
    obtain ⟨h1, c1⟩ := storeAddr_idle .zp h
    exact ⟨h1, by show (storeAddr .zp s).2.cyc + 4 = s.cyc + (3 + 2); exact congrArg (· + 2) c1⟩
  | zpx =>
    obtain ⟨h1, c1⟩ := storeAddr_idle .zpx h
    exact ⟨h1, by show (storeAddr .zpx s).2.cyc + 4 = s.cyc + (4 + 2); exact congrArg (· + 2) c1⟩
  | abs =>
    obtain ⟨h1, c1⟩ := storeAddr_idle .abs h
    exact ⟨h1, by show (storeAddr .abs s).2.cyc + 4 = s.cyc + (4 + 2); exact congrArg (· + 2) c1⟩
  | abx =>
    obtain ⟨h1, c1⟩ := storeAddr_idle .abx h
    exact ⟨h1, by show (storeAddr .abx s).2.cyc + 4 = s.cyc + (5 + 2); exact congrArg (· + 2) c1⟩

theorem rmwAddr_inv (m : RmwMode) {s : State} (h : Inv s) : Inv (rmwAddr m s).2 := by
  cases m with
  | zp => exact fetch_inv h
  | zpx => exact dummyRead_inv _ (fetch_inv h)
  | abs => exact fetchWord_inv h
  | abx => exact dummyRead_inv _ (fetchWord_inv h)

theorem rmwRead_to (m : RmwMode) (s : State) : ReadTo (s.cpu.advanced (m.bytes - 1)) s (rmwRead m s).2.2 :=
  (rmwAddr_to m s).then (memRead_still _ _)

theorem rmwRead_addr (m : RmwMode) (s : State) : (rmwRead m s).1 = (rmwAddr m s).1 := rfl

/-- The operand of a read-modify-write is the byte at its address, where that is plain. -/
theorem rmwRead_value (m : RmwMode) (s : State) (h : Plain (rmwAddr m s).1 s) :
    (rmwRead m s).2.1 = peek (rmwAddr m s).1 s := by
  show (memRead (rmwAddr m s).1 (rmwAddr m s).2).1 = _
  rw [memRead_plain _ _ ((rmwAddr_to m s).plain h), (rmwAddr_to m s).peek]

theorem rmwRead_idle (m : RmwMode) {s : State} (h : DmcIdle s) :
    DmcIdle (rmwRead m s).2.2 ∧ (rmwRead m s).2.2.cyc + 3 = s.cyc + m.cycles := by
  obtain ⟨h1, c1⟩ := rmwAddr_idle m h
  obtain ⟨h2, c2⟩ := memRead_idle (rmwAddr m s).1 h1
  exact ⟨h2, by show (memRead (rmwAddr m s).1 (rmwAddr m s).2).2.cyc + 3 = _; rw [c2]; omega⟩

theorem rmwRead_inv (m : RmwMode) {s : State} (h : Inv s) : Inv (rmwRead m s).2.2 := memRead_inv _ (rmwAddr_inv m h)

/-- A dummy write leaves what a write of the same byte leaves, or nothing. -/
theorem dummyWrite_cases (a : Word) (v : Byte) (s : State) :
    WriteStill a v s (dummyWrite a v s) ∨ ReadStill s (dummyWrite a v s) := by
  unfold dummyWrite
  split
  · exact .inl (memWrite_still a v s)
  · exact .inr (clockDevices_still s)

theorem rmwWrite_inv (a : Word) (old new : Byte) {s : State} (h : Inv s) : Inv (rmwWrite a old new s) :=
  memWrite_inv _ _ (dummyWrite_inv _ _ h)

theorem dummyWrite_idle (a : Word) (v : Byte) {s : State} (h : DmcIdle s) (ha : a ≠ 0x4015) (hb : a ≠ 0x4014) :
    DmcIdle (dummyWrite a v s) ∧ (dummyWrite a v s).cyc = s.cyc + 1 := by
  unfold dummyWrite
  split
  · exact memWrite_idle a v h ha hb
  · exact ⟨clockDevices_idle h, clockDevices_cyc s⟩

theorem rmwWrite_idle (a : Word) (old new : Byte) {s : State} (h : DmcIdle s) (ha : a ≠ 0x4015) (hb : a ≠ 0x4014) :
    DmcIdle (rmwWrite a old new s) ∧ (rmwWrite a old new s).cyc = s.cyc + 2 := by
  obtain ⟨h1, c1⟩ := dummyWrite_idle a old h ha hb
  obtain ⟨h2, c2⟩ := memWrite_idle a new h1 ha hb
  exact ⟨h2, by show (memWrite a new (dummyWrite a old s)).cyc = _; rw [c2, c1]⟩

/-- The two writes of a read-modify-write, in the terms of claims: the result is stored at its address and nothing
else. -/
theorem rmwWrite_storedAt (a : Word) (old new : Byte) (s : State) (hw : Memory.wf 0x800 s.ram = true) :
    StoredAt a new s (rmwWrite a old new s) ∧ (rmwWrite a old new s).cpu = s.cpu := by
  unfold rmwWrite
  have k2 := memWrite_still a new (dummyWrite a old s)
  rcases dummyWrite_cases a old s with k1 | k1
  · have f1 := k1.storedAt hw
    have f2 := k2.storedAt (k1.ramWf hw)
    have hk : KeepsBanks a s → KeepsBanks a (dummyWrite a old s) := Or.imp_right f1.never.mapper.trans
    refine ⟨⟨f2.stored, fun b hb m => (f2.byte b hb (m.imp_right hk)).trans (f1.byte b hb m), f1.never.trans f2.never,
      fun n e => (f2.quiet n (by rw [(f1.ppuRegs n).ctrl]; exact e)).trans (f1.quiet n e),
      fun n m => (f2.cart n (hk m)).trans (f1.cart n m),
      fun n m b => (f2.ppuMem n (hk m) b).trans (f1.ppuMem n m b), fun n => ?_,
      fun n m j => (f2.oam n m j).trans (f1.oam n m j), fun n => (f1.ppuRegs n).trans (f2.ppuRegs n),
      fun n => (f1.apuRegs n).trans (f2.apuRegs n), fun n => (f2.strobe n).trans (f1.strobe n)⟩, k2.cpu.trans k1.cpu⟩
    obtain ⟨x1, x2, x3⟩ := f1.ppuRam n
    obtain ⟨y1, y2, y3⟩ := f2.ppuRam n
    exact ⟨y1.trans x1, y2.trans x2, y3.trans x3⟩
  · exact ⟨(k2.after k1).storedAt hw, k2.cpu.trans k1.cpu⟩

/-- A read-modify-write with its cycles spelled out: one read at the effective address, the dummy write of what was read,
which is an idle cycle where DUMMY_CYCLES_ON_BUS is false, the write of the result. -/
theorem rmwWrite_cycles (m : RmwMode) (new : Byte) (s : State) :
    let ea := (rmwAddr m s).1
    let r := memRead ea (rmwAddr m s).2
    rmwWrite (rmwRead m s).1 (rmwRead m s).2.1 new (rmwRead m s).2.2
      = memWrite ea new (if s.params.dummyCyclesOnBus then memWrite ea r.1 r.2 else tick r.2) := by
  have e : (rmwRead m s).2.2.params = s.params := (rmwRead_to m s).nothingStored.devices.never.params
  unfold rmwWrite dummyWrite
  rw [e]
  rfl

/-- A read-modify-write moves PC past the operand bytes, keeps the rest of the CPU, and stores its result and nothing
else. -/
theorem rmwWrite_stored (m : RmwMode) (new : Byte) (s : State) (hw : RamOk s) :
    (rmwWrite (rmwRead m s).1 (rmwRead m s).2.1 new (rmwRead m s).2.2).cpu = s.cpu.advanced (m.bytes - 1)
    ∧ StoredAt (rmwAddr m s).1 new s (rmwWrite (rmwRead m s).1 (rmwRead m s).2.1 new (rmwRead m s).2.2) := by
  have k := rmwRead_to m s
  have w : RamOk (rmwRead m s).2.2 := by unfold RamOk; rw [k.ram]; exact hw
  obtain ⟨h, hc⟩ := rmwWrite_storedAt (rmwRead m s).1 (rmwRead m s).2.1 new _ w
  exact ⟨hc.trans k.cpu, h.after k⟩

end Sys2Proof.Machine
end

