-- ==== Sys2Proof/Laws/Exceptions.lean ====
section
/-! SUPPORT. What pushing several bytes, taking an exception, returning from one, the reset sequence, a branch and an
illegal opcode leave. -/

namespace Sys2Proof.Machine

theorem stackAddr_eq (s : State) : stackAddr s = stackSlot s.cpu.s := rfl

theorem stackSlot_lt (b : Byte) : (stackSlot b).toNat < 0x2000 := by
  have : ∀ b : Byte, (word 0x01 b).toNat < 0x2000 := by decide +kernel
  exact this b

/-- Different stack pointers are different bytes of RAM. -/
theorem stackSlot_same (a b : Byte) : SameRam (stackSlot a) (stackSlot b) ↔ a = b := by
  have hv : ∀ b : Byte, (word 0x01 b).toNat = 256 + b.toNat := by decide +kernel
  unfold SameRam stackSlot
  rw [hv, hv]
  have h1 := a.isLt
  have h2 := b.isLt
  constructor
  · intro h
    exact BitVec.eq_of_toNat_eq (by omega)
  · intro h
    subst h
    omega

theorem sub_one_ne (b : Byte) : b ≠ b - 1 := by bv_omega

/-- A push: CPU, and memory byte by byte. -/
theorem push_cpu (v : Byte) (s : State) : (push v s).cpu = { s.cpu with s := s.cpu.s - 1 } := (push_spec v s).1

theorem push_bus (v : Byte) (s : State) : BusStill s (push v s) := (push_spec v s).2.2

theorem push_same (v : Byte) (s : State) (hw : Memory.wf 0x800 s.ram = true) (a : Word)
    (ha : SameRam (stackSlot s.cpu.s) a) : peek a (push v s) = v := by
  classical
  rw [push_peek v s hw a, stackAddr_eq, if_pos ha]

theorem push_other (v : Byte) (s : State) (hw : Memory.wf 0x800 s.ram = true) (a : Word)
    (ha : ¬ SameRam (stackSlot s.cpu.s) a) : peek a (push v s) = peek a s := by
  classical
  rw [push_peek v s hw a, stackAddr_eq, if_neg ha]

/-- Two pushes. -/
theorem push2_spec (v1 v2 : Byte) (s : State) (hw : Memory.wf 0x800 s.ram = true) :
    (push v2 (push v1 s)).cpu = { s.cpu with s := s.cpu.s - 2 }
    ∧ Pushed2 (stackSlot s.cpu.s) (stackSlot (s.cpu.s - 1)) v1 v2 s (push v2 (push v1 s))
    ∧ BusStill s (push v2 (push v1 s)) := by
  have hw1 := push_ramWf v1 s hw
  have e1 : (push v1 s).cpu.s = s.cpu.s - 1 := by rw [push_cpu]
  have b := (push_bus v1 s).trans (push_bus v2 (push v1 s))
  refine ⟨?_, ⟨?_, ?_, fun a h1 h2 => ?_, b.devices⟩, b⟩
  · rw [push_cpu, push_cpu]
    have : s.cpu.s - 1 - 1 = s.cpu.s - 2 := by bv_omega
    simp only [this]
  · rw [push_other v2 _ hw1, push_same v1 s hw _ ((stackSlot_same _ _).2 rfl)]
    rw [e1, stackSlot_same]
    bv_omega
  · exact push_same v2 _ hw1 _ (by rw [e1, stackSlot_same])
  · rw [push_other v2 _ hw1 _ (by rw [e1]; exact h2), push_other v1 s hw _ h1]

/-- Three pushes. -/
theorem push3_spec (v1 v2 v3 : Byte) (s : State) (hw : Memory.wf 0x800 s.ram = true) :
    (push v3 (push v2 (push v1 s))).cpu = { s.cpu with s := s.cpu.s - 3 }
    ∧ Pushed3 (stackSlot s.cpu.s) (stackSlot (s.cpu.s - 1)) (stackSlot (s.cpu.s - 2)) v1 v2 v3 s
        (push v3 (push v2 (push v1 s)))
    ∧ BusStill s (push v3 (push v2 (push v1 s))) := by
  obtain ⟨c2, p2, b2⟩ := push2_spec v1 v2 s hw
  have hw2 := push_ramWf v2 _ (push_ramWf v1 s hw)
  have e2 : (push v2 (push v1 s)).cpu.s = s.cpu.s - 2 := by rw [c2]
  have b := b2.trans (push_bus v3 _)
  refine ⟨?_, ⟨?_, ?_, ?_, fun a h1 h2 h3 => ?_, b.devices⟩, b⟩
  · rw [push_cpu, c2]
    have : s.cpu.s - 2 - 1 = s.cpu.s - 3 := by bv_omega
    simp only [this]
  · rw [push_other v3 _ hw2, p2.first]
    rw [e2, stackSlot_same]
    bv_omega
  · rw [push_other v3 _ hw2, p2.second]
    rw [e2, stackSlot_same]
    bv_omega
  · exact push_same v3 _ hw2 _ (by rw [e2, stackSlot_same])
  · rw [push_other v3 _ hw2 _ (by rw [e2]; exact h3), p2.byte a h1 h2]

theorem pPush_of_flags (b : Bool) (c d : Cpu) (hn : c.n = d.n) (hv : c.v = d.v) (hd : c.d = d.d) (hi : c.i = d.i)
    (hz : c.z = d.z) (hc : c.c = d.c) : pPush b c = pPush b d := by
  unfold pPush
  rw [hn, hv, hd, hi, hz, hc]

/-- The states that agree with a stack write on the CPU afterwards, RAM byte by byte. -/
theorem Pushed3.then {a1 a2 a3 : Word} {v1 v2 v3 : Byte} {s t u : State} {c : Cpu}
    (h : Pushed3 a1 a2 a3 v1 v2 v3 s t) (k : ReadTo c t u) (b : BusStill s t) : Pushed3 a1 a2 a3 v1 v2 v3 s u :=
  ⟨(k.peek _).trans h.first, (k.peek _).trans h.second, (k.peek _).trans h.third,
   fun a h1 h2 h3 => (k.peek a).trans (h.byte a h1 h2 h3), (b.trans k.bus).devices⟩

theorem Pushed3.of {a1 a2 a3 : Word} {v1 v2 v3 : Byte} {r s t : State} {c : Cpu}
    (k : ReadTo c r s) (h : Pushed3 a1 a2 a3 v1 v2 v3 s t) (b : BusStill s t) : Pushed3 a1 a2 a3 v1 v2 v3 r t :=
  ⟨h.first, h.second, h.third, fun a h1 h2 h3 => (h.byte a h1 h2 h3).trans (k.peek a), (k.bus.trans b).devices⟩

/-- Taking an exception (R298, R318): what is pushed, where PC goes, which flag changes. -/
theorem enterException_spec (b : Bool) (vec : Word) (s : State) (hw : Memory.wf 0x800 s.ram = true)
    (h0 : 0x2000 ≤ vec.toNat) (h1 : 0x2000 ≤ (vec + 1).toNat) :
    (∃ pc, (enterException b vec s).cpu = { s.cpu with s := s.cpu.s - 3, i := true, pc := pc }
      ∧ (Plain vec s → Plain (vec + 1) s → pc = word (peek (vec + 1) s) (peek vec s)))
    ∧ Pushed3 (stackSlot s.cpu.s) (stackSlot (s.cpu.s - 1)) (stackSlot (s.cpu.s - 2))
        (hiByte s.cpu.pc) (loByte s.cpu.pc) (pPush b s.cpu) s (enterException b vec s)
    ∧ BusStill s (enterException b vec s) := by
  have c1 := push_cpu (hiByte s.cpu.pc) s
  have e1 : (push (hiByte s.cpu.pc) s).cpu.pc = s.cpu.pc := by rw [c1]
  have c2 := push_cpu (loByte s.cpu.pc) (push (hiByte s.cpu.pc) s)
  have e2 : pPush b (push (loByte s.cpu.pc) (push (hiByte s.cpu.pc) s)).cpu = pPush b s.cpu := by
    rw [c2, c1]
    exact pPush_of_flags b _ _ rfl rfl rfl rfl rfl rfl
  obtain ⟨c3, p3, b3⟩ := push3_spec (hiByte s.cpu.pc) (loByte s.cpu.pc) (pPush b s.cpu) s hw
  unfold enterException
  simp only
  rw [e1, e2]
  generalize push (pPush b s.cpu) (push (loByte s.cpu.pc) (push (hiByte s.cpu.pc) s)) = t at c3 p3 b3
  have k := loadVector_to vec t
  have far : ∀ (x : Byte) (w : Word), 0x2000 ≤ w.toNat → ¬ SameRam (stackSlot x) w := by
    intro x w hx hs
    have := hs.2.1
    omega
  have q0 : peek vec t = peek vec s := p3.byte vec (far _ _ h0) (far _ _ h0) (far _ _ h0)
  have q1 : peek (vec + 1) t = peek (vec + 1) s := p3.byte _ (far _ _ h1) (far _ _ h1) (far _ _ h1)
  refine ⟨⟨vectorPc vec t, by rw [k.cpu, c3], fun g0 g1 => ?_⟩, p3.then k b3, b3.trans k.bus⟩
  rw [vectorPc_plain vec t (g0.congr b3.cart) (g1.congr b3.cart), q0, q1]

/-- The NMI and IRQ sequence (R318). -/
theorem interruptSequence_spec (vec : Word) (s : State) (hw : Memory.wf 0x800 s.ram = true)
    (h0 : 0x2000 ≤ vec.toNat) (h1 : 0x2000 ≤ (vec + 1).toNat) :
    (∃ pc, (interruptSequence vec s).cpu = { s.cpu with s := s.cpu.s - 3, i := true, pc := pc }
      ∧ (Plain vec s → Plain (vec + 1) s → pc = word (peek (vec + 1) s) (peek vec s)))
    ∧ Pushed3 (stackSlot s.cpu.s) (stackSlot (s.cpu.s - 1)) (stackSlot (s.cpu.s - 2))
        (hiByte s.cpu.pc) (loByte s.cpu.pc) (pPush false s.cpu) s (interruptSequence vec s)
    ∧ BusStill s (interruptSequence vec s) := by
  have k := (dummyFetch_still s).trans (dummyFetch_still (dummyFetch s))
  unfold interruptSequence
  generalize dummyFetch (dummyFetch s) = t at k
  have ew : Memory.wf 0x800 t.ram = true := by rw [k.ram]; exact hw
  obtain ⟨⟨pc, c, g⟩, p, b⟩ := enterException_spec false vec t ew h0 h1
  rw [k.peek, k.peek] at g
  rw [k.cpu] at c p
  exact ⟨⟨pc, c, fun g0 g1 => g (k.plain g0) (k.plain g1)⟩, Pushed3.of k.to p b, k.bus.trans b⟩

theorem interruptSequence_idle (vec : Word) {s : State} (h : DmcIdle s) :
    DmcIdle (interruptSequence vec s) ∧ (interruptSequence vec s).cyc = s.cyc + 7 := by
  obtain ⟨h1, c1⟩ := dummyFetch_idle h
  obtain ⟨h2, c2⟩ := dummyFetch_idle h1
  obtain ⟨h3, c3⟩ := enterException_idle false vec h2
  exact ⟨h3, by show (enterException false vec (dummyFetch (dummyFetch s))).cyc = _; rw [c3, c2, c1]⟩

/-- Returning from an exception (R299, R321). -/
theorem returnFromException_spec (s : State) :
    ReadTo { (s.cpu.pulled (peek (stackSlot (s.cpu.s + 1)) s)) with
        s := s.cpu.s + 3
        pc := word (peek (stackSlot (s.cpu.s + 3)) s) (peek (stackSlot (s.cpu.s + 2)) s) } s (returnFromException s) := by
  have k0 := (dummyFetch_still s).to.trans (prePull_to (dummyFetch s))
  rw [(dummyFetch_still s).cpu] at k0
  unfold returnFromException
  simp only
  generalize prePull (dummyFetch s) = s3 at k0
  have e3 : s3.cpu.s = s.cpu.s + 1 := by rw [k0.cpu]
  have vp : (pull s3).1 = peek (stackSlot (s.cpu.s + 1)) s := by
    rw [pull_value, stackAddr_eq, e3, k0.peek]
  have k1 := k0.trans (pull_to s3)
  rw [k0.cpu] at k1
  rw [vp, pPull_eq]
  generalize peek (stackSlot (s.cpu.s + 1)) s = v
  generalize (pull s3).2 = t at k1
  have k2 := k1.trans (readTo_withCpu (t.cpu.pulled v) t)
  generalize hu : ({ t with cpu := t.cpu.pulled v } : State) = u at k2 ⊢
  rw [k1.cpu] at k2
  have e4 : u.cpu.s = s.cpu.s + 2 := by
    rw [k2.cpu]
    show s.cpu.s + 1 + 1 = s.cpu.s + 2
    bv_omega
  have vlo : (pull u).1 = peek (stackSlot (s.cpu.s + 2)) s := by
    rw [pull_value, stackAddr_eq, e4, k2.peek]
  have k3 := k2.trans (pull_to u)
  rw [k2.cpu] at k3
  rw [vlo]
  generalize (pull u).2 = w at k3
  have e5 : w.cpu.s = s.cpu.s + 3 := by
    rw [k3.cpu]
    show s.cpu.s + 1 + 1 + 1 = s.cpu.s + 3
    bv_omega
  have vhi : (readStack w).1 = peek (stackSlot (s.cpu.s + 3)) s := by
    rw [readStack_value, stackAddr_eq, e5, k3.peek]
  have k4 := k3.then (readStack_still w)
  rw [vhi]
  generalize (readStack w).2 = x at k4
  have es : s.cpu.s + 1 + 1 + 1 = s.cpu.s + 3 := by bv_omega
  refine ⟨?_, k4.ram, k4.bus.trans (readTo_withCpu _ _).bus⟩
  rw [setPc_cpu, k4.cpu]
  unfold Cpu.pulled
  simp only [es]

theorem returnFromException_idle {s : State} (h : DmcIdle s) :
    DmcIdle (returnFromException s) ∧ (returnFromException s).cyc = s.cyc + 5 := by
  obtain ⟨h1, c1⟩ := dummyFetch_idle h
  obtain ⟨h2, c2⟩ := prePull_idle h1
  obtain ⟨h3, c3⟩ := pull_idle h2
  unfold returnFromException
  simp only
  rw [pPull_eq]
  generalize (pull (prePull (dummyFetch s))).1 = v
  generalize (pull (prePull (dummyFetch s))).2 = t at h3 c3
  have h3' : DmcIdle { t with cpu := t.cpu.pulled v } := h3
  obtain ⟨h4, c4⟩ := pull_idle h3'
  obtain ⟨h5, c5⟩ := readStack_idle h4
  refine ⟨h5, ?_⟩
  show (readStack _).2.cyc = _
  rw [c5, c4]
  show t.cyc + 1 + 1 = _
  rw [c3, c2, c1]

/-- The reset sequence (R602): the two dummy reads, the three suppressed pushes, the vector. -/
theorem resetSequence_spec (s : State) :
    (∃ pc, (resetSequence s).cpu = { s.cpu with s := s.cpu.s - 3, i := true, pc := pc }
      ∧ (Plain 0xFFFC s → Plain 0xFFFD s → pc = word (peek 0xFFFD s) (peek 0xFFFC s)))
    ∧ (resetSequence s).ram = s.ram
    ∧ BusStill { s with resetPending := false, nmiLatch := false } (resetSequence s) := by
  unfold resetSequence
  simp only
  have hp : ∀ a, peek a { s with resetPending := false, nmiLatch := false } = peek a s := fun _ => rfl
  have hc : ({ s with resetPending := false, nmiLatch := false } : State).cpu = s.cpu := rfl
  have hr : ({ s with resetPending := false, nmiLatch := false } : State).ram = s.ram := rfl
  have hv : ∀ a, Plain a s → Plain a { s with resetPending := false, nmiLatch := false } := fun _ => id
  generalize ({ s with resetPending := false, nmiLatch := false } : State) = s0 at hp hc hr hv
  have k0 := (dummyFetch_still s0).to.then (dummyFetch_still _)
  have k1 := k0.trans (resetPush_to _)
  rw [k0.cpu] at k1
  have k2 := k1.trans (resetPush_to _)
  rw [k1.cpu] at k2
  have k3 := k2.trans (resetPush_to _)
  rw [k2.cpu] at k3
  generalize resetPush (resetPush (resetPush (dummyFetch (dummyFetch s0)))) = t at k3
  have k4 := loadVector_to resetVector t
  have es : s.cpu.s - 1 - 1 - 1 = s.cpu.s - 3 := by bv_omega
  have k := k3.trans k4
  refine ⟨⟨vectorPc resetVector t, ?_, fun g0 g1 => ?_⟩, k.ram.trans hr, k.bus⟩
  · rw [k.cpu, k3.cpu, hc]
    simp only [es]
  · have v := vectorPc_plain resetVector t (k3.plain (hv _ g0)) (k3.plain (hv _ g1))
    rw [k3.peek, k3.peek, hp, hp] at v
    exact v

theorem resetSequence_idle {s : State} (h : DmcIdle s) :
    DmcIdle (resetSequence s) ∧ (resetSequence s).cyc = s.cyc + 7 := by
  have h0 : DmcIdle { s with resetPending := false, nmiLatch := false } := h
  obtain ⟨h1, c1⟩ := dummyFetch_idle h0
  obtain ⟨h2, c2⟩ := dummyFetch_idle h1
  obtain ⟨h3, c3⟩ := resetPush_idle h2
  obtain ⟨h4, c4⟩ := resetPush_idle h3
  obtain ⟨h5, c5⟩ := resetPush_idle h4
  obtain ⟨h6, c6⟩ := loadVector_idle resetVector h5
  exact ⟨h6, by show (loadVector resetVector _).cyc = _; rw [c6, c5, c4, c3, c2, c1]⟩

/-- A conditional branch (R162, R269): where PC goes; nothing else of the CPU changes and nothing is stored. -/
theorem branch_spec (cond : Cpu → Bool) (s : State) :
    ReadTo { s.cpu with pc := if cond { s.cpu with pc := s.cpu.pc + 1 } then s.cpu.pc + 1 + sext16 (fetch s).1
                              else s.cpu.pc + 1 } s (branch cond s) := by
  have k0 := fetch_to s
  unfold branch
  simp only
  rw [k0.cpu]
  split
  · have k1 := k0.then (dummyFetch_still (fetch s).2)
    generalize dummyFetch (fetch s).2 = u at k1
    have epc : u.cpu.pc = s.cpu.pc + 1 := by rw [k1.cpu]
    rw [epc]
    split
    · refine ⟨?_, k1.ram, k1.bus.trans (readTo_withCpu _ _).bus⟩
      rw [setPc_cpu, k1.cpu]
    · have k2 := k1.then (dummyRead_still (word (hiByte (s.cpu.pc + 1)) (loByte (s.cpu.pc + 1 + sext16 (fetch s).1))) u)
      refine ⟨?_, k2.ram, k2.bus.trans (readTo_withCpu _ _).bus⟩
      rw [setPc_cpu, k2.cpu]
  · exact k0

/-- The cycles of a branch after its opcode fetch (R164). -/
theorem branch_idle (cond : Cpu → Bool) {s : State} (h : DmcIdle s) :
    DmcIdle (branch cond s)
    ∧ (branch cond s).cyc = s.cyc + (if cond { s.cpu with pc := s.cpu.pc + 1 } then
        (if hiByte (s.cpu.pc + 1 + sext16 (fetch s).1) = hiByte (s.cpu.pc + 1) then 2 else 3) else 1) := by
  obtain ⟨h1, c1⟩ := fetch_idle h
  have k0 := fetch_to s
  unfold branch
  simp only
  rw [k0.cpu]
  split
  · obtain ⟨h2, c2⟩ := dummyFetch_idle h1
    have k1 := k0.then (dummyFetch_still (fetch s).2)
    generalize dummyFetch (fetch s).2 = u at k1 h2 c2
    have epc : u.cpu.pc = s.cpu.pc + 1 := by rw [k1.cpu]
    rw [epc]
    split
    · exact ⟨h2, by rw [setPc_cyc, c2, c1]⟩
    · obtain ⟨h3, c3⟩ := dummyRead_idle (word (hiByte (s.cpu.pc + 1)) (loByte (s.cpu.pc + 1 + sext16 (fetch s).1))) h2
      exact ⟨h3, by rw [setPc_cyc, c3, c2, c1]⟩
  · exact ⟨h1, c1⟩

theorem branch_inv (cond : Cpu → Bool) {s : State} (h : Inv s) : Inv (branch cond s) := by
  unfold branch
  simp only
  split_ifs
  · exact (dummyFetch_inv (fetch_inv h)).withCpu _
  · exact (dummyRead_inv _ (dummyFetch_inv (fetch_inv h))).withCpu _
  · exact fetch_inv h

/-! Illegal opcodes (R300). -/

theorem fetches_to (n : Nat) (s : State) : ReadTo (s.cpu.advanced n) s (fetches n s) := by
  induction n generalizing s with
  | zero =>
    have e : s.cpu.advanced 0 = s.cpu := by simp [Cpu.advanced]
    rw [e]
    exact (ReadStill.refl s).to
  | succ n ih =>
    have k := (fetch_to s).trans (ih (fetch s).2)
    rw [(fetch_to s).cpu] at k
    have e : s.cpu.pc + 1 + BitVec.ofNat 16 n = s.cpu.pc + BitVec.ofNat 16 (n + 1) := by
      rw [Nat.add_comm n 1, BitVec.ofNat_add, BitVec.add_assoc]
      rfl
    simp only [Cpu.advanced, e] at k
    exact k

theorem fetches_idle (n : Nat) {s : State} (h : DmcIdle s) :
    DmcIdle (fetches n s) ∧ (fetches n s).cyc = s.cyc + n := by
  induction n generalizing s with
  | zero => exact ⟨h, rfl⟩
  | succ n ih =>
    obtain ⟨h1, c1⟩ := fetch_idle h
    obtain ⟨h2, c2⟩ := ih h1
    exact ⟨h2, by show (fetches n (fetch s).2).cyc = _; rw [c2, c1]; omega⟩

theorem fetches_inv (n : Nat) {s : State} (h : Inv s) : Inv (fetches n s) := by
  induction n generalizing s with
  | zero => exact h
  | succ n ih => exact ih (fetch_inv h)

theorem dummyFetches_still (n : Nat) (s : State) : ReadStill s (dummyFetches n s) := by
  induction n generalizing s with
  | zero => exact .refl s
  | succ n ih => exact (dummyFetch_still s).trans (ih _)

theorem dummyFetches_idle (n : Nat) {s : State} (h : DmcIdle s) :
    DmcIdle (dummyFetches n s) ∧ (dummyFetches n s).cyc = s.cyc + n := by
  induction n generalizing s with
  | zero => exact ⟨h, rfl⟩
  | succ n ih =>
    obtain ⟨h1, c1⟩ := dummyFetch_idle h
    obtain ⟨h2, c2⟩ := ih h1
    exact ⟨h2, by show (dummyFetches n (dummyFetch s)).cyc = _; rw [c2, c1]; omega⟩

theorem dummyFetches_inv (n : Nat) {s : State} (h : Inv s) : Inv (dummyFetches n s) := by
  induction n generalizing s with
  | zero => exact h
  | succ n ih => exact ih (dummyFetch_inv h)

/-- PC moves past the operand bytes, however many of them are read, and nothing is stored. -/
theorem skipOperands_to (len cycles : Nat) (s : State) :
    ReadTo (s.cpu.advanced (len - 1)) s (skipOperands len cycles s) := by
  have k := fetches_to (min len cycles - 1) s
  unfold skipOperands
  simp only
  generalize fetches (min len cycles - 1) s = t at k
  have e : ({ t.cpu with pc := t.cpu.pc + BitVec.ofNat 16 (len - 1 - (min len cycles - 1)) } : Cpu)
      = s.cpu.advanced (len - 1) := by
    rw [k.cpu]
    simp only [Cpu.advanced]
    rw [BitVec.add_assoc, ← BitVec.ofNat_add]
    congr 3
    omega
  have k1 : ReadTo _ s (setPc (t.cpu.pc + BitVec.ofNat 16 (len - 1 - (min len cycles - 1))) t) :=
    k.trans (readTo_withCpu { t.cpu with pc := t.cpu.pc + BitVec.ofNat 16 (len - 1 - (min len cycles - 1)) } t)
  rw [e] at k1
  exact k1.then (dummyFetches_still (cycles - len) _)

theorem skipOperands_idle {len cycles : Nat} (hl : 1 ≤ len) (hc : 1 ≤ cycles) {s : State} (h : DmcIdle s) :
    DmcIdle (skipOperands len cycles s) ∧ (skipOperands len cycles s).cyc + 1 = s.cyc + cycles := by
  obtain ⟨h1, c1⟩ := fetches_idle (min len cycles - 1) h
  unfold skipOperands
  simp only
  generalize fetches (min len cycles - 1) s = t at h1 c1
  obtain ⟨h2, c2⟩ := dummyFetches_idle (cycles - len)
    (s := setPc (t.cpu.pc + BitVec.ofNat 16 (len - 1 - (min len cycles - 1))) t) h1
  exact ⟨h2, by rw [c2, setPc_cyc, c1]; omega⟩

theorem skipOperands_inv (len cycles : Nat) {s : State} (h : Inv s) : Inv (skipOperands len cycles s) :=
  dummyFetches_inv _ ((fetches_inv _ h).withCpu _)

end Sys2Proof.Machine
end

