-- ==== Sys2Proof/Laws/PerInstr.lean ====
section
/-! SUPPORT. Facts about every instruction as syntax, one lemma per constructor: family `Size`. -/

namespace Sys2Proof.Laws.Size

/-- A well-formed instruction has an opcode byte, is 1 to 3 bytes long (R120), takes 2 to 7 cycles at base (R130), and
never fewer cycles than bytes: each byte is fetched by a cycle of its own (R150). -/
def Statement (i : Instr) : Prop :=
  i.wf = true → (encodeOpcode i).isSome = true ∧ 1 ≤ i.bytes ∧ i.bytes ≤ 3 ∧ 2 ≤ i.baseCycles ∧ i.baseCycles ≤ 7
    ∧ i.bytes ≤ i.baseCycles

theorem illegalBytes_range (op : Byte) : illegalBytes op = 1 ∨ illegalBytes op = 2 ∨ illegalBytes op = 3 := by
  unfold illegalBytes
  split_ifs <;> simp

theorem lda (m : ReadMode) : Statement (.lda m) := by
  unfold Statement
  cases m <;> decide

theorem ldx (m : ReadMode) : Statement (.ldx m) := by
  unfold Statement
  cases m <;> decide

theorem ldy (m : ReadMode) : Statement (.ldy m) := by
  unfold Statement
  cases m <;> decide

theorem sta (m : StoreMode) : Statement (.sta m) := by
  unfold Statement
  cases m <;> decide

theorem stx (m : StoreMode) : Statement (.stx m) := by
  unfold Statement
  cases m <;> decide

theorem sty (m : StoreMode) : Statement (.sty m) := by
  unfold Statement
  cases m <;> decide

theorem tax : Statement .tax := by unfold Statement; decide

theorem tay : Statement .tay := by unfold Statement; decide

theorem txa : Statement .txa := by unfold Statement; decide

theorem tya : Statement .tya := by unfold Statement; decide

theorem tsx : Statement .tsx := by unfold Statement; decide

theorem txs : Statement .txs := by unfold Statement; decide

theorem pha : Statement .pha := by unfold Statement; decide

theorem php : Statement .php := by unfold Statement; decide

theorem pla : Statement .pla := by unfold Statement; decide

theorem plp : Statement .plp := by unfold Statement; decide

theorem adc (m : ReadMode) : Statement (.adc m) := by
  unfold Statement
  cases m <;> decide

theorem sbc (m : ReadMode) : Statement (.sbc m) := by
  unfold Statement
  cases m <;> decide

theorem and (m : ReadMode) : Statement (.and m) := by
  unfold Statement
  cases m <;> decide

theorem ora (m : ReadMode) : Statement (.ora m) := by
  unfold Statement
  cases m <;> decide

theorem eor (m : ReadMode) : Statement (.eor m) := by
  unfold Statement
  cases m <;> decide

theorem cmp (m : ReadMode) : Statement (.cmp m) := by
  unfold Statement
  cases m <;> decide

theorem cpx (m : ReadMode) : Statement (.cpx m) := by
  unfold Statement
  cases m <;> decide

theorem cpy (m : ReadMode) : Statement (.cpy m) := by
  unfold Statement
  cases m <;> decide

theorem bit (m : ReadMode) : Statement (.bit m) := by
  unfold Statement
  cases m <;> decide

theorem inc (m : RmwMode) : Statement (.inc m) := by
  unfold Statement
  cases m <;> decide

theorem dec (m : RmwMode) : Statement (.dec m) := by
  unfold Statement
  cases m <;> decide

theorem inx : Statement .inx := by unfold Statement; decide

theorem iny : Statement .iny := by unfold Statement; decide

theorem dex : Statement .dex := by unfold Statement; decide

theorem dey : Statement .dey := by unfold Statement; decide

theorem asl (m : ShiftMode) : Statement (.asl m) := by
  cases m with
  | acc => unfold Statement; decide
  | mem m => unfold Statement; cases m <;> decide

theorem lsr (m : ShiftMode) : Statement (.lsr m) := by
  cases m with
  | acc => unfold Statement; decide
  | mem m => unfold Statement; cases m <;> decide

theorem rol (m : ShiftMode) : Statement (.rol m) := by
  cases m with
  | acc => unfold Statement; decide
  | mem m => unfold Statement; cases m <;> decide

theorem ror (m : ShiftMode) : Statement (.ror m) := by
  cases m with
  | acc => unfold Statement; decide
  | mem m => unfold Statement; cases m <;> decide

theorem bcc : Statement .bcc := by unfold Statement; decide

theorem bcs : Statement .bcs := by unfold Statement; decide

theorem beq : Statement .beq := by unfold Statement; decide

theorem bne : Statement .bne := by unfold Statement; decide

theorem bmi : Statement .bmi := by unfold Statement; decide

theorem bpl : Statement .bpl := by unfold Statement; decide

theorem bvc : Statement .bvc := by unfold Statement; decide

theorem bvs : Statement .bvs := by unfold Statement; decide

theorem jmp (m : JumpMode) : Statement (.jmp m) := by
  unfold Statement
  cases m <;> decide

theorem jsr : Statement .jsr := by unfold Statement; decide

theorem rts : Statement .rts := by unfold Statement; decide

theorem clc : Statement .clc := by unfold Statement; decide

theorem sec : Statement .sec := by unfold Statement; decide

theorem cli : Statement .cli := by unfold Statement; decide

theorem sei : Statement .sei := by unfold Statement; decide

theorem clv : Statement .clv := by unfold Statement; decide

theorem cld : Statement .cld := by unfold Statement; decide

theorem sed : Statement .sed := by unfold Statement; decide

theorem nop : Statement .nop := by unfold Statement; decide

theorem brk : Statement .brk := by unfold Statement; decide

theorem rti : Statement .rti := by unfold Statement; decide

theorem ill (op : Byte) : Statement (.ill op) := by
  intro h
  have e : encodeOpcode (.ill op) = some op := if_pos h
  rw [e]
  refine ⟨rfl, ?_⟩
  show 1 ≤ illegalBytes op ∧ illegalBytes op ≤ 3 ∧ 2 ≤ max 2 (illegalBytes op) ∧ max 2 (illegalBytes op) ≤ 7
    ∧ illegalBytes op ≤ max 2 (illegalBytes op)
  rcases illegalBytes_range op with k | k | k <;> rw [k] <;> decide

end Sys2Proof.Laws.Size
end

