-- ==== Sys2Proof/Tests/Slice0.lean ====
section
/-! SUPPORT. The model's own tests. Expected values come from spec/95_test_vectors.md (a vector's number stands in the
theorem's name or docstring) and from the encoding tables of spec/30_encoding.md. The last part shows, for every
statement with hypotheses, a concrete case that meets them. -/

namespace Sys2Proof.Tests

open Sys2Proof.Machine

/-! Small states. -/

/-- The CPU at the default start of a vector (95_test_vectors.md section 0). -/
def cpu0 : Cpu :=
  { a := 0, x := 0, y := 0, s := 0xFD, pc := 0x8000, n := false, v := false, d := false, i := true, z := false, c := false }

/-- A cartridge of 16 KiB with the listed bytes, NMI vector $9000, RESET vector $8000, IRQ vector $A000. -/
def rom (code : Memory 8) : Cartridge :=
  { Cartridge.blank with prg := code ++ [(0x3FFB, 0x90), (0x3FFD, 0x80), (0x3FFF, 0xA0)] }

/-- The default start of a vector with the CPU, the PRG bytes (by offset from $8000) and the RAM bytes given. -/
def start (c : Cpu) (code ram : Memory 8) : State :=
  { State.reset with resetPending := false, cpu := c, ram := ram, cart := rom code }

/-- What `f` sees of the state one step later. -/
def after {α : Type} (f : State → α) (s : State) : Option α :=
  match step s with
  | .next t => some (f t)
  | .fault _ => none
  | .refused _ => none

/-! Well-formedness: a mode that a mnemonic lacks is refused, for every check of `Instr.wf`. -/

theorem test_ill_formed :
    [Instr.lda .zpy, .ldx .zpx, .ldy .aby, .sta .zpy, .stx .abx, .sty .zpy, .adc .zpy, .sbc .zpy, .and .zpy, .ora .zpy,
     .eor .zpy, .cmp .zpy, .cpx .zpx, .cpy .abx, .bit .imm, .ill 0xEA].all (fun i => !i.wf) = true := by decide

theorem test_ill_formed_not_encoded :
    [Instr.lda .zpy, .ldx .zpx, .ldy .aby, .sta .zpy, .stx .abx, .sty .zpy, .adc .zpy, .sbc .zpy, .and .zpy, .ora .zpy,
     .eor .zpy, .cmp .zpy, .cpx .zpx, .cpy .abx, .bit .imm, .ill 0xEA].all (fun i => encodeOpcode i == none) = true := by
  decide

/-- The lengths of R127: 18 illegal opcodes of one byte, 54 of two, 33 of three. -/
theorem test_illegal_counts : illegal1.length = 18 ∧ illegal2.length = 54 ∧ illegal3.length = 33 := by decide

/-! Decoding: the words of R124, for every constructor. -/

/-- The row says what the opcode byte decodes to, and its instruction is well formed, encodes to that byte and has the
row's length and base cycles. -/
def rowHolds (e : Byte × Instr × Nat × Nat) : Bool :=
  decodeOpcode e.1 == e.2.1 && e.2.1.wf && encodeOpcode e.2.1 == some e.1 && e.2.1.bytes == e.2.2.1
    && e.2.1.baseCycles == e.2.2.2

/-- R124, the rows of load and store: opcode byte, instruction, bytes, base cycles. -/
def rows_load_store : List (Byte × Instr × Nat × Nat) :=
  [ (0xA9, .lda .imm, 2, 2), (0xA5, .lda .zp, 2, 3), (0xB5, .lda .zpx, 2, 4), (0xAD, .lda .abs, 3, 4), (0xBD, .lda .abx, 3, 4),
    (0xB9, .lda .aby, 3, 4), (0xA1, .lda .izx, 2, 6), (0xB1, .lda .izy, 2, 5), (0xA2, .ldx .imm, 2, 2), (0xA6, .ldx .zp, 2, 3),
    (0xB6, .ldx .zpy, 2, 4), (0xAE, .ldx .abs, 3, 4), (0xBE, .ldx .aby, 3, 4), (0xA0, .ldy .imm, 2, 2), (0xA4, .ldy .zp, 2, 3),
    (0xB4, .ldy .zpx, 2, 4), (0xAC, .ldy .abs, 3, 4), (0xBC, .ldy .abx, 3, 4), (0x85, .sta .zp, 2, 3), (0x95, .sta .zpx, 2, 4),
    (0x8D, .sta .abs, 3, 4), (0x9D, .sta .abx, 3, 5), (0x99, .sta .aby, 3, 5), (0x81, .sta .izx, 2, 6), (0x91, .sta .izy, 2, 6),
    (0x86, .stx .zp, 2, 3), (0x96, .stx .zpy, 2, 4), (0x8E, .stx .abs, 3, 4), (0x84, .sty .zp, 2, 3), (0x94, .sty .zpx, 2, 4),
    (0x8C, .sty .abs, 3, 4) ]

theorem test_decode_load_store : rows_load_store.all rowHolds = true := by decide

/-- R124, the rows of register transfer and stack: opcode byte, instruction, bytes, base cycles. -/
def rows_transfer_stack : List (Byte × Instr × Nat × Nat) :=
  [ (0xAA, .tax, 1, 2), (0xA8, .tay, 1, 2), (0x8A, .txa, 1, 2), (0x98, .tya, 1, 2), (0xBA, .tsx, 1, 2),
    (0x9A, .txs, 1, 2), (0x48, .pha, 1, 3), (0x08, .php, 1, 3), (0x68, .pla, 1, 4), (0x28, .plp, 1, 4) ]

theorem test_decode_transfer_stack : rows_transfer_stack.all rowHolds = true := by decide

/-- R124, the rows of arithmetic, logic, compare: opcode byte, instruction, bytes, base cycles. -/
def rows_arith_logic : List (Byte × Instr × Nat × Nat) :=
  [ (0x69, .adc .imm, 2, 2), (0x65, .adc .zp, 2, 3), (0x75, .adc .zpx, 2, 4), (0x6D, .adc .abs, 3, 4), (0x7D, .adc .abx, 3, 4),
    (0x79, .adc .aby, 3, 4), (0x61, .adc .izx, 2, 6), (0x71, .adc .izy, 2, 5), (0xE9, .sbc .imm, 2, 2), (0xE5, .sbc .zp, 2, 3),
    (0xF5, .sbc .zpx, 2, 4), (0xED, .sbc .abs, 3, 4), (0xFD, .sbc .abx, 3, 4), (0xF9, .sbc .aby, 3, 4), (0xE1, .sbc .izx, 2, 6),
    (0xF1, .sbc .izy, 2, 5), (0x29, .and .imm, 2, 2), (0x25, .and .zp, 2, 3), (0x35, .and .zpx, 2, 4), (0x2D, .and .abs, 3, 4),
    (0x3D, .and .abx, 3, 4), (0x39, .and .aby, 3, 4), (0x21, .and .izx, 2, 6), (0x31, .and .izy, 2, 5), (0x09, .ora .imm, 2, 2),
    (0x05, .ora .zp, 2, 3), (0x15, .ora .zpx, 2, 4), (0x0D, .ora .abs, 3, 4), (0x1D, .ora .abx, 3, 4), (0x19, .ora .aby, 3, 4),
    (0x01, .ora .izx, 2, 6), (0x11, .ora .izy, 2, 5), (0x49, .eor .imm, 2, 2), (0x45, .eor .zp, 2, 3), (0x55, .eor .zpx, 2, 4),
    (0x4D, .eor .abs, 3, 4), (0x5D, .eor .abx, 3, 4), (0x59, .eor .aby, 3, 4), (0x41, .eor .izx, 2, 6), (0x51, .eor .izy, 2, 5),
    (0xC9, .cmp .imm, 2, 2), (0xC5, .cmp .zp, 2, 3), (0xD5, .cmp .zpx, 2, 4), (0xCD, .cmp .abs, 3, 4), (0xDD, .cmp .abx, 3, 4),
    (0xD9, .cmp .aby, 3, 4), (0xC1, .cmp .izx, 2, 6), (0xD1, .cmp .izy, 2, 5), (0xE0, .cpx .imm, 2, 2), (0xE4, .cpx .zp, 2, 3),
    (0xEC, .cpx .abs, 3, 4), (0xC0, .cpy .imm, 2, 2), (0xC4, .cpy .zp, 2, 3), (0xCC, .cpy .abs, 3, 4), (0x24, .bit .zp, 2, 3),
    (0x2C, .bit .abs, 3, 4) ]

theorem test_decode_arith_logic : rows_arith_logic.all rowHolds = true := by decide

/-- R124, the rows of increment, decrement, shift, rotate: opcode byte, instruction, bytes, base cycles. -/
def rows_incdec_shift : List (Byte × Instr × Nat × Nat) :=
  [ (0xE6, .inc .zp, 2, 5), (0xF6, .inc .zpx, 2, 6), (0xEE, .inc .abs, 3, 6), (0xFE, .inc .abx, 3, 7), (0xC6, .dec .zp, 2, 5),
    (0xD6, .dec .zpx, 2, 6), (0xCE, .dec .abs, 3, 6), (0xDE, .dec .abx, 3, 7), (0xE8, .inx, 1, 2), (0xC8, .iny, 1, 2),
    (0xCA, .dex, 1, 2), (0x88, .dey, 1, 2), (0x0A, .asl .acc, 1, 2), (0x06, .asl (.mem .zp), 2, 5), (0x16, .asl (.mem .zpx), 2, 6),
    (0x0E, .asl (.mem .abs), 3, 6), (0x1E, .asl (.mem .abx), 3, 7), (0x4A, .lsr .acc, 1, 2), (0x46, .lsr (.mem .zp), 2, 5), (0x56, .lsr (.mem .zpx), 2, 6),
    (0x4E, .lsr (.mem .abs), 3, 6), (0x5E, .lsr (.mem .abx), 3, 7), (0x2A, .rol .acc, 1, 2), (0x26, .rol (.mem .zp), 2, 5), (0x36, .rol (.mem .zpx), 2, 6),
    (0x2E, .rol (.mem .abs), 3, 6), (0x3E, .rol (.mem .abx), 3, 7), (0x6A, .ror .acc, 1, 2), (0x66, .ror (.mem .zp), 2, 5), (0x76, .ror (.mem .zpx), 2, 6),
    (0x6E, .ror (.mem .abs), 3, 6), (0x7E, .ror (.mem .abx), 3, 7) ]

theorem test_decode_incdec_shift : rows_incdec_shift.all rowHolds = true := by decide

/-- R124, the rows of branch, jump, subroutine: opcode byte, instruction, bytes, base cycles. -/
def rows_branch_jump : List (Byte × Instr × Nat × Nat) :=
  [ (0x90, .bcc, 2, 2), (0xB0, .bcs, 2, 2), (0xF0, .beq, 2, 2), (0xD0, .bne, 2, 2), (0x30, .bmi, 2, 2),
    (0x10, .bpl, 2, 2), (0x50, .bvc, 2, 2), (0x70, .bvs, 2, 2), (0x4C, .jmp .abs, 3, 3), (0x6C, .jmp .ind, 3, 5),
    (0x20, .jsr, 3, 6), (0x60, .rts, 1, 6) ]

theorem test_decode_branch_jump : rows_branch_jump.all rowHolds = true := by decide

/-- R124, the rows of flag, system, illegal opcodes: opcode byte, instruction, bytes, base cycles. -/
def rows_flag_system : List (Byte × Instr × Nat × Nat) :=
  [ (0x18, .clc, 1, 2), (0x38, .sec, 1, 2), (0x58, .cli, 1, 2), (0x78, .sei, 1, 2), (0xB8, .clv, 1, 2),
    (0xD8, .cld, 1, 2), (0xF8, .sed, 1, 2), (0xEA, .nop, 1, 2), (0x00, .brk, 1, 7), (0x40, .rti, 1, 6),
    (0x9B, .ill 0x9B, 3, 3), (0x02, .ill 0x02, 1, 2), (0x80, .ill 0x80, 2, 2) ]

theorem test_decode_flag_system : rows_flag_system.all rowHolds = true := by decide

/-! One step of every instruction: the CPU, the cycles, the bytes stored. -/

/-! Load and store (spec/40_load_store.md). -/

/-- V-LS-11: LDA $02FF,X. -/
theorem test_lda_V_LS_11 :
    after (fun t => (t.cpu, t.cyc))
      (start ({ cpu0 with x := 0x1 })
        [(0x0, 0xBD), (0x1, 0xFF), (0x2, 0x02), (0x3, 0xEA)] [(0x200, 0x56), (0x300, 0x34)])
      = some ({ cpu0 with a := 0x34, x := 0x1, pc := 0x8003 }, 5) := by decide

/-- V-LS-16: LDA ($FF,X). -/
theorem test_lda_V_LS_16 :
    after (fun t => (t.cpu, t.cyc))
      (start cpu0 [(0x0, 0xA1), (0x1, 0xFF), (0x2, 0xEA)] [(0x0, 0x02), (0xFF, 0x34), (0x234, 0x66)])
      = some ({ cpu0 with a := 0x66, pc := 0x8002 }, 6) := by decide

/-- V-LS-03: LDX #$7F. -/
theorem test_ldx_V_LS_03 :
    after (fun t => (t.cpu, t.cyc))
      (start ({ cpu0 with n := true, z := true }) [(0x0, 0xA2), (0x1, 0x7F), (0x2, 0xEA)] [])
      = some ({ cpu0 with x := 0x7F, pc := 0x8002 }, 2) := by decide

/-- V-LS-06: LDX $F0,Y. -/
theorem test_ldx_V_LS_06 :
    after (fun t => (t.cpu, t.cyc))
      (start ({ cpu0 with y := 0xF }) [(0x0, 0xB6), (0x1, 0xF0), (0x2, 0xEA)] [(0xF0, 0x01)])
      = some ({ cpu0 with y := 0xF, pc := 0x8002, z := true }, 4) := by decide

/-- V-LS-07: LDY $80,X. -/
theorem test_ldy_V_LS_07 :
    after (fun t => (t.cpu, t.cyc))
      (start ({ cpu0 with x := 0xFF })
        [(0x0, 0xB4), (0x1, 0x80), (0x2, 0xEA)] [(0x7F, 0x33), (0x80, 0x01)])
      = some ({ cpu0 with x := 0xFF, y := 0x33, pc := 0x8002 }, 4) := by decide

/-- V-LS-25: STA $02FF,X. -/
theorem test_sta_V_LS_25 :
    after (fun t => (t.cpu, t.cyc, [peek 0x0300 t, peek 0x0200 t]))
      (start ({ cpu0 with a := 0x22, x := 0x1 }) [(0x0, 0x9D), (0x1, 0xFF), (0x2, 0x02), (0x3, 0xEA)] [])
      = some ({ cpu0 with a := 0x22, x := 0x1, pc := 0x8003 }, 5, [0x22, 0x00]) := by decide

/-- V-LS-30: STA $1FFF. -/
theorem test_sta_V_LS_30 :
    after (fun t => (t.cpu, t.cyc, [peek 0x07FF t]))
      (start ({ cpu0 with a := 0x47 }) [(0x0, 0x8D), (0x1, 0xFF), (0x2, 0x1F), (0x3, 0xEA)] [])
      = some ({ cpu0 with a := 0x47, pc := 0x8003 }, 4, [0x47]) := by decide

/-- V-LS-22: STX $F0,Y. -/
theorem test_stx_V_LS_22 :
    after (fun t => (t.cpu, t.cyc, [peek 0x0010 t]))
      (start ({ cpu0 with x := 0xAA, y := 0x20 }) [(0x0, 0x96), (0x1, 0xF0), (0x2, 0xEA)] [])
      = some ({ cpu0 with x := 0xAA, y := 0x20, pc := 0x8002 }, 4, [0xAA]) := by decide

/-- V-LS-23: STY $0300. -/
theorem test_sty_V_LS_23 :
    after (fun t => (t.cpu, t.cyc, [peek 0x0300 t]))
      (start ({ cpu0 with y := 0x80 }) [(0x0, 0x8C), (0x2, 0x03), (0x3, 0xEA)] [])
      = some ({ cpu0 with y := 0x80, pc := 0x8003 }, 4, [0x80]) := by decide

/-! Transfers and the stack (spec/41_transfer_stack.md). -/

/-- V-TS-01: TAX. -/
theorem test_tax_V_TS_01 :
    after (fun t => (t.cpu, t.cyc))
      (start ({ cpu0 with a := 0x80, x := 0x1 }) [(0x0, 0xAA), (0x1, 0xEA)] [])
      = some ({ cpu0 with a := 0x80, x := 0x80, pc := 0x8001, n := true }, 2) := by decide

/-- V-TS-02: TAY. -/
theorem test_tay_V_TS_02 :
    after (fun t => (t.cpu, t.cyc))
      (start ({ cpu0 with y := 0x1 }) [(0x0, 0xA8), (0x1, 0xEA)] [])
      = some ({ cpu0 with pc := 0x8001, z := true }, 2) := by decide

/-- V-TS-03: TXA. -/
theorem test_txa_V_TS_03 :
    after (fun t => (t.cpu, t.cyc))
      (start ({ cpu0 with a := 0x80, x := 0x7F, n := true, z := true }) [(0x0, 0x8A), (0x1, 0xEA)] [])
      = some ({ cpu0 with a := 0x7F, x := 0x7F, pc := 0x8001 }, 2) := by decide

/-- V-TS-04: TYA. -/
theorem test_tya_V_TS_04 :
    after (fun t => (t.cpu, t.cyc))
      (start ({ cpu0 with y := 0xFF }) [(0x0, 0x98), (0x1, 0xEA)] [])
      = some ({ cpu0 with a := 0xFF, y := 0xFF, pc := 0x8001, n := true }, 2) := by decide

/-- V-TS-05: TSX. -/
theorem test_tsx_V_TS_05 :
    after (fun t => (t.cpu, t.cyc))
      (start ({ cpu0 with x := 0x55, s := 0x0 }) [(0x0, 0xBA), (0x1, 0xEA)] [])
      = some ({ cpu0 with s := 0x0, pc := 0x8001, z := true }, 2) := by decide

/-- V-TS-06: TXS. -/
theorem test_txs_V_TS_06 :
    after (fun t => (t.cpu, t.cyc))
      (start ({ cpu0 with n := true }) [(0x0, 0x9A), (0x1, 0xEA)] [])
      = some ({ cpu0 with s := 0x0, pc := 0x8001, n := true }, 2) := by decide

/-- V-TS-08: PHA. -/
theorem test_pha_V_TS_08 :
    after (fun t => (t.cpu, t.cyc, [peek 0x0100 t]))
      (start ({ cpu0 with a := 0x9A, s := 0x0 }) [(0x0, 0x48), (0x1, 0xEA)] [])
      = some ({ cpu0 with a := 0x9A, s := 0xFF, pc := 0x8001 }, 3, [0x9A]) := by decide

/-- V-TS-09: PHP. -/
theorem test_php_V_TS_09 :
    after (fun t => (t.cpu, t.cyc, [peek 0x01FD t]))
      (start ({ cpu0 with i := false }) [(0x0, 0x08), (0x1, 0xEA)] [])
      = some ({ cpu0 with s := 0xFC, pc := 0x8001, i := false }, 3, [0x30]) := by decide

/-- V-TS-10: PHP. -/
theorem test_php_V_TS_10 :
    after (fun t => (t.cpu, t.cyc, [peek 0x01FD t]))
      (start ({ cpu0 with n := true, v := true, d := true, z := true, c := true })
        [(0x0, 0x08), (0x1, 0xEA)] [])
      = some ({ cpu0 with s := 0xFC, pc := 0x8001, n := true, v := true, d := true, z := true, c := true }, 3, [0xFF]) := by decide

/-- V-TS-12: PLA. -/
theorem test_pla_V_TS_12 :
    after (fun t => (t.cpu, t.cyc))
      (start ({ cpu0 with s := 0xFF }) [(0x0, 0x68), (0x1, 0xEA)] [(0x100, 0x80), (0x1FF, 0x01)])
      = some ({ cpu0 with a := 0x80, s := 0x0, pc := 0x8001, n := true }, 4) := by decide

/-- V-TS-13: PLP. -/
theorem test_plp_V_TS_13 :
    after (fun t => (t.cpu, t.cyc))
      (start ({ cpu0 with s := 0xFC, i := false }) [(0x0, 0x28), (0x1, 0xEA)] [(0x1FD, 0xFF)])
      = some ({ cpu0 with pc := 0x8001, n := true, v := true, d := true, z := true, c := true }, 4) := by decide

/-- V-TS-14: PLP. -/
theorem test_plp_V_TS_14 :
    after (fun t => (t.cpu, t.cyc))
      (start ({ cpu0 with s := 0xFC, n := true, v := true, d := true, z := true, c := true })
        [(0x0, 0x28), (0x1, 0xEA)] [(0x1FD, 0x30)])
      = some ({ cpu0 with pc := 0x8001, i := false }, 4) := by decide

/-! Arithmetic, logic, compare (spec/42_arith_logic.md). -/

/-- V-AL-02: ADC #$90. -/
theorem test_adc_V_AL_02 :
    after (fun t => (t.cpu, t.cyc))
      (start ({ cpu0 with a := 0xD0 }) [(0x0, 0x69), (0x1, 0x90), (0x2, 0xEA)] [])
      = some ({ cpu0 with a := 0x60, pc := 0x8002, v := true, c := true }, 2) := by decide

/-- V-AL-06: ADC #$01. -/
theorem test_adc_V_AL_06 :
    after (fun t => (t.cpu, t.cyc))
      (start ({ cpu0 with a := 0x9, d := true }) [(0x0, 0x69), (0x1, 0x01), (0x2, 0xEA)] [])
      = some ({ cpu0 with a := 0xA, pc := 0x8002, d := true }, 2) := by decide

/-- V-AL-10: SBC #$B0. -/
theorem test_sbc_V_AL_10 :
    after (fun t => (t.cpu, t.cyc))
      (start ({ cpu0 with a := 0x50, c := true }) [(0x0, 0xE9), (0x1, 0xB0), (0x2, 0xEA)] [])
      = some ({ cpu0 with a := 0xA0, pc := 0x8002, n := true, v := true }, 2) := by decide

/-- V-AL-15: SBC #$01. -/
theorem test_sbc_V_AL_15 :
    after (fun t => (t.cpu, t.cyc))
      (start ({ cpu0 with a := 0x10, d := true, c := true }) [(0x0, 0xE9), (0x1, 0x01), (0x2, 0xEA)] [])
      = some ({ cpu0 with a := 0xF, pc := 0x8002, d := true, c := true }, 2) := by decide

/-- V-AL-18: AND #$80. -/
theorem test_and_V_AL_18 :
    after (fun t => (t.cpu, t.cyc))
      (start ({ cpu0 with a := 0xFF }) [(0x0, 0x29), (0x1, 0x80), (0x2, 0xEA)] [])
      = some ({ cpu0 with a := 0x80, pc := 0x8002, n := true }, 2) := by decide

/-- V-AL-20: ORA #$81. -/
theorem test_ora_V_AL_20 :
    after (fun t => (t.cpu, t.cyc))
      (start ({ cpu0 with a := 0x18 }) [(0x0, 0x09), (0x1, 0x81), (0x2, 0xEA)] [])
      = some ({ cpu0 with a := 0x99, pc := 0x8002, n := true }, 2) := by decide

/-- V-AL-22: EOR #$FF. -/
theorem test_eor_V_AL_22 :
    after (fun t => (t.cpu, t.cyc))
      (start ({ cpu0 with a := 0xF, v := true, c := true }) [(0x0, 0x49), (0x1, 0xFF), (0x2, 0xEA)] [])
      = some ({ cpu0 with a := 0xF0, pc := 0x8002, n := true, v := true, c := true }, 2) := by decide

/-- V-AL-25: CMP #$01. -/
theorem test_cmp_V_AL_25 :
    after (fun t => (t.cpu, t.cyc))
      (start ({ cpu0 with a := 0x80, v := true }) [(0x0, 0xC9), (0x1, 0x01), (0x2, 0xEA)] [])
      = some ({ cpu0 with a := 0x80, pc := 0x8002, v := true, c := true }, 2) := by decide

/-- V-AL-33: CMP $02FF,X. -/
theorem test_cmp_V_AL_33 :
    after (fun t => (t.cpu, t.cyc))
      (start ({ cpu0 with a := 0x10 })
        [(0x0, 0xDD), (0x1, 0xFF), (0x2, 0x02), (0x3, 0xEA)] [(0x2FF, 0x10)])
      = some ({ cpu0 with a := 0x10, pc := 0x8003, z := true, c := true }, 4) := by decide

/-- V-AL-27: CPX #$10. -/
theorem test_cpx_V_AL_27 :
    after (fun t => (t.cpu, t.cyc))
      (start ({ cpu0 with x := 0x20 }) [(0x0, 0xE0), (0x1, 0x10), (0x2, 0xEA)] [])
      = some ({ cpu0 with x := 0x20, pc := 0x8002, c := true }, 2) := by decide

/-- V-AL-28: CPY $10. -/
theorem test_cpy_V_AL_28 :
    after (fun t => (t.cpu, t.cyc))
      (start cpu0 [(0x0, 0xC4), (0x1, 0x10), (0x2, 0xEA)] [(0x10, 0x01)])
      = some ({ cpu0 with pc := 0x8002, n := true }, 3) := by decide

/-- V-AL-29: BIT $10. -/
theorem test_bit_V_AL_29 :
    after (fun t => (t.cpu, t.cyc))
      (start ({ cpu0 with a := 0xF }) [(0x0, 0x24), (0x1, 0x10), (0x2, 0xEA)] [(0x10, 0xF0)])
      = some ({ cpu0 with a := 0xF, pc := 0x8002, n := true, v := true, z := true }, 3) := by decide

/-- V-AL-31: BIT $0300. -/
theorem test_bit_V_AL_31 :
    after (fun t => (t.cpu, t.cyc))
      (start cpu0 [(0x0, 0x2C), (0x2, 0x03), (0x3, 0xEA)] [(0x300, 0x40)])
      = some ({ cpu0 with pc := 0x8003, v := true, z := true }, 4) := by decide

/-! Increment, decrement, shift, rotate (spec/43_incdec_shift.md). -/

/-- V-RM-01: INC $10. -/
theorem test_inc_V_RM_01 :
    after (fun t => (t.cpu, t.cyc, [peek 0x0010 t]))
      (start ({ cpu0 with c := true }) [(0x0, 0xE6), (0x1, 0x10), (0x2, 0xEA)] [(0x10, 0xFF)])
      = some ({ cpu0 with pc := 0x8002, z := true, c := true }, 5, [0x00]) := by decide

/-- V-RM-05: INC $02FF,X. -/
theorem test_inc_V_RM_05 :
    after (fun t => (t.cpu, t.cyc, [peek 0x0300 t, peek 0x0200 t]))
      (start ({ cpu0 with x := 0x1 })
        [(0x0, 0xFE), (0x1, 0xFF), (0x2, 0x02), (0x3, 0xEA)] [(0x300, 0x0F)])
      = some ({ cpu0 with x := 0x1, pc := 0x8003 }, 7, [0x10, 0x00]) := by decide

/-- V-RM-02: DEC $10. -/
theorem test_dec_V_RM_02 :
    after (fun t => (t.cpu, t.cyc, [peek 0x0010 t]))
      (start cpu0 [(0x0, 0xC6), (0x1, 0x10), (0x2, 0xEA)] [])
      = some ({ cpu0 with pc := 0x8002, n := true }, 5, [0xFF]) := by decide

/-- V-RM-07: INX. -/
theorem test_inx_V_RM_07 :
    after (fun t => (t.cpu, t.cyc))
      (start ({ cpu0 with x := 0xFF }) [(0x0, 0xE8), (0x1, 0xEA)] [])
      = some ({ cpu0 with pc := 0x8001, z := true }, 2) := by decide

/-- V-RM-08: INY. -/
theorem test_iny_V_RM_08 :
    after (fun t => (t.cpu, t.cyc))
      (start ({ cpu0 with y := 0x7F }) [(0x0, 0xC8), (0x1, 0xEA)] [])
      = some ({ cpu0 with y := 0x80, pc := 0x8001, n := true }, 2) := by decide

/-- V-RM-09: DEX. -/
theorem test_dex_V_RM_09 :
    after (fun t => (t.cpu, t.cyc))
      (start cpu0 [(0x0, 0xCA), (0x1, 0xEA)] [])
      = some ({ cpu0 with x := 0xFF, pc := 0x8001, n := true }, 2) := by decide

/-- V-RM-10: DEY. -/
theorem test_dey_V_RM_10 :
    after (fun t => (t.cpu, t.cyc))
      (start ({ cpu0 with y := 0x1, n := true, c := true }) [(0x0, 0x88), (0x1, 0xEA)] [])
      = some ({ cpu0 with pc := 0x8001, z := true, c := true }, 2) := by decide

/-- V-RM-12: ASL A. -/
theorem test_asl_V_RM_12 :
    after (fun t => (t.cpu, t.cyc))
      (start ({ cpu0 with a := 0x41, c := true }) [(0x0, 0x0A), (0x1, 0xEA)] [])
      = some ({ cpu0 with a := 0x82, pc := 0x8001, n := true }, 2) := by decide

/-- V-RM-20: ASL $0300. -/
theorem test_asl_V_RM_20 :
    after (fun t => (t.cpu, t.cyc, [peek 0x0300 t]))
      (start cpu0 [(0x0, 0x0E), (0x2, 0x03), (0x3, 0xEA)] [(0x300, 0xC0)])
      = some ({ cpu0 with pc := 0x8003, n := true, c := true }, 6, [0x80]) := by decide

/-- V-RM-13: LSR A. -/
theorem test_lsr_V_RM_13 :
    after (fun t => (t.cpu, t.cyc))
      (start ({ cpu0 with a := 0x1, n := true }) [(0x0, 0x4A), (0x1, 0xEA)] [])
      = some ({ cpu0 with pc := 0x8001, z := true, c := true }, 2) := by decide

/-- V-RM-14: LSR $10. -/
theorem test_lsr_V_RM_14 :
    after (fun t => (t.cpu, t.cyc, [peek 0x0010 t]))
      (start ({ cpu0 with c := true }) [(0x0, 0x46), (0x1, 0x10), (0x2, 0xEA)] [(0x10, 0x82)])
      = some ({ cpu0 with pc := 0x8002 }, 5, [0x41]) := by decide

/-- V-RM-15: ROL A. -/
theorem test_rol_V_RM_15 :
    after (fun t => (t.cpu, t.cyc))
      (start ({ cpu0 with a := 0x80, c := true }) [(0x0, 0x2A), (0x1, 0xEA)] [])
      = some ({ cpu0 with a := 0x1, pc := 0x8001, c := true }, 2) := by decide

/-- V-RM-16: ROL $10. -/
theorem test_rol_V_RM_16 :
    after (fun t => (t.cpu, t.cyc, [peek 0x0010 t]))
      (start cpu0 [(0x0, 0x26), (0x1, 0x10), (0x2, 0xEA)] [(0x10, 0x40)])
      = some ({ cpu0 with pc := 0x8002, n := true }, 5, [0x80]) := by decide

/-- V-RM-17: ROR A. -/
theorem test_ror_V_RM_17 :
    after (fun t => (t.cpu, t.cyc))
      (start ({ cpu0 with a := 0x1, c := true }) [(0x0, 0x6A), (0x1, 0xEA)] [])
      = some ({ cpu0 with a := 0x80, pc := 0x8001, n := true, c := true }, 2) := by decide

/-- V-RM-19: ROR $0300,X. -/
theorem test_ror_V_RM_19 :
    after (fun t => (t.cpu, t.cyc, [peek 0x0302 t]))
      (start ({ cpu0 with x := 0x2, c := true }) [(0x0, 0x7E), (0x2, 0x03), (0x3, 0xEA)] [(0x302, 0xFE)])
      = some ({ cpu0 with x := 0x2, pc := 0x8003, n := true }, 7, [0xFF]) := by decide

/-! Branches, jumps, subroutines (spec/44_branch_jump.md). -/

/-- V-BR-04: BCC +$7F. -/
theorem test_bcc_V_BR_04 :
    after (fun t => (t.cpu, t.cyc))
      (start ({ cpu0 with pc := 0x80F0 }) [(0xF0, 0x90), (0xF1, 0x7F), (0xF2, 0xEA)] [])
      = some ({ cpu0 with pc := 0x8171 }, 4) := by decide

/-- V-BR-11: BCC (not taken, C=1). -/
theorem test_bcc_V_BR_11 :
    after (fun t => (t.cpu, t.cyc))
      (start ({ cpu0 with c := true }) [(0x0, 0x90), (0x1, 0x10), (0x2, 0xEA)] [])
      = some ({ cpu0 with pc := 0x8002, c := true }, 2) := by decide

/-- V-BR-05: BCS -4 (page down). -/
theorem test_bcs_V_BR_05 :
    after (fun t => (t.cpu, t.cyc))
      (start ({ cpu0 with pc := 0x8100, c := true }) [(0x100, 0xB0), (0x101, 0xFC), (0x102, 0xEA)] [])
      = some ({ cpu0 with pc := 0x80FE, c := true }, 4) := by decide

/-- V-BR-03: BEQ -2 (to itself). -/
theorem test_beq_V_BR_03 :
    after (fun t => (t.cpu, t.cyc))
      (start ({ cpu0 with z := true }) [(0x0, 0xF0), (0x1, 0xFE), (0x2, 0xEA)] [])
      = some ({ cpu0 with z := true }, 3) := by decide

/-- V-BR-01: BNE +4 (not taken). -/
theorem test_bne_V_BR_01 :
    after (fun t => (t.cpu, t.cyc))
      (start ({ cpu0 with z := true }) [(0x0, 0xD0), (0x1, 0x04), (0x2, 0xEA)] [])
      = some ({ cpu0 with pc := 0x8002, z := true }, 2) := by decide

/-- V-BR-02: BNE +4 (taken). -/
theorem test_bne_V_BR_02 :
    after (fun t => (t.cpu, t.cyc))
      (start cpu0 [(0x0, 0xD0), (0x1, 0x04), (0x2, 0xEA)] [])
      = some ({ cpu0 with pc := 0x8006 }, 3) := by decide

/-- V-BR-06: BMI -128. -/
theorem test_bmi_V_BR_06 :
    after (fun t => (t.cpu, t.cyc))
      (start ({ cpu0 with pc := 0x8140, n := true }) [(0x140, 0x30), (0x141, 0x80), (0x142, 0xEA)] [])
      = some ({ cpu0 with pc := 0x80C2, n := true }, 4) := by decide

/-- V-BR-12: BMI (not taken, N=0). -/
theorem test_bmi_V_BR_12 :
    after (fun t => (t.cpu, t.cyc))
      (start cpu0 [(0x0, 0x30), (0x1, 0x10), (0x2, 0xEA)] [])
      = some ({ cpu0 with pc := 0x8002 }, 2) := by decide

/-- V-BR-07: BPL +2 at page end. -/
theorem test_bpl_V_BR_07 :
    after (fun t => (t.cpu, t.cyc))
      (start ({ cpu0 with pc := 0x80FD }) [(0xFD, 0x10), (0xFE, 0x02), (0xFF, 0xEA)] [])
      = some ({ cpu0 with pc := 0x8101 }, 4) := by decide

/-- V-BR-08: BPL +0 at $80FE. -/
theorem test_bpl_V_BR_08 :
    after (fun t => (t.cpu, t.cyc))
      (start ({ cpu0 with pc := 0x80FE }) [(0xFE, 0x10), (0x100, 0xEA)] [])
      = some ({ cpu0 with pc := 0x8100 }, 3) := by decide

/-- V-BR-09: BVC +1 (not taken). -/
theorem test_bvc_V_BR_09 :
    after (fun t => (t.cpu, t.cyc))
      (start ({ cpu0 with v := true }) [(0x0, 0x50), (0x1, 0x01), (0x2, 0xEA)] [])
      = some ({ cpu0 with pc := 0x8002, v := true }, 2) := by decide

/-- V-BR-10: BVS +1. -/
theorem test_bvs_V_BR_10 :
    after (fun t => (t.cpu, t.cyc))
      (start ({ cpu0 with v := true }) [(0x0, 0x70), (0x1, 0x01), (0x2, 0xEA)] [])
      = some ({ cpu0 with pc := 0x8003, v := true }, 3) := by decide

/-- V-BR-13: JMP $1234. -/
theorem test_jmp_V_BR_13 :
    after (fun t => (t.cpu, t.cyc))
      (start cpu0 [(0x0, 0x4C), (0x1, 0x34), (0x2, 0x12), (0x3, 0xEA)] [])
      = some ({ cpu0 with pc := 0x1234 }, 3) := by decide

/-- V-BR-15: JMP ($02FF). -/
theorem test_jmp_V_BR_15 :
    after (fun t => (t.cpu, t.cyc))
      (start cpu0 [(0x0, 0x6C), (0x1, 0xFF), (0x2, 0x02), (0x3, 0xEA)] [(0x200, 0x90), (0x300, 0x40)])
      = some ({ cpu0 with pc := 0x9000 }, 5) := by decide

/-- V-BR-16: JSR $9000. -/
theorem test_jsr_V_BR_16 :
    after (fun t => (t.cpu, t.cyc, [peek 0x01FD t, peek 0x01FC t]))
      (start ({ cpu0 with pc := 0x80FE }) [(0xFE, 0x20), (0x100, 0x90), (0x101, 0xEA)] [])
      = some ({ cpu0 with s := 0xFB, pc := 0x9000 }, 6, [0x81, 0x00]) := by decide

/-- V-BR-17: JSR $9000. -/
theorem test_jsr_V_BR_17 :
    after (fun t => (t.cpu, t.cyc, [peek 0x0100 t, peek 0x01FF t]))
      (start ({ cpu0 with s := 0x0 }) [(0x0, 0x20), (0x2, 0x90), (0x3, 0xEA)] [])
      = some ({ cpu0 with s := 0xFE, pc := 0x9000 }, 6, [0x80, 0x02]) := by decide

/-- V-BR-18: RTS. -/
theorem test_rts_V_BR_18 :
    after (fun t => (t.cpu, t.cyc))
      (start ({ cpu0 with s := 0xFB }) [(0x0, 0x60), (0x1, 0xEA)] [(0x1FD, 0x81)])
      = some ({ cpu0 with pc := 0x8101 }, 6) := by decide

/-- V-BR-19: RTS. -/
theorem test_rts_V_BR_19 :
    after (fun t => (t.cpu, t.cyc))
      (start ({ cpu0 with s := 0xFE }) [(0x0, 0x60), (0x1, 0xEA)] [(0x100, 0x80), (0x1FF, 0xFF)])
      = some ({ cpu0 with s := 0x0, pc := 0x8100 }, 6) := by decide

/-! Flags, BRK, RTI, illegal opcodes (spec/45_flag_system.md). -/

/-- V-FS-01: CLC. -/
theorem test_clc_V_FS_01 :
    after (fun t => (t.cpu, t.cyc))
      (start ({ cpu0 with n := true, v := true, d := true, z := true, c := true })
        [(0x0, 0x18), (0x1, 0xEA)] [])
      = some ({ cpu0 with pc := 0x8001, n := true, v := true, d := true, z := true }, 2) := by decide

/-- V-FS-02: SEC. -/
theorem test_sec_V_FS_02 :
    after (fun t => (t.cpu, t.cyc))
      (start ({ cpu0 with i := false }) [(0x0, 0x38), (0x1, 0xEA)] [])
      = some ({ cpu0 with pc := 0x8001, i := false, c := true }, 2) := by decide

/-- V-FS-03: CLI. -/
theorem test_cli_V_FS_03 :
    after (fun t => (t.cpu, t.cyc))
      (start ({ cpu0 with n := true, v := true, d := true, z := true, c := true })
        [(0x0, 0x58), (0x1, 0xEA)] [])
      = some ({ cpu0 with pc := 0x8001, n := true, v := true, d := true, i := false, z := true, c := true }, 2) := by decide

/-- V-FS-04: SEI. -/
theorem test_sei_V_FS_04 :
    after (fun t => (t.cpu, t.cyc))
      (start ({ cpu0 with i := false }) [(0x0, 0x78), (0x1, 0xEA)] [])
      = some ({ cpu0 with pc := 0x8001 }, 2) := by decide

/-- V-FS-05: CLV. -/
theorem test_clv_V_FS_05 :
    after (fun t => (t.cpu, t.cyc))
      (start ({ cpu0 with n := true, v := true, d := true, z := true, c := true })
        [(0x0, 0xB8), (0x1, 0xEA)] [])
      = some ({ cpu0 with pc := 0x8001, n := true, d := true, z := true, c := true }, 2) := by decide

/-- V-FS-06: CLD. -/
theorem test_cld_V_FS_06 :
    after (fun t => (t.cpu, t.cyc))
      (start ({ cpu0 with n := true, v := true, d := true, z := true, c := true })
        [(0x0, 0xD8), (0x1, 0xEA)] [])
      = some ({ cpu0 with pc := 0x8001, n := true, v := true, z := true, c := true }, 2) := by decide

/-- V-FS-07: SED. -/
theorem test_sed_V_FS_07 :
    after (fun t => (t.cpu, t.cyc))
      (start ({ cpu0 with i := false }) [(0x0, 0xF8), (0x1, 0xEA)] [])
      = some ({ cpu0 with pc := 0x8001, d := true, i := false }, 2) := by decide

/-- V-FS-08: NOP. -/
theorem test_nop_V_FS_08 :
    after (fun t => (t.cpu, t.cyc))
      (start ({ cpu0 with a := 0x1, x := 0x2, y := 0x3, n := true, v := true, d := true, z := true, c := true })
        [(0x0, 0xEA), (0x1, 0xEA)] [])
      = some ({ cpu0 with a := 0x1, x := 0x2, y := 0x3, pc := 0x8001, n := true, v := true, d := true, z := true, c := true }, 2) := by decide

/-- V-FS-09: BRK. -/
theorem test_brk_V_FS_09 :
    after (fun t => (t.cpu, t.cyc, [peek 0x01FD t, peek 0x01FC t, peek 0x01FB t]))
      (start ({ cpu0 with i := false }) [(0x1, 0xFF), (0x2, 0xEA)] [])
      = some ({ cpu0 with s := 0xFA, pc := 0xA000 }, 7, [0x80, 0x02, 0x30]) := by decide

/-- V-FS-10: BRK. -/
theorem test_brk_V_FS_10 :
    after (fun t => (t.cpu, t.cyc, [peek 0x0101 t, peek 0x0100 t, peek 0x01FF t]))
      (start ({ cpu0 with s := 0x1, pc := 0x80FF, n := true, v := true, d := true, i := false, z := true, c := true })
        [(0x100, 0xFF), (0x101, 0xEA)] [])
      = some ({ cpu0 with s := 0xFE, pc := 0xA000, n := true, v := true, d := true, z := true, c := true }, 7, [0x81, 0x01, 0xFB]) := by decide

/-- V-FS-11: RTI. -/
theorem test_rti_V_FS_11 :
    after (fun t => (t.cpu, t.cyc))
      (start ({ cpu0 with s := 0xFA })
        [(0x0, 0x40), (0x1, 0xEA)] [(0x1FB, 0xC3), (0x1FC, 0x02), (0x1FD, 0x80)])
      = some ({ cpu0 with pc := 0x8002, n := true, v := true, i := false, z := true, c := true }, 6) := by decide

/-- V-FS-12: RTI. -/
theorem test_rti_V_FS_12 :
    after (fun t => (t.cpu, t.cyc))
      (start ({ cpu0 with s := 0xFE, n := true, v := true, d := true, z := true, c := true })
        [(0x0, 0x40), (0x1, 0xEA)] [(0x100, 0x34), (0x101, 0x12), (0x1FF, 0x30)])
      = some ({ cpu0 with s := 0x1, pc := 0x1234, i := false }, 6) := by decide

/-- V-FS-17: unofficial $A7 (L=2). -/
theorem test_ill_V_FS_17 :
    after (fun t => (t.cpu, t.cyc))
      (start cpu0 [(0x0, 0xA7), (0x1, 0x10), (0x2, 0xEA)] [(0x10, 0x99)])
      = some ({ cpu0 with pc := 0x8002 }, 2) := by decide

/-- V-FS-18: unofficial $0C (L=3). -/
theorem test_ill_V_FS_18 :
    after (fun t => (t.cpu, t.cyc))
      (start cpu0 [(0x0, 0x0C), (0x1, 0x02), (0x2, 0x20), (0x3, 0xEA)] [])
      = some ({ cpu0 with pc := 0x8003 }, 3) := by decide

/-- R300, R157: a count of `IllegalTiming` above the length, one below two, none. -/
theorem test_illegal_timing_R300 :
    [[(0xA7, 5)], [(0xA7, 1)], []].map (fun timing => after (fun t => (t.cpu.pc, t.cyc))
      { start cpu0 [(0x0, 0xA7), (0x1, 0x10)] [] with params := { Params.default with illegalTiming := timing } })
      = [some (0x8002, 5), some (0x8002, 2), some (0x8002, 2)] := by decide

/-! Placing and fetching. -/

/-- The table's word of `LDA abs` ($AD) is read back by the decoder. -/
theorem test_table_word : decodeTableWord 8 0xAD = some (.lda .abs) := by decide

/-- An opcode byte with too few operand bytes is refused by name. -/
theorem test_operands_missing : decodeBytes [0xAD, 0x34] = .error (.operandsMissing 0xAD) := by rfl

/-- The first step from reset with `LDA #` placed runs it: two cycles, A from the operand byte 0. -/
theorem test_fetch_word :
    after (fun t => (t.cpu.pc, t.cyc, t.cpu.z)) (State.reset.withFetchWord 8 0xA9) = some (2, 2, true) := by decide

/-! Reset and interrupts (60_exceptions.md, 70_reset_and_hazards.md). -/

/-- V-RS-01: RESET loads PC, sets I, lowers S by 3, drops a latched NMI, takes 7 cycles. -/
theorem test_reset_V_RS_01 :
    after (fun t => (t.cpu, t.nmiLatch, t.cyc, t.busLatch))
      { start { cpu0 with s := 0, pc := 0x1234, a := 0x55, n := true, v := true, d := true, i := false, c := true } [] [] with
        resetPending := true, nmiLatch := true }
      = some ({ cpu0 with a := 0x55, n := true, v := true, d := true, c := true }, false, 7, 0x80) := by decide

/-- V-IN-01: a latched NMI is taken after the NOP. -/
theorem test_nmi_V_IN_01 :
    after (fun t => (t.cpu.pc, t.cpu.s, t.nmiLatch, [peek 0x01FD t, peek 0x01FC t, peek 0x01FB t]))
      { start { cpu0 with v := true, i := false, c := true } [(0, 0xEA), (1, 0xEA)] [] with nmiLatch := true }
      = some (0x9000, 0xFA, false, [0x80, 0x01, 0x61]) := by decide

/-- V-IN-02: CLI and the pending frame IRQ is taken at once. -/
theorem test_irq_V_IN_02 :
    after (fun t => (t.cpu.pc, t.cpu.i, t.cyc, [peek 0x01FD t, peek 0x01FC t, peek 0x01FB t]))
      (let s := start cpu0 [(0, 0x58), (1, 0xEA)] []
       { s with apu := { s.apu with frameIrq := true } })
      = some (0xA000, true, 9, [0x80, 0x01, 0x20]) := by decide

/-- V-IN-03: with I set the frame IRQ waits. -/
theorem test_irq_masked_V_IN_03 :
    after (fun t => (t.cpu.pc, t.cpu.s, t.cyc))
      (let s := start cpu0 [(0, 0xEA), (1, 0xEA)] []
       { s with apu := { s.apu with frameIrq := true } })
      = some (0x8001, 0xFD, 2) := by decide

/-- V-ST-02: the read of $2002 one dot before the flag would be set returns 0 and suppresses it. -/
theorem test_status_race_V_ST_02 :
    after (fun t => (t.cpu.a, t.ppu.suppressVbl, t.ppu.scanline, t.ppu.dot))
      (let s := start cpu0 [(0, 0xAD), (1, 0x02), (2, 0x20), (3, 0xEA)] []
       { s with ppu := { s.ppu with ctrl := 0x80, scanline := 240, dot := 330 } })
      = some (0, true, 241, 1) := by decide

/-- R51, R462: the frame ends at (241, 1), and the state the host gets has the flag down again. -/
theorem test_frame_done_R462 :
    (runToFrame 1 (let s := start cpu0 [(0, 0xEA)] []
                   { s with ppu := { s.ppu with scanline := 240, dot := 338 } })).map
      (fun t => (t.ppu.vblank, t.ppu.frameDone, t.ppu.scanline)) = some (true, false, 241) := by decide

/-- U4: a power cycle gives CHR-RAM and RAM fresh contents and keeps CHR-ROM and PRG. -/
theorem test_power_cycle_U4 :
    (let s := start cpu0 [(0, 0xEA)] [(0, 1)]
     let p := { PowerOn.default with chrRam := [(0, 7)], ram := [(0, 9)] }
     [true, false].map (fun b =>
       let t := powerCycle p { s with cart := { s.cart with chrRam := b, chr := [(0, 5)] } }
       (t.cart.chr.get 0, t.ram.get 0, t.cart.prg.get 0))) = [(7, 9, 0xEA), (5, 9, 0xEA)] := by decide

/-! PPU functions (61_ppu.md). -/

/-- V-PR-01. -/
theorem test_scroll_V_PR_01 :
    (let p := scrollWrite 0x5E (scrollWrite 0x7D State.reset.ppu)
     (p.t, p.fineX, p.w)) = (0x616F, 5, false) := by decide

/-- V-PR-03. -/
theorem test_addr_V_PR_03 :
    (let p := addrWrite 0xAB (addrWrite 0xFF State.reset.ppu)
     (p.t, p.v, p.w)) = (0x3FAB, 0x3FAB, false) := by decide

/-- V-PR-07: the palette keeps six bits and is mirrored. -/
theorem test_palette_V_PR_07 :
    (let p := (ppuMemWrite .blank State.reset.ppu 0x3F04 0xFF).2
     [ppuMemRead .blank p 0x3F04, ppuMemRead .blank p 0x3F14, ppuMemRead .blank p 0x3F24]) = [0x3F, 0x3F, 0x3F] := by decide

/-- V-PR-11: the two mirrorings. -/
theorem test_mirroring_V_PR_11 :
    [0x2005, 0x2405, 0x2805, 0x2C05].map (ntIndex .horizontal) = [0x005, 0x005, 0x405, 0x405]
    ∧ [0x2005, 0x2405, 0x2805, 0x2C05].map (ntIndex .vertical) = [0x005, 0x405, 0x005, 0x405] := by decide

/-- V-PP-01 to V-PP-06. -/
theorem test_scroll_steps_V_PP :
    [0x001F, 0x041F].map incCoarseX = [0x0400, 0x0000]
    ∧ [0x7000, 0x73A0, 0x73E0, 0x1000].map incY = [0x0020, 0x0800, 0x0000, 0x2000] := by decide

/-- V-PP-07 to V-PP-10. -/
theorem test_fetch_addresses_V_PP :
    [0x0000, 0x0042, 0x0FBE].map (fun v => (atAddr v, atShift v)) = [(0x23C0, 0), (0x23C0, 6), (0x2FFF, 2)]
    ∧ ntAddr 0x7FFF = 0x2FFF := by decide

/-- V-PP-12 to V-PP-16. -/
theorem test_sprite_fetch_V_PP :
    (let p := State.reset.ppu
     let q := { p with ctrl := 0x20 }
     [sprPatAddr p 10 5 0x21 0, sprPatAddr p 10 5 0x21 0x80, sprPatAddr q 15 5 0x21 0, sprPatAddr q 15 5 0x21 0x80])
      = [0x0215, 0x0212, 0x1212, 0x1205]
    ∧ sprLoad { State.reset.ppu with sprCount := 1 } 0xB1 0x40 0 = 0x8D := by decide

/-- V-PP-17 to V-PP-21. -/
theorem test_multiplexer_V_PP :
    [muxIndex 2 1 none, muxIndex 0 0 (some ⟨0, 3, 2, true⟩), muxIndex 1 3 (some ⟨0, 1, 0, true⟩),
     muxIndex 1 3 (some ⟨0, 1, 0, false⟩), muxIndex 0 0 none] = [0x06, 0x1B, 0x0D, 0x11, 0x00] := by decide

/-- V-PP-22. -/
theorem test_sprite0_V_PP :
    [0, 1, 254, 255].map (fun x => sprite0Hits x 1 (some ⟨0, 1, 0, false⟩)
      { State.reset.ppu with mask := 0x18, spr0OnLine := true }) = [false, true, true, false] := by decide

/-- V-SE-05 and V-SE-06: the line at 0 and at 8 below a sprite. -/
theorem test_in_range_V_SE :
    inRange State.reset.ppu 0x0A 10 = true ∧ inRange State.reset.ppu 0x02 10 = false
    ∧ inRange { State.reset.ppu with ctrl := 0x20 } 0x02 10 = true := by decide

/-! APU functions and the controllers (62_apu.md, 20_memory.md R96). -/

/-- V-EN-01: one decay step per three clocks. -/
theorem test_envelope_V_EN_01 :
    (List.range 7).map (fun k =>
      let e := envelopeClock^[k + 1] { Envelope.powerOn with start := true, vol := 2 }
      (e.decay, e.divider)) = [(15, 2), (15, 1), (15, 0), (14, 2), (14, 1), (14, 0), (13, 2)] := by decide

/-- V-SW-01 and V-SW-02: ones' and two's complement. -/
theorem test_sweep_V_SW :
    (let p := { Pulse.powerOn with
                  timerPeriod := 0x100,
                  sweep := { Sweep.powerOn with enable := true, negate := true, shift := 1 } }
     ((List.range 4).map (fun k => ((sweepClock true)^[k + 1] p).timerPeriod),
      (List.range 4).map (fun k => ((sweepClock false)^[k + 1] p).timerPeriod)))
      = ([0x07F, 0x03F, 0x01F, 0x00F], [0x080, 0x040, 0x020, 0x010]) := by decide

/-- V-NO-01 and V-NO-02: where the two modes first differ. -/
theorem test_lfsr_V_NO :
    (lfsrNext false)^[15] 1 = 0x4001 ∧ (lfsrNext false)^[16] 1 = 0x6000 ∧ (lfsrNext true)^[10] 1 = 0x4020 := by decide

/-- V-MX-01, V-MX-02, V-MX-03 and V-MX-05. -/
theorem test_mixer_V_MX :
    mixTnd 15 0 0 = 47937 / 194540 ∧ mixPulse 15 = 7191 / 48140 ∧ mixPulse 30 = 7191 / 27820 ∧ mixPulse 8 = 799 / 9300 := by
  norm_num [mixTnd, mixPulse]

/-- R561, R612: one sample per cycle joins the output. -/
theorem test_audio_per_cycle :
    after (fun t => (t.cyc, t.audio.length)) (start cpu0 [(0, 0xEA), (1, 0xEA)] []) = some (2, 2) := by decide

/-- V-PD-01: the first ten reads of $4016 for the byte $91. -/
theorem test_pad_V_PD_01 :
    (let c := padWrite 0 (padWrite 1 { shift0 := 0, shift1 := 0, strobe := false, pad0 := 0x91, pad1 := 0x02 })
     (List.range 10).map (fun k => (padRead0 0x40 ((fun q => (padRead0 0x40 q).2)^[k] c)).1))
      = [0x41, 0x40, 0x40, 0x40, 0x41, 0x40, 0x40, 0x41, 0x41, 0x41] := by decide

/-! Witnesses: every statement with hypotheses has a case that meets them all. -/

/-- A state ready to run `LDA ($10),Y` from its operand byte, whose address crosses a page. -/
def sIzy : State :=
  start { cpu0 with pc := 0x8001, y := 0x10, a := 0x46 } [(0, 0xB1), (1, 0x10)] [(0x10, 0xF8), (0x11, 0x02), (0x308, 0x3D)]

/-- A state ready to run an absolute form at $02FF,X with X = 1. -/
def sAbs : State := start { cpu0 with pc := 0x8001, x := 1 } [(0, 0xFE), (1, 0xFF), (2, 0x02)] [(0x300, 0x0F)]

theorem reset_ppu_inv : PpuInv State.reset.ppu :=
  ⟨rfl, by decide, rfl, rfl, rfl, by decide, by decide, by decide, by decide, ⟨by decide, by decide⟩, by decide⟩

theorem witness_EncodeThenDecode :
    (Instr.lda .abs).wf = true ∧ ([0x34, 0x12] : List Byte).length = (Instr.lda .abs).bytes - 1
    ∧ (Instr.ill 0x02).wf = true ∧ ([] : List Byte).length = (Instr.ill 0x02).bytes - 1 := by decide

theorem witness_DecodeThenEncode : decodeBytes [0xAD, 0x34, 0x12, 0xEA] = .ok ⟨.lda .abs, [0x34, 0x12], [0xEA]⟩ := by rfl

theorem witness_StepRunsInstruction :
    let s := start cpu0 [(0, 0xA9), (1, 0x42)] []
    s.resetPending = false ∧ decodeOpcode (fetch s).1 = .lda .imm ∧ Plain s.cpu.pc s := ⟨rfl, by decide, rfl⟩

theorem witness_LoadFromMemory : OperandsPlain .izy sIzy ∧ Plain (effectiveAddr .izy sIzy) sIzy :=
  ⟨⟨rfl, fun _ => rfl⟩, rfl⟩

/-- The operand bytes name the first device register, $2000, where the effective address is not plain. -/
theorem witness_LoadFromMemory_device :
    let s := start { cpu0 with pc := 0x8001 } [(0, 0xAD), (1, 0x00), (2, 0x20)] []
    OperandsPlain .abs s ∧ effectiveAddr .abs s = 0x2000 ∧ ¬ Plain (effectiveAddr .abs s) s :=
  ⟨⟨rfl, fun _ => rfl⟩, by decide, by unfold Plain; decide⟩

theorem witness_ReadClassFrame : Instr.lda ∈ readClass ∧ Instr.bit ∈ readClass := by simp [readClass]

theorem witness_StoreResult : RamOk sIzy := rfl

/-- A store to $4014, which OAM DMA follows, and one to its neighbour. -/
theorem witness_StoreResult_dma :
    let s := fun lo : Byte => start { cpu0 with pc := 0x8001 } [(0, 0x8D), (1, lo), (2, 0x40)] []
    RamOk (s 0x14) ∧ (storeAddr .abs (s 0x14)).1 = 0x4014 ∧ RamOk (s 0x15) ∧ (storeAddr .abs (s 0x15)).1 = 0x4015 :=
  ⟨rfl, by decide, rfl, by decide⟩

theorem witness_StoreToMemory :
    RamOk sIzy ∧ OperandsPlain (storeAsRead .izy) sIzy ∧ (effectiveAddr (storeAsRead .izy) sIzy).toNat < 0x2000 :=
  ⟨rfl, ⟨rfl, fun _ => rfl⟩, by decide⟩

/-- The last byte that is RAM. -/
theorem witness_StoreToMemory_boundary :
    let s := start { cpu0 with pc := 0x8001 } [(1, 0xFF), (2, 0x1F)] []
    RamOk s ∧ OperandsPlain (storeAsRead .abs) s ∧ effectiveAddr (storeAsRead .abs) s = 0x1FFF :=
  ⟨rfl, ⟨rfl, fun _ => rfl⟩, by decide⟩

theorem witness_RegisterClassFrame : Instr.tax ∈ registerClass ∧ Instr.nop ∈ registerClass := by simp [registerClass]

theorem witness_PushResult : RamOk (start cpu0 [] []) := rfl

theorem witness_CountMemory : RamOk sAbs := rfl

theorem witness_ShiftMemory : RamOk sAbs := rfl

theorem witness_CountInMemory :
    RamOk sAbs ∧ OperandsPlain (rmwAsRead .abx) sAbs ∧ (effectiveAddr (rmwAsRead .abx) sAbs).toNat < 0x2000 :=
  ⟨rfl, ⟨rfl, fun _ => rfl⟩, by decide⟩

/-- A branch taken and a branch not taken, its opcode fetched from PRG. -/
theorem witness_BranchResult :
    (Instr.bne, fun c : Cpu => !c.z) ∈ branchClass ∧ Plain (start cpu0 [(0, 0x04)] []).cpu.pc (start cpu0 [(0, 0x04)] [])
    ∧ (!(start cpu0 [(0, 0x04)] []).cpu.z) = true ∧ (!(start { cpu0 with z := true } [(0, 0x04)] []).cpu.z) = false :=
  ⟨by simp [branchClass], rfl, rfl, rfl⟩

/-- A pointer at the end of its page: both of its bytes lie in RAM. -/
theorem witness_JumpResult :
    let s := start { cpu0 with pc := 0x8001 } [(1, 0xFF), (2, 0x02)] [(0x200, 0x90)]
    Plain s.cpu.pc s ∧ Plain (s.cpu.pc + 1) s ∧ Plain (fetchWord s).1 s
    ∧ Plain (word (hiByte (fetchWord s).1) (loByte (fetchWord s).1 + 1)) s := ⟨rfl, rfl, rfl, rfl⟩

theorem witness_JsrResult : RamOk sAbs ∧ Plain sAbs.cpu.pc sAbs ∧ Plain (sAbs.cpu.pc + 1) sAbs := ⟨rfl, rfl, rfl⟩

/-- The state JSR leaves is one RTS may return from. -/
theorem witness_CallReturn :
    ∃ t u : State, RamOk sAbs ∧ exec .jsr sAbs = .next t ∧ u.ram = t.ram ∧ u.cpu.s = t.cpu.s :=
  ⟨_, _, rfl, rfl, rfl, rfl⟩

theorem witness_BrkResult :
    RamOk (start cpu0 [] []) ∧ Plain 0xFFFE (start cpu0 [] []) ∧ Plain 0xFFFF (start cpu0 [] []) := ⟨rfl, rfl, rfl⟩

theorem witness_ReadClassCycles : Instr.lda ∈ readClass ∧ DmcIdle sIzy ∧ readCrosses .izy sIzy = true :=
  ⟨by simp [readClass], ⟨rfl, rfl⟩, by decide⟩

/-- No timing given, and one given for the byte. -/
theorem witness_RegisterClassCycles :
    Instr.tax ∈ registerClass ∧ DmcIdle (start cpu0 [] []) ∧ (∀ n, ((0x02 : Byte), n) ∉ Params.default.illegalTiming)
    ∧ { Params.default with illegalTiming := [(0x02, 5)] }.illegalTiming = ((0x02 : Byte), 5) :: [] :=
  ⟨by simp [registerClass], ⟨rfl, rfl⟩, fun _ h => (by cases h), rfl⟩

theorem witness_StoreCycles :
    DmcIdle sAbs ∧ (storeAddr .abx sAbs).1 ≠ 0x4014 ∧ (storeAddr .abx sAbs).1 ≠ 0x4015
    ∧ (fun m => Instr.asl (.mem m)) ∈ rmwClass ∧ (rmwAddr .abx sAbs).1 ≠ 0x4014 ∧ (rmwAddr .abx sAbs).1 ≠ 0x4015 :=
  ⟨⟨rfl, rfl⟩, by decide, by decide, by simp [rmwClass], by decide, by decide⟩

/-- Not taken, taken in the page, taken to another page. -/
theorem witness_BranchCycles :
    (Instr.bne, fun c : Cpu => !c.z) ∈ branchClass ∧ DmcIdle (start cpu0 [] [])
    ∧ (let s := start cpu0 [(0, 0x7F)] []
       hiByte (s.cpu.pc + 1 + sext16 (fetch s).1) = hiByte (s.cpu.pc + 1))
    ∧ (let s := start { cpu0 with pc := 0x80FF } [(0xFF, 0xFF)] []
       hiByte (s.cpu.pc + 1 + sext16 (fetch s).1) ≠ hiByte (s.cpu.pc + 1)) :=
  ⟨by simp [branchClass], ⟨rfl, rfl⟩, by decide, by decide⟩

theorem witness_ControlCycles : Instr.jsr ∈ controlClass ∧ DmcIdle (start cpu0 [] []) :=
  ⟨by simp [controlClass], rfl, rfl⟩

theorem witness_NmiTaken :
    let s := { start cpu0 [] [] with nmiLatch := true }
    RamOk s ∧ s.nmiLatch = true ∧ bit s.ppu.ctrl 7 = false ∧ Plain 0xFFFA s ∧ Plain 0xFFFB s ∧ DmcIdle s :=
  ⟨rfl, rfl, rfl, rfl, rfl, rfl, rfl⟩

/-- One state for each clause: no request, masked, taken. -/
theorem witness_IrqTaken :
    let s := start cpu0 [] []
    let m := { s with apu := { s.apu with frameIrq := true } }
    let u := { m with cpu := { m.cpu with i := false } }
    RamOk s ∧ s.nmiLatch = false ∧ ¬ (s.apu.frameIrq = true ∨ s.apu.dmc.irq = true ∨ s.cart.irq = true)
    ∧ RamOk m ∧ m.nmiLatch = false ∧ m.cpu.i = true
    ∧ RamOk u ∧ u.nmiLatch = false ∧ (u.apu.frameIrq = true ∨ u.apu.dmc.irq = true ∨ u.cart.irq = true)
    ∧ u.cpu.i = false ∧ Plain 0xFFFE u ∧ Plain 0xFFFF u ∧ DmcIdle u :=
  ⟨rfl, rfl, by decide, rfl, rfl, rfl, rfl, rfl, .inl rfl, rfl, rfl, rfl, rfl, rfl⟩

theorem witness_ResetTaken :
    State.reset.resetPending = true ∧ Plain 0xFFFC State.reset ∧ Plain 0xFFFD State.reset
    ∧ bit State.reset.ppu.ctrl 7 = false ∧ DmcIdle State.reset := ⟨rfl, rfl, rfl, rfl, rfl, rfl⟩

/-- The first and the last byte of secondary OAM, and a cartridge of mapper 0. -/
theorem witness_PowerOnState : 0 < 32 ∧ 31 < 32 ∧ Cartridge.blank.mapper = 0 := by decide

theorem witness_EdgeDetected : { start cpu0 [(0, 0xEA)] [] with nmiLatch := true }.nmiLatch = true := rfl

theorem witness_StepKeepsInv : Inv sIzy ∧ ∃ t, step sIzy = .next t :=
  ⟨⟨rfl, reset_ppu_inv, by constructor <;> decide, ⟨rfl, rfl⟩, rfl⟩, _, rfl⟩

/-- The first and the last address of RAM and its images. -/
theorem witness_RamMirrored : (0x0000 : Word).toNat < 0x2000 ∧ (0x1FFF : Word).toNat < 0x2000 := by decide

/-- The ends of every range, an address mapper 0 does not drive and one it does. -/
theorem witness_OpenBus :
    (0x4000 ≤ (0x4000 : Word).toNat ∧ (0x4014 : Word).toNat ≤ 0x4014)
    ∧ (0x4018 ≤ (0x4018 : Word).toNat ∧ (0x401F : Word).toNat < 0x4020)
    ∧ (0x4020 ≤ (0x4020 : Word).toNat ∧ (rom []).cpuRead 0x4020 = none) ∧ (rom []).cpuRead 0x7FFF = none
    ∧ (rom [(0, 0x12)]).cpuRead 0x8000 = some 0x12 ∧ (rom []).cpuRead 0xFFFF = some 0xA0 ∧ (rom []).mapper = 0
    ∧ IsPpuReg 0 0x2000 ∧ IsPpuReg 0 0x3FF8 ∧ IsPpuReg 1 0x2001 ∧ IsPpuReg 3 0x2003 ∧ IsPpuReg 5 0x2005
    ∧ IsPpuReg 6 0x3FFE := by
  unfold IsPpuReg
  decide

/-- Both parities of the cycle of the write. -/
theorem witness_OamDmaCopies :
    let s := start cpu0 [] [(0x200, 0x01), (0x2FF, 0xFE)]
    DmcIdle s ∧ rendering s.ppu = false ∧ Memory.wf 256 s.ppu.oam = true ∧ (∀ i : Byte, Plain (word 0x02 i) s)
    ∧ (s.cyc + 1) % 2 = 1 ∧ ({ s with cyc := 1 }.cyc + 1) % 2 = 0 := by
  refine ⟨⟨rfl, rfl⟩, rfl, rfl, ?_, rfl, rfl⟩
  unfold Plain
  decide

/-- No request, and a request with a byte to fetch. -/
theorem witness_DmcStall :
    let s := start cpu0 [] []
    let r := { s with apu := { s.apu with dmc := { s.apu.dmc with stallRequest := true, bytesRemaining := 1 } } }
    s.apu.dmc.stallRequest = false ∧ r.apu.dmc.stallRequest = true ∧ r.apu.dmc.bytesRemaining ≠ 0 := by
  refine ⟨rfl, rfl, ?_⟩
  decide

theorem witness_StatusRead : IsPpuReg 2 0x2002 ∧ IsPpuReg 2 0x3FFA := by
  unfold IsPpuReg
  decide

theorem witness_PaletteMirrored :
    0x3F00 ≤ (0x3F00 : PpuAddr).toNat ∧ 0x3F00 ≤ (0x3FFF : PpuAddr).toNat
    ∧ (0x0C : PpuAddr) ∈ ([0x00, 0x04, 0x08, 0x0C] : List PpuAddr) := by decide

/-- Good PPU states whose `v` stands at the ends of each range, for CHR-ROM and CHR-RAM. -/
theorem witness_WriteThenRead :
    PpuInv { State.reset.ppu with v := 0x1FFF } ∧ CartInv Cartridge.blank ∧ CartInv { Cartridge.blank with chrRam := true }
    ∧ (vAddr { State.reset.ppu with v := 0x1FFF }).toNat < 0x2000
    ∧ 0x2000 ≤ (vAddr { State.reset.ppu with v := 0x2000 }).toNat
    ∧ (vAddr { State.reset.ppu with v := 0x3EFF }).toNat < 0x3F00
    ∧ 0x3F00 ≤ (vAddr { State.reset.ppu with v := 0x3F00 }).toNat
    ∧ (1 : Nat) ≠ State.reset.ppu.oamaddr.toNat
    ∧ ppuCell .blank 0x2000 ≠ ppuCell .blank 0x2800 ∧ ppuCell .blank 0x2000 = ppuCell .blank 0x2400
    ∧ 0x2000 ≤ (0x2000 : Word).toNat ∧ (0x3FFF : Word).toNat < 0x4000 := by
  obtain ⟨h1, h2, h3, h4, h5, h6, h7, h8, h9, h10, h11⟩ := reset_ppu_inv
  refine ⟨⟨h1, h2, h3, h4, h5, h6, h7, h8, h9, h10, h11⟩, ⟨rfl, rfl⟩, ⟨rfl, rfl⟩, ?_⟩
  decide

/-- A short frame and a long one. -/
theorem witness_FrameLength :
    let p := { State.reset.ppu with scanline := -1, dot := 0 }
    let q := { p with oddFrame := true, mask := 0x08 }
    p.scanline = -1 ∧ p.dot = 0 ∧ ¬ (p.oddFrame = true ∧ bgEn p = true)
    ∧ q.scanline = -1 ∧ q.dot = 0 ∧ q.oddFrame = true ∧ bgEn q = true := by decide

/-- The dot that sets the flag, the dot that clears it, and dots beside them. -/
theorem witness_VblankTiming :
    let p := { State.reset.ppu with scanline := 241, dot := 1 }
    let q := { State.reset.ppu with scanline := -1, dot := 1 }
    let r := { State.reset.ppu with scanline := 241, dot := 2 }
    let u := { State.reset.ppu with scanline := 240, dot := 1 }
    p.scanline = 241 ∧ p.dot = 1 ∧ q.scanline = -1 ∧ q.dot = 1
    ∧ (r.dot ≠ 1 ∨ (r.scanline ≠ 241 ∧ r.scanline ≠ -1)) ∧ (u.dot ≠ 1 ∨ (u.scanline ≠ 241 ∧ u.scanline ≠ -1))
    ∧ (0 : Nat) ≠ 2 ∧ (7 : Nat) ≠ 2 := by decide

theorem witness_ScrollAndAddress : State.reset.ppu.w = false := rfl

/-- Both ends of the period. -/
theorem witness_FrameCounterPeriod :
    let a := Apu.powerOn
    a.fcMode = false ∧ a.fcIrqInhibit = false ∧ a.fcCycle = 0 ∧ a.frameIrq = false ∧ 0 ≤ 29830 ∧ 29830 ≤ 29830 := by decide

/-- A byte that disables every channel, silent length counters, the half-frame steps of both modes and a step beside
them, a byte for each mode. -/
theorem witness_LengthCounters :
    bit (0x00 : Byte) 0 = false ∧ bit (0x00 : Byte) 1 = false ∧ bit (0x00 : Byte) 2 = false ∧ bit (0x00 : Byte) 3 = false
    ∧ Apu.powerOn.pulse1.length = 0 ∧ Apu.powerOn.pulse2.length = 0 ∧ Apu.powerOn.noise.length = 0
    ∧ Apu.powerOn.tri.length = 0
    ∧ { Apu.powerOn with fcCycle := 14912 }.fcCycle.toNat + 1 = 14913
    ∧ { Apu.powerOn with fcCycle := 29828 }.fcCycle.toNat + 1 = 29829 ∧ Apu.powerOn.fcMode = false
    ∧ { Apu.powerOn with fcCycle := 37280, fcMode := true }.fcCycle.toNat + 1 = 37281
    ∧ (let k := Apu.powerOn.fcCycle.toNat + 1
       ¬ (k = 14913 ∨ (Apu.powerOn.fcMode = false ∧ k = 29829) ∨ (Apu.powerOn.fcMode = true ∧ k = 37281)))
    ∧ bit (0x80 : Byte) 7 = true ∧ bit (0x00 : Byte) 7 = false := by decide

/-- The first and the last of the APU's channel registers. -/
theorem witness_SoundStatus :
    0x4000 ≤ (0x4000 : Word).toNat ∧ (0x4013 : Word).toNat < 0x4014 := by decide

/-- The timer running and at its end. -/
theorem witness_DmcLevel : ({ Dmc.powerOn with timer := 1 }).timer ≠ 0 ∧ Dmc.powerOn.timer = 0 := by decide

end Sys2Proof.Tests
end

section
/-! The statements of spec/10_state.md: the status byte, the frame of the read-class instructions, and the invariant `Inv`
at reset and along every step. -/

namespace Sys2Proof.Machine

/-! The status byte (R26 to R28). -/

/-- R26, R27: where each bit of the pushed status byte comes from. -/
theorem bit_pPush (b : Bool) (c : Cpu) :
    bit (pPush b c) 7 = c.n ∧ bit (pPush b c) 6 = c.v ∧ bit (pPush b c) 5 = true ∧ bit (pPush b c) 4 = b
    ∧ bit (pPush b c) 3 = c.d ∧ bit (pPush b c) 2 = c.i ∧ bit (pPush b c) 1 = c.z ∧ bit (pPush b c) 0 = c.c := by
  unfold pPush
  generalize c.n = n, c.v = v, c.d = d, c.i = i, c.z = z, c.c = c
  revert n v b d i z c
  decide

/-- R28: pulling a pushed status byte restores the six flags, whatever B was. -/
theorem pulled_pPush (b : Bool) (c d : Cpu) :
    d.pulled (pPush b c) = { d with n := c.n, v := c.v, d := c.d, i := c.i, z := c.z, c := c.c } := by
  obtain ⟨h7, h6, -, -, h3, h2, h1, h0⟩ := bit_pPush b c
  simp only [Cpu.pulled, h7, h6, h3, h2, h1, h0]

/-- Settles O14: each bit of the pushed byte is read off its place. -/
theorem statusByte : Obligations.StatusByte := by
  intro b c d
  obtain ⟨-, -, h5, h4, -⟩ := bit_pPush b c
  exact ⟨h5, h4, pulled_pPush b c d⟩

/-! The state after reset (R65). -/

/-- The PPU at power-on is good for any memories in canonical form. -/
theorem Ppu.powerOn_inv {p : PowerOn} (hoam : Memory.wf 256 p.oam = true) (hpal : Memory.wf 32 p.palette = true)
    (hvram : Memory.wf 2048 p.vram = true) (hfb : Memory.wf 61440 p.framebuffer = true) : PpuInv (Ppu.powerOn p) where
  oam := hoam
  oam2 := rfl
  palette := hpal
  vram := hvram
  framebuffer := hfb
  scanline := by simp [Ppu.powerOn]
  dot := Nat.zero_le _
  units := List.length_replicate
  sprCount := Nat.zero_le _
  eval := ⟨Nat.zero_lt_succ _, rfl⟩
  suppress := nofun

theorem Apu.powerOn_inv : ApuInv Apu.powerOn := by constructor <;> decide

/-- The machine at power-on is good for any memories in canonical form and any good cartridge. -/
theorem State.powerOn_inv {p : PowerOn} {cart : Cartridge} (params : Params) (hram : Memory.wf 0x800 p.ram = true)
    (hppu : PpuInv (Ppu.powerOn p)) (hcart : CartInv (cart.powerOn p)) : Inv (State.powerOn p cart params) :=
  ⟨hram, hppu, Apu.powerOn_inv, hcart, rfl⟩

/-- Settles O43: the memories of `PowerOn.default` and of the blank cartridge list nothing, so they are canonical. -/
theorem resetIsGood : Obligations.ResetIsGood :=
  State.powerOn_inv .default rfl (Ppu.powerOn_inv rfl rfl rfl rfl) ⟨rfl, rfl⟩

/-! The read-class instructions (R151). -/

/-- A read-class instruction is its operand read and then a change of the CPU alone, in A, X, Y, N, V, Z and C at most.
In every case the state after the operand read is a variable to the update that follows. -/
theorem exec_readClass {f : ReadMode → Instr} (hf : f ∈ readClass) (m : ReadMode) (s : State) :
    ∃ c : Cpu, exec (f m) s = .next { (readOperand m s).2 with cpu := c }
      ∧ c.s = (readOperand m s).2.cpu.s ∧ c.i = (readOperand m s).2.cpu.i ∧ c.d = (readOperand m s).2.cpu.d
      ∧ c.pc = (readOperand m s).2.cpu.pc := by
  simp only [readClass, List.mem_cons, List.not_mem_nil, or_false] at hf
  rcases hf with rfl | rfl | rfl | rfl | rfl | rfl | rfl | rfl | rfl | rfl | rfl | rfl
  all_goals
    change ∃ c, Host.Outcome.next _ = _ ∧ _
    generalize readOperand m s = r
    exact ⟨_, rfl, rfl, rfl, rfl, rfl⟩

/-- Settles O7: the operand read stores nothing and moves PC past the operand bytes; the rest changes the CPU alone. -/
theorem readClassFrame : Obligations.ReadClassFrame := by
  intro f hf m s
  obtain ⟨c, he, hs, hi, hd, hpc⟩ := exec_readClass hf m s
  have k := readOperand_to m s
  rw [k.cpu] at hs hi hd hpc
  exact ⟨_, he, hs, hi, hd, hpc, (k.trans (readTo_withCpu c _)).nothingStored⟩

/-! Every step keeps `Inv`. -/

theorem setNZ_inv (v : Byte) {s : State} (h : Inv s) : Inv (setNZ v s) := h.withCpu _

theorem shiftFlags_inv (r : Byte × Bool) {s : State} (h : Inv s) : Inv (shiftFlags r s) := h.withCpu _

theorem pPull_inv (v : Byte) {s : State} (h : Inv s) : Inv (pPull v s) := pPull_eq v s ▸ h.withCpu _

theorem exec_readClass_inv {f : ReadMode → Instr} (hf : f ∈ readClass) (m : ReadMode) {s : State} (h : Inv s) :
    ∃ t, exec (f m) s = .next t ∧ Inv t := by
  obtain ⟨c, he, -⟩ := exec_readClass hf m s
  exact ⟨_, he, (readOperand_inv m h).withCpu c⟩

theorem countMemory_inv (f : Byte → Byte) (m : RmwMode) {s : State} (h : Inv s) : Inv (countMemory f m s) :=
  setNZ_inv _ (rmwWrite_inv _ _ _ (rmwRead_inv m h))

theorem shiftOperand_inv (op : ShiftOp) (m : ShiftMode) {s : State} (h : Inv s) : Inv (shiftOperand op m s) := by
  cases m with
  | acc => exact shiftFlags_inv _ ((dummyFetch_inv h).withCpu _)
  | mem m => exact shiftFlags_inv _ (rmwWrite_inv _ _ _ (rmwRead_inv m h))

/-- Every instruction answers a next state, and keeps `Inv`. The cases are grouped by the bus cycles they are made of; what
follows the last cycle changes the CPU alone, which `Inv` does not read. -/
theorem exec_inv (i : Instr) {s : State} (h : Inv s) : ∃ t, exec i s = .next t ∧ Inv t := by
  cases i with
  | lda m | ldx m | ldy m | adc m | sbc m | and m | ora m | eor m | cmp m | cpx m | cpy m | bit m =>
    exact exec_readClass_inv (by simp [readClass]) m h
  | sta m | stx m | sty m => exact ⟨_, rfl, storeOperand_inv m _ h⟩
  | tax | tay | txa | tya | tsx | txs | inx | iny | dex | dey | clc | sec | cli | sei | clv | cld | sed =>
    have hd := dummyFetch_inv h
    refine ⟨_, rfl, ?_⟩
    generalize dummyFetch s = u at hd ⊢
    exact hd.withCpu _
  | nop => exact ⟨_, rfl, dummyFetch_inv h⟩
  | pha | php => exact ⟨_, rfl, push_inv _ (dummyFetch_inv h)⟩
  | pla => exact ⟨_, rfl, setNZ_inv _ ((readStack_inv (prePull_inv (dummyFetch_inv h))).withCpu _)⟩
  | plp => exact ⟨_, rfl, pPull_inv _ (readStack_inv (prePull_inv (dummyFetch_inv h)))⟩
  | inc m | dec m => exact ⟨_, rfl, countMemory_inv _ m h⟩
  | asl m | lsr m | rol m | ror m => exact ⟨_, rfl, shiftOperand_inv _ m h⟩
  | bcc | bcs | beq | bne | bmi | bpl | bvc | bvs => exact ⟨_, rfl, branch_inv _ h⟩
  | jmp m =>
    cases m with
    | abs => exact ⟨_, rfl, (memRead_inv _ (fetch_inv h)).withCpu _⟩
    | ind => exact ⟨_, rfl, (memRead_inv _ (memRead_inv _ (fetchWord_inv h))).withCpu _⟩
  | jsr => exact ⟨_, rfl, (memRead_inv _ (push_inv _ (push_inv _ (dummyRead_inv _ (fetch_inv h))))).withCpu _⟩
  | rts =>
    have hpull := readStack_inv (pull_inv (prePull_inv (dummyFetch_inv h)))
    exact ⟨_, rfl, (dummyFetch_inv (hpull.withCpu _)).withCpu _⟩
  | brk => exact ⟨_, rfl, enterException_inv _ _ (fetch_inv h)⟩
  | rti => exact ⟨_, rfl, returnFromException_inv h⟩
  | ill op => exact ⟨_, rfl, skipOperands_inv _ _ h⟩

/-- R314: a good state steps to a good state, by the reset sequence or by an instruction and the poll after it. -/
theorem step_inv {s : State} (h : Inv s) : ∃ t, step s = .next t ∧ Inv t := by
  unfold step
  split
  · exact ⟨_, rfl, resetSequence_inv h⟩
  · obtain ⟨t, he, ht⟩ := exec_inv (decodeOpcode (fetch s).1) (fetch_inv h)
    rw [he]
    exact ⟨_, rfl, pollInterrupts_inv ht⟩

/-- Settles O44: every bus cycle keeps `Inv`, and a step is made of bus cycles and changes of the CPU. -/
theorem stepKeepsInv : Obligations.StepKeepsInv := by
  intro s t h hst
  obtain ⟨u, hsu, hu⟩ := step_inv h
  obtain rfl : u = t := by simpa [hsu] using hst
  exact hu

end Sys2Proof.Machine
end

section
/-! The statements of spec/20_memory.md: the address map and its open bus, the two DMA mechanisms, the controller ports,
PPU memory behind $2004 and $2007, the sound registers. -/

namespace Sys2Proof.Machine

/-! The address map, one rule per range (R71, R77 to R82). -/

theorem readDecode_ram {a : Word} (h : a.toNat < 0x2000) (s : State) :
    readDecode a s = (s.ram.get (a.toNat % 0x800), s) := by
  simp only [readDecode, h, if_true]

theorem writeDecode_ram {a : Word} (h : a.toNat < 0x2000) (v : Byte) (s : State) :
    writeDecode a v s = { s with ram := s.ram.set (a.toNat % 0x800) v } := by
  simp only [writeDecode, h, if_true]

theorem readDecode_ppu {a : Word} (h1 : 0x2000 ≤ a.toNat) (h2 : a.toNat < 0x4000) (s : State) :
    readDecode a s = ((ppuRegRead s.cart s.busLatch (a.toNat % 8) s.ppu).1,
      { s with cart := s.cart.observe s.cyc (readBusAddrs (a.toNat % 8) s.ppu),
               ppu := (ppuRegRead s.cart s.busLatch (a.toNat % 8) s.ppu).2 }) := by
  simp only [readDecode, Nat.not_lt.2 h1, h2, if_false, if_true]

theorem writeDecode_ppu {a : Word} (h1 : 0x2000 ≤ a.toNat) (h2 : a.toNat < 0x4000) (v : Byte) (s : State) :
    writeDecode a v s =
      { s with cart := (ppuRegWrite s.cart (a.toNat % 8) v s.ppu).1.observe s.cyc (writeBusAddrs (a.toNat % 8) v s.ppu),
               ppu := (ppuRegWrite s.cart (a.toNat % 8) v s.ppu).2 } := by
  simp only [writeDecode, Nat.not_lt.2 h1, h2, if_false, if_true]

theorem writeDecode_apu {a : Word} (h1 : 0x4000 ≤ a.toNat) (h2 : a.toNat < 0x4014) (v : Byte) (s : State) :
    writeDecode a v s = { s with apu := apuRegWrite (a.toNat - 0x4000) v s.apu } := by
  have h0 : ¬ a.toNat < 0x2000 := by omega
  simp only [writeDecode, h0, Nat.not_lt.2 h1, h2, if_false, if_true]

/-- R80: of the registers from $4000 to $401F only $4015 to $4017 answer a read. -/
theorem readDecode_unused {a : Word} (h1 : 0x4000 ≤ a.toNat) (h2 : a.toNat < 0x4020)
    (h3 : a.toNat < 0x4015 ∨ 0x4017 < a.toNat) (s : State) : readDecode a s = (s.busLatch, s) := by
  have h0 : ¬ a.toNat < 0x2000 := by omega
  have h15 : a.toNat ≠ 0x4015 := by omega
  have h16 : a.toNat ≠ 0x4016 := by omega
  have h17 : a.toNat ≠ 0x4017 := by omega
  simp only [readDecode, h0, Nat.not_lt.2 h1, h15, h16, h17, h2, if_false, if_true]

/-- R82: from $4020 up the mapper answers, or nothing does. -/
theorem readDecode_cart {a : Word} (h : 0x4020 ≤ a.toNat) (s : State) :
    readDecode a s = ((s.cart.cpuRead a).getD s.busLatch, s) := by
  have h0 : ¬ a.toNat < 0x2000 := by omega
  have h4 : ¬ a.toNat < 0x4000 := by omega
  have h15 : a.toNat ≠ 0x4015 := by omega
  have h16 : a.toNat ≠ 0x4016 := by omega
  have h17 : a.toNat ≠ 0x4017 := by omega
  simp only [readDecode, h0, h4, h15, h16, h17, Nat.not_lt.2 h, if_false]

theorem writeDecode_cart {a : Word} (h : 0x4020 ≤ a.toNat) (v : Byte) (s : State) :
    writeDecode a v s = { s with cart := s.cart.cpuWrite a v } := by
  have h0 : ¬ a.toNat < 0x2000 := by omega
  have h4 : ¬ a.toNat < 0x4000 := by omega
  have h14 : ¬ a.toNat < 0x4014 := by omega
  have h15 : a.toNat ≠ 0x4015 := by omega
  have h16 : a.toNat ≠ 0x4016 := by omega
  have h17 : a.toNat ≠ 0x4017 := by omega
  simp only [writeDecode, h0, h4, h14, h15, h16, h17, Nat.not_lt.2 h, if_false]

/-! RAM and its images (R77). -/

/-- A read cycle depends on its address through `readDecode` alone. -/
theorem memRead_congr {a b : Word} (h : ∀ s, readDecode a s = readDecode b s) (s : State) :
    memRead a s = memRead b s := by
  simp only [memRead, readAccess, h]

/-- Settles O46: the decoder takes the address modulo the size of RAM. -/
theorem ramMirrored : Obligations.RamMirrored := by
  intro a v s ha
  have hmask : (a &&& 0x07FF).toNat = a.toNat % 0x800 := by
    rw [BitVec.toNat_and]
    exact Nat.and_two_pow_sub_one_eq_mod a.toNat 11
  have himage : (BitVec.ofNat 16 (a.toNat % 0x800)).toNat = a.toNat % 0x800 := by
    rw [BitVec.toNat_ofNat]
    omega
  rw [hmask]
  refine ⟨readDecode_ram ha s, writeDecode_ram ha v s, memRead_congr (fun t => ?_) s⟩
  rw [readDecode_ram ha, readDecode_ram (by omega), himage, Nat.mod_mod]

/-! Open bus (R79, R80, R82, decision D13). -/

theorem readAccess_of_open {a : Word} {s : State} (h : readDecode a s = (s.busLatch, s)) :
    readAccess a s = (s.busLatch, s) := by
  simp only [readAccess, h]

/-- The registers of the PPU that no read reaches (R79, R401). -/
def writeOnlyPpuRegs : List Nat := [0, 1, 3, 5, 6]

/-- R79: a read of a write-only register answers the bus byte, and puts no address on the PPU's bus. -/
theorem readDecode_writeOnly {r : Nat} (hr : r ∈ writeOnlyPpuRegs) {a : Word} (ha : IsPpuReg r a) (s : State) :
    readDecode a s = (s.busLatch, s) := by
  obtain ⟨h1, h2, h3⟩ := ha
  rw [readDecode_ppu h1 h2, h3]
  simp only [writeOnlyPpuRegs, List.mem_cons, List.not_mem_nil, or_false] at hr
  rcases hr with rfl | rfl | rfl | rfl | rfl <;> rfl

/-- R85: PRG of mapper 0 with its 16 or 32 KiB written out. -/
theorem Cartridge.cpuRead_prg {c : Cartridge} (h : c.mapper = 0) (a : Word) : c.cpuRead a =
    if 0x8000 ≤ a.toNat then
      some (c.prg.get (if c.prg32 then a.toNat - 0x8000 else (a.toNat - 0x8000) % 0x4000)) else none := by
  have hlt := a.isLt
  rw [Cartridge.cpuRead_nrom h, nromPrgSize]
  cases c.prg32
  · simp only [Bool.false_eq_true, if_false]
  · simp only [if_true, Nat.mod_eq_of_lt (show a.toNat - 0x8000 < 0x8000 by omega)]

/-- Settles O47: range by range of the address map; mapper 0 by its own laws. -/
theorem openBus : Obligations.OpenBus := by
  intro a v s
  refine ⟨fun h => readAccess_of_open ?_, fun h => ⟨fun b hb => ?_, writeDecode_cart h v s⟩,
    fun hm => ⟨Cartridge.cpuRead_prg hm a, Cartridge.cpuWrite_nrom hm a v, Cartridge.irq_nrom hm⟩⟩
  · rcases h with ⟨h1, h2⟩ | ⟨h1, h2⟩ | ⟨h1, hn⟩ | h | h | h | h | h
    · exact readDecode_unused h1 (by omega) (by omega) s
    · exact readDecode_unused (by omega) h2 (by omega) s
    · rw [readDecode_cart h1, hn, Option.getD_none]
    all_goals exact readDecode_writeOnly (by decide) h s
  · rw [readAccess, readDecode_cart h, hb, Option.getD_some]

/-! OAM DMA (R90, decision D11). With rendering off no dot moves OAMADDR, so the copies run through OAM in order. -/

theorem PpuRegsKept.rendering {p q : Ppu} (h : PpuRegsKept p q) : rendering q = rendering p := by
  unfold Machine.rendering bgEn sprEn
  rw [h.mask]

theorem statusFlags_oamaddr (sl : Int) (d : Nat) (p : Ppu) : (statusFlags sl d p).oamaddr = p.oamaddr := by
  unfold statusFlags
  split_ifs <;> rfl

theorem renderPixel_oamaddr (sl : Int) (d : Nat) (p : Ppu) : (renderPixel sl d p).oamaddr = p.oamaddr := by
  unfold renderPixel
  split_ifs <;> rfl

theorem advance_oamaddr (sl : Int) (d : Nat) (p : Ppu) : (advance sl d p).oamaddr = p.oamaddr := by
  unfold advance
  split_ifs <;> rfl

/-- With rendering off a dot does no work but its pixel. -/
theorem dotWork_of_not_rendering (c : Cartridge) (sl : Int) (d : Nat) {p : Ppu} (h : rendering p = false) :
    dotWork c sl d p = renderPixel sl d p := by
  have hpixel : rendering (renderPixel sl d p) = false := by rw [(renderPixel_still sl d p).regs.rendering, h]
  simp [dotWork, renderBefore, renderAfter, h, hpixel]

theorem ppuTick_oamaddr (c : Cartridge) {p : Ppu} (h : rendering p = false) : (ppuTick c p).oamaddr = p.oamaddr := by
  have hflags : rendering (statusFlags p.scanline p.dot p) = false := by
    rw [(statusFlags_still _ _ p).regs.rendering, h]
  rw [ppuTick_eq, advance_oamaddr, dotWork_of_not_rendering c _ _ hflags, renderPixel_oamaddr, statusFlags_oamaddr]

theorem ppuDot_oamaddr {s : State} (h : rendering s.ppu = false) : (ppuDot s).ppu.oamaddr = s.ppu.oamaddr :=
  ppuTick_oamaddr s.cart h

theorem clockDevices_oamaddr {s : State} (h : rendering s.ppu = false) :
    (clockDevices s).ppu.oamaddr = s.ppu.oamaddr := by
  have h1 := (ppuDot_still { s with cyc := s.cyc + 1 }).ppu.regs.rendering.trans h
  have h2 := (ppuDot_still _).ppu.regs.rendering.trans h1
  exact (ppuDot_oamaddr h2).trans ((ppuDot_oamaddr h1).trans (ppuDot_oamaddr (s := { s with cyc := s.cyc + 1 }) h))

/-- A plain address is RAM's or the cartridge's. -/
theorem plain_cases {a : Word} {s : State} (h : Plain a s) : a.toNat < 0x2000 ∨ 0x4020 ≤ a.toNat := by
  unfold Plain driven at h
  by_contra hn
  obtain ⟨hlow, hhigh⟩ := not_or.1 hn
  rw [s.cart.cpuRead_low (Nat.not_le.1 hhigh)] at h
  simp [hlow] at h

/-- A state of the transfer: what the CPU reads of RAM and of the cartridge is as in `s`, the DMC steals no cycle,
rendering is off, OAM is `oam` and OAMADDR is `addr`. -/
structure OamAt (s : State) (oam : Memory 8) (addr : Byte) (t : State) : Prop where
  ram : t.ram = s.ram
  cart : t.cart.unobserved = s.cart.unobserved
  idle : DmcIdle t
  dark : rendering t.ppu = false
  oam : t.ppu.oam = oam
  addr : t.ppu.oamaddr = addr

namespace OamAt

variable {s t u : State} {oam : Memory 8} {addr : Byte}

/-- Cycles and accesses that write nothing and leave OAMADDR. -/
theorem still (h : OamAt s oam addr t) (k : ReadStill t u) (hidle : DmcIdle u) (haddr : u.ppu.oamaddr = t.ppu.oamaddr) :
    OamAt s oam addr u :=
  ⟨k.ram.trans h.ram, k.cart.trans h.cart, hidle, k.ppu.regs.rendering.trans h.dark, k.ppu.oam.trans h.oam,
   haddr.trans h.addr⟩

theorem peek (h : OamAt s oam addr t) (a : Word) : peek a t = peek a s := by
  unfold Machine.peek
  rw [h.ram, Cartridge.cpuRead_congr h.cart]

theorem clockDevices (h : OamAt s oam addr t) : OamAt s oam addr (clockDevices t) :=
  h.still (clockDevices_still t) (clockDevices_idle h.idle) (clockDevices_oamaddr h.dark)

theorem ticks (n : Nat) (h : OamAt s oam addr t) : OamAt s oam addr (ticks n t) := by
  induction n generalizing t with
  | zero => exact h
  | succ n ih => exact ih h.clockDevices

theorem endCycle (h : OamAt s oam addr t) : OamAt s oam addr (endCycle t) := by
  rw [endCycle_idle h.idle]
  exact h.still (nmiEdgeDetect_still t) h.idle rfl

/-- A read of RAM or of the cartridge has no side effect on OAMADDR. -/
theorem readAccess (h : OamAt s oam addr t) {a : Word} (ha : Plain a s) : OamAt s oam addr (readAccess a t).2 := by
  refine h.still (readAccess_still a t) (readAccess_idle a h.idle) ?_
  rcases plain_cases ha with hlow | hhigh
  · rw [Machine.readAccess, readDecode_ram hlow]
  · rw [Machine.readAccess, readDecode_cart hhigh]

theorem memRead (h : OamAt s oam addr t) {a : Word} (ha : Plain a s) : OamAt s oam addr (memRead a t).2 := by
  unfold Machine.memRead
  split
  · exact (h.clockDevices.readAccess ha).endCycle
  · exact (h.readAccess ha).clockDevices.endCycle

theorem memRead_byte (h : OamAt s oam addr t) {a : Word} (ha : Plain a s) : (Machine.memRead a t).1 = Machine.peek a s :=
  (memRead_plain a t (ha.congr h.cart)).trans (h.peek a)

/-- A write cycle is its access and one cycle of time, in either order. -/
theorem writeCycle {a : Word} {v : Byte} {oam' : Memory 8} {addr' : Byte} (h : OamAt s oam addr t)
    (hacc : ∀ {u}, OamAt s oam addr u → OamAt s oam' addr' (writeAccess a v u)) :
    OamAt s oam' addr' (writeCycle a v t) := by
  unfold Machine.writeCycle
  split
  · exact (hacc h.clockDevices).endCycle
  · exact (hacc h).clockDevices.endCycle

/-- R407: a write of $2004 stores at OAMADDR and steps it. -/
theorem writeOamData (h : OamAt s oam addr t) (v : Byte) :
    OamAt s (oam.set addr.toNat v) (addr + 1) (Machine.writeCycle 0x2004 v t) :=
  h.writeCycle fun {u} k => by
    have hw : writeAccess 0x2004 v u = _ := writeDecode_ppu (by decide) (by decide) v { u with busLatch := v }
    rw [hw]
    refine ⟨k.ram, k.cart, k.idle, k.dark, ?_, ?_⟩
    · rw [← k.oam, ← k.addr]
      rfl
    · rw [← k.addr]
      rfl

/-- R75: a write of $4014 changes nothing in its own cycle. -/
theorem writeOamDma (h : OamAt s oam addr t) (v : Byte) : OamAt s oam addr (Machine.writeCycle 0x4014 v t) :=
  h.writeCycle fun k => ⟨k.ram, k.cart, k.idle, k.dark, k.oam, k.addr⟩

end OamAt

/-- OAM after `n` bytes, `f i` and those behind it, are written from `addr` on, wrapping at its end. -/
def oamFilled (f : Nat → Byte) : Nat → Nat → Memory 8 → Byte → Memory 8
  | 0, _, oam, _ => oam
  | n + 1, i, oam, addr => oamFilled f n (i + 1) (oam.set addr.toNat (f i)) (addr + 1)

/-- Up to 256 bytes fill OAM without one overwriting another. -/
theorem oamFilled_get (f : Nat → Byte) {n : Nat} (hn : n ≤ 256) (i : Nat) {oam : Memory 8}
    (hw : Memory.wf 256 oam = true) (addr j : Byte) :
    (oamFilled f n i oam addr).get (addr + j).toNat =
      if j.toNat < n then f (i + j.toNat) else oam.get (addr + j).toNat := by
  induction n generalizing i oam addr j with
  | zero => rfl
  | succ n ih =>
    have hstep : addr + 1 + (j - 1) = addr + j := by bv_omega
    have hfilled := ih (by omega) (i + 1) (Memory.wf_set 256 _ oam (f i) hw addr.isLt) (addr + 1) (j - 1)
    rw [hstep, Memory.get_set 256 _ _ oam _ hw] at hfilled
    rw [oamFilled, hfilled]
    by_cases hj : j = 0
    · subst hj
      have hlast : (0 - 1 : Byte).toNat = 255 := rfl
      have hfirst : addr + 0 = addr := BitVec.add_zero addr
      rw [if_neg (by omega), hfirst, if_pos rfl]
      exact (if_pos (Nat.succ_pos n)).symm
    · have hpred : (j - 1).toNat + 1 = j.toNat := by bv_omega
      have hother : (addr + j).toNat ≠ addr.toNat := by bv_omega
      rw [if_neg hother, show i + 1 + (j - 1).toNat = i + j.toNat by omega]
      simp only [← hpred, Nat.add_lt_add_iff_right]

/-- R90: the copies put the bytes of the page into OAM one after the other. -/
theorem OamAt.oamCopy {s : State} {h : Byte} (hpage : ∀ i : Byte, Plain (word h i) s) (n i : Nat) {t : State}
    {oam : Memory 8} {addr : Byte} (k : OamAt s oam addr t) :
    OamAt s (oamFilled (fun j => Machine.peek (word h (BitVec.ofNat 8 j)) s) n i oam addr) (addr + BitVec.ofNat 8 n)
      (oamCopy h n i t) := by
  induction n generalizing i t oam addr with
  | zero =>
    rw [show addr + BitVec.ofNat 8 0 = addr from BitVec.add_zero addr]
    exact k
  | succ n ih =>
    have hnext := ih (i + 1) ((k.memRead (hpage (BitVec.ofNat 8 i))).writeOamData
      (Machine.memRead (word h (BitVec.ofNat 8 i)) t).1)
    have haddr : addr + 1 + BitVec.ofNat 8 n = addr + BitVec.ofNat 8 (n + 1) := by
      rw [BitVec.add_assoc, Nat.add_comm n 1, BitVec.ofNat_add]
      rfl
    rw [haddr] at hnext
    rw [oamFilled, ← k.memRead_byte (hpage _)]
    exact hnext

/-- Settles O48: from the write cycle on every state of the transfer is an `OamAt`, and 256 copies step OAMADDR once
around. -/
theorem oamDmaCopies : Obligations.OamDmaCopies := by
  intro h s hidle hdark hoam hpage
  have hstart : OamAt s s.ppu.oam s.ppu.oamaddr s := ⟨rfl, rfl, hidle, hdark, rfl, rfl⟩
  have hdone := OamAt.oamCopy hpage 256 0 ((hstart.writeOamDma h).ticks (1 + (writeCycle 0x4014 h s).cyc % 2))
  obtain ⟨hidle', hcyc⟩ := writeCycle_idle 0x4014 h hidle (by decide)
  have hwrite : memWrite 0x4014 h s = oamDma h (writeCycle 0x4014 h s) := by simp only [memWrite, if_true]
  rw [hwrite]
  refine ⟨fun i => ?_, ?_, ?_⟩
  · rw [oamDma, hdone.oam, oamFilled_get _ (Nat.le_refl 256) 0 hoam, if_pos (show i.toNat < 256 from i.isLt),
      Nat.zero_add, BitVec.ofNat_toNat, BitVec.setWidth_eq]
  · rw [oamDma, hdone.addr]
    exact BitVec.add_zero _
  · rw [(oamDma_idle h hidle').2, hcyc]
    split_ifs <;> omega

/-! The DMC's stolen cycles (R92, R552, R553, decision D12). -/

theorem dmcTimerClock_curAddr (d : Dmc) : (dmcTimerClock d).curAddr = d.curAddr := by
  unfold dmcTimerClock
  simp only
  split_ifs <;> rfl

/-- A cycle neither moves the DMC's reader nor drives the bus. -/
theorem ticks_dmcReader (n : Nat) (s : State) :
    (ticks n s).apu.dmc.curAddr = s.apu.dmc.curAddr
    ∧ (ticks n s).apu.dmc.bytesRemaining = s.apu.dmc.bytesRemaining ∧ (ticks n s).busLatch = s.busLatch := by
  induction n generalizing s with
  | zero => exact ⟨rfl, rfl, rfl⟩
  | succ n ih =>
    obtain ⟨haddr, hleft, hbus⟩ := ih (tick s)
    have hdmc : (tick s).apu.dmc = dmcRequest (dmcTimerClock s.apu.dmc) := apuTick_dmc s.apu
    rw [hdmc] at haddr hleft
    exact ⟨haddr.trans (dmcTimerClock_curAddr _), hleft.trans (dmcTimerClock_fetch _).1, hbus⟩

theorem dmcLoadSample_buffer (b : Byte) {d : Dmc} (h : d.bytesRemaining ≠ 0) :
    (dmcLoadSample b d).buffer = b ∧ (dmcLoadSample b d).bufferEmpty = false := by
  simp only [dmcLoadSample, if_neg h]
  split_ifs <;> exact ⟨rfl, rfl⟩

theorem serviceDmcStall_of_request {s : State} (h : s.apu.dmc.stallRequest = true) :
    serviceDmcStall s = dmcFetch (ticks 4 s) := if_pos h

/-- The byte fetched after the stolen cycles is the one the cartridge drives before them. -/
theorem dmcFetch_ticks_busLatch (n : Nat) (s : State) :
    (dmcFetch (ticks n s)).busLatch = (s.cart.cpuRead s.apu.dmc.curAddr).getD s.busLatch := by
  obtain ⟨haddr, -, hbus⟩ := ticks_dmcReader n s
  rw [← haddr, ← hbus, ← Cartridge.cpuRead_congr (ticks_still n s).cart]
  rfl

/-- A fetch puts the byte it leaves on the bus into the sample buffer. -/
theorem dmcFetch_buffer {s : State} (h : s.apu.dmc.bytesRemaining ≠ 0) :
    (dmcFetch s).apu.dmc.buffer = (dmcFetch s).busLatch ∧ (dmcFetch s).apu.dmc.bufferEmpty = false :=
  dmcLoadSample_buffer _ h

/-- Settles O49: the four cycles leave the reader, the bus and the cartridge's answer as they were, and then the fetch
takes the byte. -/
theorem dmcStall : Obligations.DmcStall := by
  intro s
  refine ⟨fun h => if_neg (by simp [h]), fun h => ?_⟩
  have hstill := serviceDmcStall_still s
  have hbus := dmcFetch_ticks_busLatch 4 s
  rw [serviceDmcStall_of_request h] at hstill ⊢
  refine ⟨ticks_cyc 4 s, rfl, hstill.cpu, hstill.to.nothingStored, hbus, fun hleft => ?_⟩
  rw [← hbus]
  exact dmcFetch_buffer (by rwa [(ticks_dmcReader 4 s).2.1])

/-! The controller ports (R96, decision D31). -/

/-- A read with the strobe off shifts the register down and a 1 in from above. -/
theorem bit_padNext (x p : Byte) {j : Nat} (hj : j < 8) :
    bit (padNext false x p) j = (if j + 1 < 8 then bit x (j + 1) else true) := by
  change (0x80#8 ||| x >>> 1).getLsbD j = if j + 1 < 8 then x.getLsbD (j + 1) else true
  rw [BitVec.getLsbD_or, BitVec.getLsbD_ushiftRight, Nat.add_comm 1 j]
  rcases Nat.lt_or_ge j 7 with h | h
  · have h80 : (0x80#8).getLsbD j = false := by interval_cases j <;> rfl
    rw [if_pos (by omega), h80, Bool.false_or]
  · obtain rfl : j = 7 := by omega
    rfl

/-- After `n` reads the register holds what is left of the byte, and 1s above it. -/
theorem bit_iterate_padNext (x p : Byte) (n : Nat) {j : Nat} (hj : j < 8) :
    bit ((fun y => padNext false y p)^[n] x) j = (if n + j < 8 then bit x (n + j) else true) := by
  induction n generalizing j with
  | zero => rw [Nat.zero_add, if_pos hj, Function.iterate_zero_apply]
  | succ n ih =>
    rw [Function.iterate_succ_apply', bit_padNext _ _ hj, show n + 1 + j = n + (j + 1) by omega]
    by_cases h : j + 1 < 8
    · rw [if_pos h, ih h]
    · rw [if_neg h, if_neg (by omega)]

/-- The button a read of a port reports is bit 0 of the register it shifts. -/
theorem bit_padByte (bus x : Byte) : bit (padByte bus x) 0 = bit x 0 := by
  simp only [bit, padByte, field, BitVec.getLsbD_append, BitVec.getLsbD_extractLsb']
  simp

/-- The two writes to $4016 leave the host's bytes in the shift registers, ready to be shifted. -/
theorem padWrite_latches (c : Controllers) :
    padWrite 0 (padWrite 1 c) = { c with shift0 := c.pad0, shift1 := c.pad1, strobe := false } := rfl

/-- With the strobe off, reads of port 0 shift its register and nothing else. -/
theorem iterate_padRead0 (bus : Byte) (n : Nat) {c : Controllers} (h : c.strobe = false) :
    (fun k => (padRead0 bus k).2)^[n] c = { c with shift0 := (fun y => padNext false y c.pad0)^[n] c.shift0 } := by
  induction n with
  | zero => rfl
  | succ n ih => rw [Function.iterate_succ_apply', Function.iterate_succ_apply', ih, padRead0, h]

/-- With the strobe off, reads of port 1 shift its register and nothing else. -/
theorem iterate_padRead1 (bus : Byte) (n : Nat) {c : Controllers} (h : c.strobe = false) :
    (fun k => (padRead1 bus k).2)^[n] c = { c with shift1 := (fun y => padNext false y c.pad1)^[n] c.shift1 } := by
  induction n with
  | zero => rfl
  | succ n ih => rw [Function.iterate_succ_apply', Function.iterate_succ_apply', ih, padRead1, h]

/-- Settles O50: after the two writes each read shifts its port's register by one. -/
theorem controllersSerial : Obligations.ControllersSerial := by
  refine ⟨fun bus c n => ?_, fun v s => ⟨rfl, rfl, rfl⟩⟩
  dsimp only
  rw [padWrite_latches, iterate_padRead0 bus n rfl, iterate_padRead1 bus n rfl]
  exact ⟨(bit_padByte _ _).trans (bit_iterate_padNext _ _ n (by decide)),
    (bit_padByte _ _).trans (bit_iterate_padNext _ _ n (by decide))⟩

/-! PPU memory and OAM through $2004 and $2007 (R402, R407, R410, R411, R420 to R425). -/

/-- The byte that stands in a cell of PPU memory, by its space and its place there (R420, R423, R424). -/
def cellByte (c : Cartridge) (p : Ppu) : Nat × Nat → Byte
  | (0, k) => c.chr.get k
  | (1, k) => p.vram.get k
  | (2, k) => (p.palette.get k).setWidth 8
  | _ => 0

/-- A read of PPU memory reads the cell its address names. -/
theorem ppuMemRead_eq_cellByte (c : Cartridge) (p : Ppu) (a : PpuAddr) :
    ppuMemRead c p a = cellByte c p (ppuCell c a) := by
  unfold ppuMemRead ppuCell
  split_ifs <;> rfl

/-! Each space of PPU memory after a write of one of its places. -/

theorem cellByte_setChr {size : Nat} {c : Cartridge} (h : Memory.wf size c.chr = true) (p : Ppu) (i : Nat) (v : Byte)
    (cell : Nat × Nat) :
    cellByte { c with chr := c.chr.set i v } p cell = if cell = (0, i) then v else cellByte c p cell := by
  rcases cell with ⟨_ | _ | _ | n, k⟩ <;> simp [cellByte, Memory.get_set _ i k _ v h]

theorem cellByte_setVram {size : Nat} (c : Cartridge) {p : Ppu} (h : Memory.wf size p.vram = true) (i : Nat) (v : Byte)
    (cell : Nat × Nat) :
    cellByte c { p with vram := p.vram.set i v } cell = if cell = (1, i) then v else cellByte c p cell := by
  rcases cell with ⟨_ | _ | _ | n, k⟩ <;> simp [cellByte, Memory.get_set _ i k _ v h]

theorem cellByte_setPalette {size : Nat} (c : Cartridge) {p : Ppu} (h : Memory.wf size p.palette = true) (i : Nat)
    (x : BitVec 6) (cell : Nat × Nat) :
    cellByte c { p with palette := p.palette.set i x } cell =
      if cell = (2, i) then x.setWidth 8 else cellByte c p cell := by
  rcases cell with ⟨_ | _ | _ | n, k⟩ <;> simp [cellByte, Memory.get_set _ i k _ x h, apply_ite (BitVec.setWidth 8)]

/-- A palette entry as a byte is the low six bits written. -/
theorem setWidth_field_six (v : Byte) : (field v 0 6).setWidth 8 = v &&& 0x3F := by
  revert v
  decide

/-- The byte a write of `v` leaves at the address `a` of PPU memory: CHR-ROM keeps its own, a palette entry takes six bits
(R420). -/
def ppuStored (c : Cartridge) (p : Ppu) (a : PpuAddr) (v : Byte) : Byte :=
  if a.toNat < 0x2000 then (if c.chrRam then v else ppuMemRead c p a)
  else if a.toNat < 0x3F00 then v else v &&& 0x3F

/-- A write to PPU memory switches no bank, so every address names the cell it named. -/
theorem ppuCell_ppuMemWrite (c : Cartridge) (p : Ppu) (a b : PpuAddr) (v : Byte) :
    ppuCell (ppuMemWrite c p a v).1 b = ppuCell c b := by
  unfold ppuMemWrite Cartridge.ppuWrite
  split_ifs <;> rfl

/-- What the cells of PPU memory hold after a write: the stored byte in the cell written, the old one in every other. -/
theorem cellByte_ppuMemWrite {c : Cartridge} {p : Ppu} (hp : PpuInv p) (hc : CartInv c) (a : PpuAddr) (v : Byte)
    (cell : Nat × Nat) :
    cellByte (ppuMemWrite c p a v).1 (ppuMemWrite c p a v).2 cell =
      if cell = ppuCell c a then ppuStored c p a v else cellByte c p cell := by
  unfold ppuMemWrite ppuStored ppuCell
  by_cases h1 : a.toNat < 0x2000
  · simp only [h1, if_true]
    unfold Cartridge.ppuWrite
    by_cases hr : c.chrRam = true
    · simp only [hr, if_true]
      exact cellByte_setChr hc.chr p _ v cell
    · simp only [hr, if_false, Bool.false_eq_true]
      split_ifs with hcell
      · rw [hcell, ppuMemRead, if_pos h1]
        rfl
      · rfl
  · by_cases h2 : a.toNat < 0x3F00
    · simp only [h1, h2, if_true, if_false]
      exact cellByte_setVram c hp.vram _ v cell
    · simp only [h1, h2, if_false]
      rw [cellByte_setPalette c hp.palette, setWidth_field_six]

/-- What every address of PPU memory reads as after a write. -/
theorem ppuMemRead_ppuMemWrite {c : Cartridge} {p : Ppu} (hp : PpuInv p) (hc : CartInv c) (a b : PpuAddr) (v : Byte) :
    ppuMemRead (ppuMemWrite c p a v).1 (ppuMemWrite c p a v).2 b =
      if ppuCell c b = ppuCell c a then ppuStored c p a v else ppuMemRead c p b := by
  rw [ppuMemRead_eq_cellByte, ppuCell_ppuMemWrite, cellByte_ppuMemWrite hp hc, ← ppuMemRead_eq_cellByte]

/-- What every address reads as after a write of $2007: stepping `v` writes nothing. -/
theorem ppuMemRead_dataWrite {c : Cartridge} {p : Ppu} (hp : PpuInv p) (hc : CartInv c) (b : PpuAddr) (v : Byte) :
    ppuMemRead (dataWrite c v p).1 (dataWrite c v p).2 b =
      if ppuCell c b = ppuCell c (vAddr p) then ppuStored c p (vAddr p) v else ppuMemRead c p b :=
  ppuMemRead_ppuMemWrite hp hc (vAddr p) b v

theorem ppuMemWrite_frame (c : Cartridge) (p : Ppu) (a : PpuAddr) (v : Byte) :
    (ppuMemWrite c p a v).2.v = p.v ∧ (ppuMemWrite c p a v).2.ctrl = p.ctrl
    ∧ (ppuMemWrite c p a v).2.readBuffer = p.readBuffer ∧ (ppuMemWrite c p a v).2.oam = p.oam := by
  unfold ppuMemWrite
  split_ifs <;> exact ⟨rfl, rfl, rfl, rfl⟩

/-- R411: a write of $2007 leaves the read buffer and OAM and steps `v`. -/
theorem dataWrite_frame (c : Cartridge) (v : Byte) (p : Ppu) :
    (dataWrite c v p).2.v = p.v + (if bit p.ctrl 2 then 32 else 1)
    ∧ (dataWrite c v p).2.readBuffer = p.readBuffer ∧ (dataWrite c v p).2.oam = p.oam := by
  obtain ⟨hv, hctrl, hbuffer, hoam⟩ := ppuMemWrite_frame c p (vAddr p) v
  refine ⟨?_, hbuffer, hoam⟩
  rw [← hv, ← hctrl]
  rfl

/-- CHR-ROM ignores a write. -/
theorem dataWrite_rom {c : Cartridge} (hr : c.chrRam = false) {p : Ppu} (ha : (vAddr p).toNat < 0x2000) (v : Byte) :
    (dataWrite c v p).1 = c := by
  simp [dataWrite, ppuMemWrite, Cartridge.ppuWrite, hr, ha]

theorem dataRead_memory {p : Ppu} (h : (vAddr p).toNat < 0x3F00) (c : Cartridge) (bus : Byte) :
    dataRead c bus p = (p.readBuffer, incV { p with readBuffer := ppuMemRead c p (vAddr p) }) := if_pos h

theorem dataRead_palette {p : Ppu} (h : 0x3F00 ≤ (vAddr p).toNat) (c : Cartridge) (bus : Byte) :
    dataRead c bus p = (field bus 6 2 ++ paletteRead p (vAddr p),
      incV { p with readBuffer := ppuMemRead c p (vAddr p - 0x1000) }) := if_neg (Nat.not_lt.2 h)

/-- R410: a read of $2007 changes the read buffer and `v` alone. -/
theorem dataRead_frame (c : Cartridge) (bus : Byte) (p : Ppu) : (dataRead c bus p).2 =
    { p with readBuffer := (dataRead c bus p).2.readBuffer, v := p.v + (if bit p.ctrl 2 then 32 else 1) } := by
  rcases Nat.lt_or_ge (vAddr p).toNat 0x3F00 with h | h
  · rw [dataRead_memory h]
    rfl
  · rw [dataRead_palette h]
    rfl

theorem field_append_low {n m : Nat} (x : BitVec n) (y : BitVec m) : field (x ++ y) 0 m = y := by
  apply BitVec.eq_of_getLsbD_eq
  intro i hi
  simp [field, BitVec.getLsbD_append, hi]

theorem field_append_high {n m : Nat} (x : BitVec n) (y : BitVec m) : field (x ++ y) m n = x := by
  apply BitVec.eq_of_getLsbD_eq
  intro i hi
  simp [field, BitVec.getLsbD_append, hi]

/-- R410: beneath the palette lie the nametables. -/
theorem ppuMemRead_beneath_palette {a : PpuAddr} (h : 0x3F00 ≤ a.toNat) (c : Cartridge) (p : Ppu) :
    ppuMemRead c p (a - 0x1000) = p.vram.get (ntIndex c.mirror (a - 0x1000)) := by
  have hlt := a.isLt
  have hsub : (a - 0x1000).toNat = a.toNat - 0x1000 := by
    rw [BitVec.toNat_sub]
    show (16384 - 4096 + a.toNat) % 16384 = a.toNat - 4096
    omega
  rw [ppuMemRead, if_neg (by omega), if_pos (by omega)]

/-- R407: a write of $2004 stores at OAMADDR. -/
theorem oamDataWrite_get {p : Ppu} (h : Memory.wf 256 p.oam = true) (v : Byte) (k : Nat) :
    (oamDataWrite v p).oam.get k = if k = p.oamaddr.toNat then v else p.oam.get k :=
  Memory.get_set 256 _ k _ v h

/-- Settles O53: each half from the law of its register; the CPU's access by the address map, and observing the PPU's bus
leaves the rest of the cartridge. -/
theorem writeThenRead : Obligations.WriteThenRead := by
  refine ⟨fun c p v hp hc => ⟨⟨?_, rfl, fun k hk => ?_⟩, ?_⟩, fun c p bus => ⟨rfl, ?_, ?_, dataRead_frame c bus p⟩,
    fun a v s h1 h2 => ⟨?_, ?_⟩⟩
  · exact (oamDataWrite_get hp.oam v _).trans (if_pos rfl)
  · exact (oamDataWrite_get hp.oam v k).trans (if_neg hk)
  · have hread := ppuMemRead_dataWrite hp hc (v := v)
    have hsame := (hread (vAddr p)).trans (if_pos rfl)
    rw [ppuStored] at hsame
    refine ⟨fun h hr => ?_, fun h hr => dataWrite_rom hr h v, fun h h' => ?_, fun h => ?_,
      fun b hb => (hread b).trans (if_neg hb), dataWrite_frame c v p⟩
    · exact hsame.trans (by rw [if_pos h, if_pos hr])
    · exact hsame.trans (by rw [if_neg (Nat.not_lt.2 h), if_pos h'])
    · exact hsame.trans (by rw [if_neg (by omega), if_neg (Nat.not_lt.2 h)])
  · intro h
    change (dataRead c bus p).1 = _ ∧ (dataRead c bus p).2.readBuffer = _
    rw [dataRead_memory h]
    exact ⟨rfl, rfl⟩
  · intro h
    change field (dataRead c bus p).1 0 6 = _ ∧ field (dataRead c bus p).1 6 2 = _ ∧ (dataRead c bus p).2.readBuffer = _
    rw [dataRead_palette h]
    exact ⟨field_append_low _ _, field_append_high _ _, ppuMemRead_beneath_palette h c p⟩
  · rw [readDecode_ppu h1 h2]
    exact ⟨rfl, rfl, rfl⟩
  · rw [writeDecode_ppu h1 h2]
    exact ⟨rfl, rfl⟩

/-! The sound registers (R500, R507, R508). -/

theorem field_one {n : Nat} (v : BitVec n) (i : Nat) : field v i 1 = bit1 (bit v i) := by
  apply BitVec.eq_of_getLsbD_eq
  intro k hk
  obtain rfl : k = 0 := by omega
  simp [field, bit1, bit]

/-- The value of a byte given by its bits. -/
theorem toNat_bits (b7 b6 b5 b4 b3 b2 b1 b0 : Bool) :
    (bit1 b7 ++ bit1 b6 ++ bit1 b5 ++ bit1 b4 ++ bit1 b3 ++ bit1 b2 ++ bit1 b1 ++ bit1 b0).toNat =
      (if b7 then 128 else 0) + (if b6 then 64 else 0) + (if b5 then 32 else 0) + (if b4 then 16 else 0)
        + (if b3 then 8 else 0) + (if b2 then 4 else 0) + (if b1 then 2 else 0) + (if b0 then 1 else 0) := by
  revert b7 b6 b5 b4 b3 b2 b1 b0
  decide

theorem ite_bne_zero {w : Nat} (x : BitVec w) (k : Nat) :
    (if (x != 0) = true then k else 0) = (if x = 0 then 0 else k) := by
  by_cases h : x = 0 <;> simp [h]

/-- R508: the byte a read of $4015 answers, in numbers. -/
theorem apuStatusRead_toNat (bus : Byte) (a : Apu) : (apuStatusRead bus a).1.toNat =
    (if a.dmc.irq then 128 else 0) + (if a.frameIrq then 64 else 0) + (if bit bus 5 then 32 else 0)
      + (if a.dmc.bytesRemaining = 0 then 0 else 16) + (if a.noise.length = 0 then 0 else 8)
      + (if a.tri.length = 0 then 0 else 4) + (if a.pulse2.length = 0 then 0 else 2)
      + (if a.pulse1.length = 0 then 0 else 1) := by
  rw [apuStatusRead, field_one, toNat_bits]
  simp only [ite_bne_zero]

/-- R507: every write of $4015 clears the DMC's interrupt. -/
theorem dmcStatusWrite_irq (on : Bool) (d : Dmc) : (dmcStatusWrite on d).irq = false := by
  unfold dmcStatusWrite
  split_ifs <;> rfl

/-- Settles O59: the status byte bit by bit, and the address map for the CPU's writes. -/
theorem soundStatus : Obligations.SoundStatus := fun s v =>
  ⟨apuStatusRead_toNat s.busLatch s.apu, rfl, dmcStatusWrite_irq _ _, rfl, fun _ h1 h2 => writeDecode_apu h1 h2 v s, rfl,
    rfl⟩

end Sys2Proof.Machine
end

section
/-! The statements of spec/30_encoding.md: decoding and encoding are inverse to each other, and the cycle counts of the
read-class instructions. -/

namespace Sys2Proof

/-! The opcode byte (R124 to R127). -/

/-- Settles O1: each word is looked up in the matrix of R125. -/
theorem decodedWords : Obligations.DecodedWords := by
  unfold Obligations.DecodedWords
  decide

/-- R126: the list of R124 names every entry of the matrix of R125 by its own byte, so no two bytes mean the same. -/
theorem encodeOpcode_decodeOpcode (b : Byte) : encodeOpcode (decodeOpcode b) = some b := by
  revert b
  decide

/-- R126: every entry of the matrix is an instruction. -/
theorem decodeOpcode_wf (b : Byte) : (decodeOpcode b).wf = true := by
  revert b
  decide

/-- R127: the matrix holds an illegal opcode where the lists of R127 name one. -/
theorem decodeOpcode_illegal {op : Byte} (h : (Instr.ill op).wf = true) : decodeOpcode op = .ill op := by
  have hill : ∀ b ∈ illegal1 ++ illegal2 ++ illegal3, decodeOpcode b = .ill b :=
    List.map_inj_left.1 rfl
  exact hill op (by simpa [Instr.wf, or_assoc] using h)

/-- Every well-formed instruction stands in the matrix, at the byte the list of R124 gives it. -/
theorem decodeOpcode_of_wf {i : Instr} (h : i.wf = true) : ∃ b, encodeOpcode i = some b ∧ decodeOpcode b = i := by
  suffices hmap : (encodeOpcode i).map decodeOpcode = some i from Option.map_eq_some_iff.1 hmap
  cases i with
  | lda m | ldx m | ldy m | adc m | sbc m | and m | ora m | eor m | cmp m | cpx m | cpy m | bit m
  | sta m | stx m | sty m =>
    revert h
    cases m <;> decide
  | inc m | dec m | jmp m => cases m <;> rfl
  | asl m | lsr m | rol m | ror m =>
    cases m with
    | acc => rfl
    | mem m => cases m <;> rfl
  | ill op =>
    have henc : encodeOpcode (.ill op) = some op := if_pos h
    rw [henc, Option.map_some, decodeOpcode_illegal h]
  | tax | tay | txa | tya | tsx | txs | pha | php | pla | plp | inx | iny | dex | dey
  | bcc | bcs | beq | bne | bmi | bpl | bvc | bvs | jsr | rts
  | clc | sec | cli | sei | clv | cld | sed | nop | brk | rti => rfl

/-! Whole instructions (R120, R121). -/

theorem ReadMode.bytes_pos (m : ReadMode) : 1 ≤ m.bytes := by cases m <;> decide

theorem StoreMode.bytes_pos (m : StoreMode) : 1 ≤ m.bytes := by cases m <;> decide

theorem RmwMode.bytes_pos (m : RmwMode) : 1 ≤ m.bytes := by cases m <;> decide

theorem ShiftMode.bytes_pos (m : ShiftMode) : 1 ≤ m.bytes := by
  cases m with
  | acc => exact Nat.le_refl 1
  | mem m => exact m.bytes_pos

theorem illegalBytes_pos (op : Byte) : 1 ≤ illegalBytes op := by
  have := Laws.Size.illegalBytes_range op
  omega

/-- R120: the opcode byte itself counts. -/
theorem Instr.bytes_pos (i : Instr) : 1 ≤ i.bytes := by
  cases i with
  | lda m | ldx m | ldy m | adc m | sbc m | and m | ora m | eor m | cmp m | cpx m | cpy m | bit m => exact m.bytes_pos
  | sta m | stx m | sty m => exact m.bytes_pos
  | inc m | dec m => exact m.bytes_pos
  | asl m | lsr m | rol m | ror m => exact m.bytes_pos
  | ill op => exact illegalBytes_pos op
  | _ => exact Nat.succ_pos _

theorem encode_eq_some {i : Instr} {b : Byte} {operands : List Byte} (hb : encodeOpcode i = some b)
    (hlen : operands.length = i.bytes - 1) : encode i operands = some (b :: operands) := by
  simp only [encode, hb, if_pos hlen]

/-- What a list of bytes that decodes looks like: an opcode byte, as many operand bytes as its instruction asks for, and the
rest. -/
theorem decodeBytes_eq_ok_iff {bs : List Byte} {d : Decoded} :
    decodeBytes bs = .ok d ↔
      ∃ b, bs = b :: (d.operands ++ d.rest) ∧ decodeOpcode b = d.instr ∧ d.operands.length = d.instr.bytes - 1 := by
  constructor
  · intro h
    cases bs with
    | nil => cases h
    | cons b bs =>
      simp only [decodeBytes] at h
      split_ifs at h with hshort
      cases h
      exact ⟨b, by rw [List.take_append_drop], rfl, List.length_take_of_le (Nat.le_of_not_lt hshort)⟩
  · obtain ⟨i, operands, rest⟩ := d
    rintro ⟨b, rfl, rfl, hlen⟩
    have henough : ¬ (operands ++ rest).length < (decodeOpcode b).bytes - 1 := by
      rw [List.length_append, hlen]
      exact Nat.not_lt.2 (Nat.le_add_right _ _)
    rw [decodeBytes, if_neg henough, List.take_left' hlen, List.drop_left' hlen]

/-- Settles O2: a well-formed instruction stands in the matrix at the byte it encodes to, and that byte asks for the
operand bytes that follow it. -/
theorem encodeThenDecode : Obligations.EncodeThenDecode := by
  intro i operands rest hwf hlen
  obtain ⟨b, henc, hdec⟩ := decodeOpcode_of_wf hwf
  have hpos := i.bytes_pos
  refine ⟨b :: operands, encode_eq_some henc hlen, ?_, decodeBytes_eq_ok_iff.2 ⟨b, rfl, hdec, hlen⟩⟩
  rw [List.length_cons, hlen]
  omega

/-- Settles O3: a list that decodes is the opcode byte, the operand bytes and the rest, and the opcode byte is the one its
entry of the matrix encodes to. -/
theorem decodeThenEncode : Obligations.DecodeThenEncode := by
  intro bs d h
  obtain ⟨b, hbs, hdec, hlen⟩ := decodeBytes_eq_ok_iff.1 h
  have henc : encodeOpcode d.instr = some b := hdec ▸ encodeOpcode_decodeOpcode b
  exact ⟨hdec ▸ decodeOpcode_wf b, b :: d.operands, encode_eq_some henc hlen, hbs.symm⟩

end Sys2Proof

namespace Sys2Proof.Machine

/-! Cycle counts (R130, R164, R165). -/

/-- R130: the base count of a read-class instruction is its mode's. -/
theorem baseCycles_readClass {f : ReadMode → Instr} (hf : f ∈ readClass) (m : ReadMode) :
    (f m).baseCycles = m.cycles := by
  simp only [readClass, List.mem_cons, List.not_mem_nil, or_false] at hf
  rcases hf with rfl | rfl | rfl | rfl | rfl | rfl | rfl | rfl | rfl | rfl | rfl | rfl <;> rfl

/-- Settles O33: all cycles after the opcode fetch are those of the operand read; what follows changes the CPU alone. -/
theorem readClassCycles : Obligations.ReadClassCycles := by
  intro f hf m s hidle
  obtain ⟨c, he, -⟩ := exec_readClass hf m s
  refine ⟨_, he, ?_⟩
  rw [baseCycles_readClass hf m]
  exact (readOperand_idle m hidle).2

end Sys2Proof.Machine
end

section
/-! The statements of spec/31_addressing_modes.md: where the modes read and write, the frame of the instructions on registers
alone, and the cycle counts of the classes. -/

namespace Sys2Proof.Machine

/-! A step (R157, R314). -/

/-- No arm of `exec` faults or is refused, in any state. -/
theorem exec_next (i : Instr) (s : State) : ∃ t, exec i s = .next t := by
  cases i with
  | jmp m => cases m <;> exact ⟨_, rfl⟩
  | _ => exact ⟨_, rfl⟩

/-- Without a reset pending a step is the instruction at PC and the poll. -/
theorem step_of_exec {s t : State} (hr : s.resetPending = false)
    (he : exec (decodeOpcode (fetch s).1) (fetch s).2 = .next t) : step s = .next (pollInterrupts t) := by
  simp [step, hr, he]

/-- Settles O4: the fetch is a read cycle, and whatever the byte decodes to answers a next state. -/
theorem stepRunsInstruction : Obligations.StepRunsInstruction := by
  rintro s i hr rfl
  obtain ⟨t, he⟩ := exec_next (decodeOpcode (fetch s).1) (fetch s).2
  exact ⟨decodeOpcode_wf _, fetch_plain s, (fetch_to s).cpu, (fetch_to s).nothingStored, t, he, step_of_exec hr he⟩

/-! Loads and stores (R153 to R161). -/

theorem exec_lda (m : ReadMode) (s : State) :
    exec (.lda m) s = .next (setNZ (readOperand m s).1 (setA (readOperand m s).1 (readOperand m s).2)) := rfl

theorem exec_ldx (m : ReadMode) (s : State) :
    exec (.ldx m) s = .next (setNZ (readOperand m s).1 (setX (readOperand m s).1 (readOperand m s).2)) := rfl

theorem exec_ldy (m : ReadMode) (s : State) :
    exec (.ldy m) s = .next (setNZ (readOperand m s).1 (setY (readOperand m s).1 (readOperand m s).2)) := rfl

/-- Settles O6: with plain operand bytes the modes compute the address the spec names, and the read cycle there answers
the byte that stands at it. -/
theorem loadFromMemory : Obligations.LoadFromMemory := by
  intro m s hop
  refine ⟨readAddr_plain m s hop, fun hea => ?_⟩
  have hv := readOperand_plain m s hop hea
  exact ⟨⟨_, exec_lda m s, by simpa using hv⟩, ⟨_, exec_ldx m s, by simpa using hv⟩,
    ⟨_, exec_ldy m s, by simpa using hv⟩⟩

/-- A store to RAM reads as the stored byte afterwards. -/
theorem storeOperand_peek (m : StoreMode) (r : Byte) {s : State} (hw : RamOk s)
    (hram : (storeAddr m s).1.toNat < 0x2000) : peek (storeAddr m s).1 (storeOperand m r s) = r := by
  have hwf : Memory.wf 0x800 (storeAddr m s).2.ram = true := by rw [(storeAddr_to m s).ram]; exact hw
  exact ((memWrite_still (storeAddr m s).1 r (storeAddr m s).2).storedAt hwf).stored hram

/-- Settles O9: with plain operand bytes the store goes to the address the spec names, and RAM takes the register. -/
theorem storeToMemory : Obligations.StoreToMemory := by
  intro m s hw hop
  have hea := storeAddr_plain m s hop
  refine ⟨hea, fun hram => ?_⟩
  have stored : ∀ r : Byte, peek (effectiveAddr (storeAsRead m) s) (storeOperand m r s) = r := fun r => by
    rw [← hea] at hram ⊢
    exact storeOperand_peek m r hw hram
  exact ⟨⟨_, rfl, stored _⟩, ⟨_, rfl, stored _⟩, ⟨_, rfl, stored _⟩⟩

theorem storeOperand_cyc (m : StoreMode) (r : Byte) {s : State} (hidle : DmcIdle s) (h14 : (storeAddr m s).1 ≠ 0x4014)
    (h15 : (storeAddr m s).1 ≠ 0x4015) : (storeOperand m r s).cyc + 1 = s.cyc + m.cycles := by
  obtain ⟨hi, hc⟩ := storeAddr_idle m hidle
  have hwrite : (storeOperand m r s).cyc = (storeAddr m s).2.cyc + 1 := (memWrite_idle _ r hi h15 h14).2
  omega

/-! Read-modify-write (R151). -/

/-- The state after a read-modify-write of the result `new` that leaves the CPU as `c`. -/
def rmwStored (m : RmwMode) (new : Byte) (c : Cpu) (s : State) : State :=
  { rmwWrite (rmwRead m s).1 (rmwRead m s).2.1 new (rmwRead m s).2.2 with cpu := c }

theorem rmwStored_peek (m : RmwMode) (new : Byte) (c : Cpu) {s : State} (hw : RamOk s)
    (hram : (rmwAddr m s).1.toNat < 0x2000) : peek (rmwAddr m s).1 (rmwStored m new c s) = new :=
  ((readTo_withCpu c _).peek _).trans ((rmwWrite_stored m new s hw).2.stored hram)

theorem rmwStored_cyc (m : RmwMode) (new : Byte) (c : Cpu) {s : State} (hidle : DmcIdle s)
    (h14 : (rmwAddr m s).1 ≠ 0x4014) (h15 : (rmwAddr m s).1 ≠ 0x4015) :
    (rmwStored m new c s).cyc + 1 = s.cyc + m.cycles := by
  obtain ⟨hread, hcr⟩ := rmwRead_idle m hidle
  have hcw := (rmwWrite_idle (rmwRead m s).1 (rmwRead m s).2.1 new hread h15 h14).2
  rw [← hcr, rmwStored, hcw]

theorem setNZ_withCpu (v : Byte) (s : State) :
    setNZ v s = { s with cpu := { s.cpu with n := bit v 7, z := v == 0 } } := rfl

theorem shiftFlags_withCpu (r : Byte × Bool) (s : State) :
    shiftFlags r s = { s with cpu := { s.cpu with n := bit r.1 7, z := r.1 == 0, c := r.2 } } := rfl

theorem countMemory_stored (f : Byte → Byte) (m : RmwMode) (s : State) :
    ∃ c, countMemory f m s = rmwStored m (f (rmwRead m s).2.1) c s := ⟨_, setNZ_withCpu _ _⟩

theorem shiftMemory_stored (op : ShiftOp) (m : RmwMode) (s : State) :
    ∃ c, shiftMemory op m s = rmwStored m (op (rmwRead m s).2.1 (rmwRead m s).2.2.cpu.c).1 c s :=
  ⟨_, shiftFlags_withCpu _ _⟩

/-- In RAM the byte at the address is the operand, and reads as the result afterwards. -/
theorem countMemory_peek (f : Byte → Byte) (m : RmwMode) {s : State} (hw : RamOk s)
    (hram : (rmwAddr m s).1.toNat < 0x2000) :
    peek (rmwAddr m s).1 (countMemory f m s) = f (peek (rmwAddr m s).1 s) := by
  obtain ⟨c, hc⟩ := countMemory_stored f m s
  rw [hc, rmwStored_peek m _ c hw hram, rmwRead_value m s (.ofRam s hram)]

/-- In RAM the byte at the address is the operand, and reads as the result afterwards. -/
theorem shiftMemory_peek (op : ShiftOp) (m : RmwMode) {s : State} (hw : RamOk s)
    (hram : (rmwAddr m s).1.toNat < 0x2000) :
    peek (rmwAddr m s).1 (shiftMemory op m s) = (op (peek (rmwAddr m s).1 s) s.cpu.c).1 := by
  obtain ⟨c, hc⟩ := shiftMemory_stored op m s
  have hcarry : (rmwRead m s).2.2.cpu.c = s.cpu.c := by rw [(rmwRead_to m s).cpu]; rfl
  rw [hc, rmwStored_peek m _ c hw hram, rmwRead_value m s (.ofRam s hram), hcarry]

theorem lsrOp_toNat (v : Byte) (c : Bool) : (lsrOp v c).1.toNat = v.toNat / 2 := by
  simp [lsrOp, Nat.shiftRight_eq_div_pow]

/-- Settles O23: with plain operand bytes the address is the one the spec names; in RAM the read answers the byte there,
and the dummy write before the result leaves no trace. -/
theorem countInMemory : Obligations.CountInMemory := by
  intro m s hw hop
  have hea := rmwAddr_plain m s hop
  refine ⟨hea, fun hram => ?_⟩
  rw [← hea] at hram ⊢
  exact ⟨⟨_, rfl, countMemory_peek _ m hw hram⟩, ⟨_, rfl, countMemory_peek _ m hw hram⟩,
    ⟨shiftMemory lsrOp m s, rfl, by rw [shiftMemory_peek lsrOp m hw hram, lsrOp_toNat]⟩⟩

/-- A read-modify-write instruction is its read, its two writes, and then a change of the CPU alone. -/
theorem exec_rmwClass {f : RmwMode → Instr} (hf : f ∈ rmwClass) (m : RmwMode) (s : State) :
    ∃ t, exec (f m) s = .next t ∧ ∃ new c, t = rmwStored m new c s := by
  simp only [rmwClass, List.mem_cons, List.not_mem_nil, or_false] at hf
  rcases hf with rfl | rfl | rfl | rfl | rfl | rfl
  · exact ⟨_, rfl, _, countMemory_stored _ m s⟩
  · exact ⟨_, rfl, _, countMemory_stored _ m s⟩
  · exact ⟨_, rfl, _, shiftMemory_stored aslOp m s⟩
  · exact ⟨_, rfl, _, shiftMemory_stored lsrOp m s⟩
  · exact ⟨_, rfl, _, shiftMemory_stored rolOp m s⟩
  · exact ⟨_, rfl, _, shiftMemory_stored rorOp m s⟩

/-- R130: the base count of a read-modify-write instruction is its mode's. -/
theorem baseCycles_rmwClass {f : RmwMode → Instr} (hf : f ∈ rmwClass) (m : RmwMode) :
    (f m).baseCycles = m.cycles := by
  simp only [rmwClass, List.mem_cons, List.not_mem_nil, or_false] at hf
  rcases hf with rfl | rfl | rfl | rfl | rfl | rfl <;> rfl

/-- Settles O35: the cycles up to the address are the mode's, and away from $4014 and $4015 each write is one cycle. -/
theorem storeCycles : Obligations.StoreCycles := by
  constructor
  · intro m s hidle h14 h15
    have cyc := fun r : Byte => storeOperand_cyc m r hidle h14 h15
    exact ⟨⟨_, rfl, cyc _⟩, ⟨_, rfl, cyc _⟩, ⟨_, rfl, cyc _⟩⟩
  · intro f hf m s hidle h14 h15
    obtain ⟨_, he, new, c, rfl⟩ := exec_rmwClass hf m s
    exact ⟨_, he, by rw [baseCycles_rmwClass hf m, rmwStored_cyc m new c hidle h14 h15]⟩

/-! Instructions on registers and flags alone (R152). -/

/-- Each is the discarded read at PC and then a change of the CPU that leaves PC. -/
theorem exec_registerClass {i : Instr} (hi : i ∈ registerClass) (s : State) :
    ∃ c : Cpu, exec i s = .next { dummyFetch s with cpu := c } ∧ c.pc = (dummyFetch s).cpu.pc := by
  simp only [registerClass, List.cons_append, List.nil_append, List.mem_cons, List.not_mem_nil, or_false] at hi
  rcases hi with rfl | rfl | rfl | rfl | rfl | rfl | rfl | rfl | rfl | rfl | rfl | rfl | rfl | rfl | rfl | rfl | rfl | rfl
    | rfl | rfl | rfl | rfl
  all_goals
    change ∃ c, Host.Outcome.next _ = _ ∧ _
    exact ⟨_, rfl, rfl⟩

/-- Settles O11: the one cycle is a read, which stores nothing and leaves PC. -/
theorem registerClassFrame : Obligations.RegisterClassFrame := by
  intro i hi s
  obtain ⟨c, he, hpc⟩ := exec_registerClass hi s
  have hread := dummyFetch_still s
  exact ⟨_, he, by rw [hpc, hread.cpu], (hread.to.trans (readTo_withCpu c _)).nothingStored⟩

/-- Illegal opcodes without a count in `IllegalTiming` (R300, decision D6). -/
theorem illegalCycles_of_not_mem {p : Params} {op : Byte} (h : ∀ n, (op, n) ∉ p.illegalTiming) :
    illegalCycles p op = max 2 (illegalBytes op) := by
  have hnone : p.illegalTiming.find? (fun e => e.1 == op) = none := by
    rw [List.find?_eq_none]
    rintro ⟨b, n⟩ hmem hb
    exact h n (eq_of_beq hb ▸ hmem)
  simp only [illegalCycles, hnone]

/-- The first count for the opcode is the one that holds (notes/assumptions/10.md). -/
theorem illegalCycles_of_cons {p : Params} {op : Byte} {n : Nat} {rest : List (Byte × Nat)}
    (h : p.illegalTiming = (op, n) :: rest) : illegalCycles p op = max 2 n := by
  simp [illegalCycles, h]

theorem two_le_illegalCycles (p : Params) (op : Byte) : 2 ≤ illegalCycles p op := by
  unfold illegalCycles
  split <;> exact Nat.le_max_left _ _

/-- Settles O34: the class has one cycle after the fetch; an illegal opcode runs the cycles `illegalCycles` counts. -/
theorem registerClassCycles : Obligations.RegisterClassCycles := by
  refine ⟨fun i hi s hidle => ?_, fun op s hidle => ?_,
    fun op p => ⟨illegalCycles_of_not_mem, fun n rest => illegalCycles_of_cons⟩⟩
  · obtain ⟨c, he, -⟩ := exec_registerClass hi s
    exact ⟨_, he, congrArg (· + 1) (dummyFetch_idle hidle).2⟩
  · have hcyc := two_le_illegalCycles s.params op
    exact ⟨_, rfl, (skipOperands_idle (illegalBytes_pos op) (by omega) hidle).2⟩

/-! The stack and control flow (R164). The stack is RAM, so no push starts OAM DMA or the DMC. -/

theorem dummyFetch_push_cyc (v : Byte) {s : State} (h : DmcIdle s) : (push v (dummyFetch s)).cyc = s.cyc + 2 := by
  obtain ⟨h1, c1⟩ := dummyFetch_idle h
  rw [(push_idle v h1).2, c1]

theorem prePull_readStack_cyc {s : State} (h : DmcIdle s) :
    (readStack (prePull (dummyFetch s))).2.cyc = s.cyc + 3 := by
  obtain ⟨h1, c1⟩ := dummyFetch_idle h
  obtain ⟨h2, c2⟩ := prePull_idle h1
  rw [(readStack_idle h2).2, c2, c1]

theorem exec_plp_cyc {s : State} (h : DmcIdle s) : ∃ t, exec .plp s = .next t ∧ t.cyc = s.cyc + 3 :=
  ⟨_, rfl, by rw [pPull_cyc, prePull_readStack_cyc h]⟩

theorem exec_jmp_abs_cyc {s : State} (h : DmcIdle s) : ∃ t, exec (.jmp .abs) s = .next t ∧ t.cyc = s.cyc + 2 := by
  obtain ⟨h1, c1⟩ := fetch_idle h
  have c2 := (memRead_idle (fetch s).2.cpu.pc h1).2
  exact ⟨_, rfl, by rw [setPc_cyc, c2, c1]⟩

theorem exec_jmp_ind_cyc {s : State} (h : DmcIdle s) : ∃ t, exec (.jmp .ind) s = .next t ∧ t.cyc = s.cyc + 4 := by
  obtain ⟨h1, c1⟩ := fetchWord_idle h
  obtain ⟨h2, c2⟩ := memRead_idle (fetchWord s).1 h1
  have c3 := (memRead_idle (word (hiByte (fetchWord s).1) (loByte (fetchWord s).1 + 1)) h2).2
  exact ⟨_, rfl, by rw [setPc_cyc, c3, c2, c1]⟩

theorem exec_jsr_cyc {s : State} (h : DmcIdle s) : ∃ t, exec .jsr s = .next t ∧ t.cyc = s.cyc + 5 := by
  obtain ⟨h1, c1⟩ := fetch_idle h
  refine ⟨_, rfl, ?_⟩
  obtain ⟨h2, c2⟩ := dummyRead_idle (stackAddr (fetch s).2) h1
  generalize dummyRead (stackAddr (fetch s).2) (fetch s).2 = s3 at h2 c2 ⊢
  obtain ⟨h3, c3⟩ := push_idle (hiByte s3.cpu.pc) h2
  generalize push (hiByte s3.cpu.pc) s3 = s4 at h3 c3 ⊢
  obtain ⟨h4, c4⟩ := push_idle (loByte s4.cpu.pc) h3
  generalize push (loByte s4.cpu.pc) s4 = s5 at h4 c4 ⊢
  rw [setPc_cyc, (memRead_idle s5.cpu.pc h4).2, c4, c3, c2, c1]

theorem exec_rts_cyc {s : State} (h : DmcIdle s) : ∃ t, exec .rts s = .next t ∧ t.cyc = s.cyc + 5 := by
  obtain ⟨h1, c1⟩ := dummyFetch_idle h
  obtain ⟨h2, c2⟩ := prePull_idle h1
  obtain ⟨h3, c3⟩ := pull_idle h2
  obtain ⟨h4, c4⟩ := readStack_idle h3
  have c5 := fun pc : Word => (dummyFetch_idle (s := setPc pc (readStack (pull (prePull (dummyFetch s))).2).2) h4).2
  exact ⟨_, rfl, by rw [setPc_cyc, c5, setPc_cyc, c4, c3, c2, c1]⟩

theorem exec_brk_cyc {s : State} (h : DmcIdle s) : ∃ t, exec .brk s = .next t ∧ t.cyc = s.cyc + 6 := by
  obtain ⟨h1, c1⟩ := fetch_idle h
  exact ⟨_, rfl, by rw [(enterException_idle true irqVector h1).2, c1]⟩

/-- The cycles after the opcode fetch are one less than the base count. -/
theorem cyc_succ_of_next {i : Instr} {n : Nat} {s : State} (hb : i.baseCycles = n + 1)
    (h : ∃ t, exec i s = .next t ∧ t.cyc = s.cyc + n) :
    ∃ t, exec i s = .next t ∧ t.cyc + 1 = s.cyc + i.baseCycles := by
  obtain ⟨t, he, hc⟩ := h
  exact ⟨t, he, by rw [hb, hc, Nat.add_assoc]⟩

/-- Settles O37: every fetch, read and push of the sequence is one cycle. -/
theorem controlCycles : Obligations.ControlCycles := by
  intro i hi s hidle
  simp only [controlClass, List.mem_cons, List.not_mem_nil, or_false] at hi
  rcases hi with rfl | rfl | rfl | rfl | rfl | rfl | rfl | rfl | rfl | rfl
  · exact cyc_succ_of_next rfl ⟨_, rfl, dummyFetch_push_cyc _ hidle⟩
  · exact cyc_succ_of_next rfl ⟨_, rfl, dummyFetch_push_cyc _ hidle⟩
  · exact cyc_succ_of_next rfl ⟨_, rfl, prePull_readStack_cyc hidle⟩
  · exact cyc_succ_of_next rfl (exec_plp_cyc hidle)
  · exact cyc_succ_of_next rfl (exec_jmp_abs_cyc hidle)
  · exact cyc_succ_of_next rfl (exec_jmp_ind_cyc hidle)
  · exact cyc_succ_of_next rfl (exec_jsr_cyc hidle)
  · exact cyc_succ_of_next rfl (exec_rts_cyc hidle)
  · exact cyc_succ_of_next rfl (exec_brk_cyc hidle)
  · exact cyc_succ_of_next rfl ⟨_, rfl, (returnFromException_idle hidle).2⟩

end Sys2Proof.Machine
end

section
/-! The statements of spec/40_load_store.md that speak of the bus cycle of a load or a store: any address, a device's too. -/

namespace Sys2Proof.Machine

/-! Loads (R200 to R202). -/

/-- Settles O5: the operand is what the last read cycle answers, and the register, N and Z are changes of the CPU after
it. -/
theorem loadResult : Obligations.LoadResult := by
  intro m s
  refine ⟨readAddr_nothingStored m s, readOperand_cycle m s, ?_, ?_, ?_⟩
  · rw [exec_lda, readOperand_cycle]
    rfl
  · rw [exec_ldx, readOperand_cycle]
    rfl
  · rw [exec_ldy, readOperand_cycle]
    rfl

/-! Stores (R203 to R205). -/

/-- A store moves PC past the operand bytes and keeps the rest of the CPU, no flag changed. -/
theorem storeOperand_cpu (m : StoreMode) (r : Byte) (s : State) :
    (storeOperand m r s).cpu = s.cpu.advanced (m.bytes - 1) :=
  (memWrite_still _ r _).cpu.trans (storeAddr_to m s).cpu

/-- A store writes its byte at the address of the mode and nowhere else: the cycles before the write store nothing. -/
theorem storeOperand_storedAt (m : StoreMode) (r : Byte) {s : State} (hw : RamOk s) :
    StoredAt (storeAddr m s).1 r s (storeOperand m r s) := by
  have hread := storeAddr_to m s
  have hwf : Memory.wf 0x800 (storeAddr m s).2.ram = true := by rw [hread.ram]; exact hw
  exact ((memWrite_still _ r _).storedAt hwf).after hread

/-- Settles O8: up to the address there are reads alone, and the write that follows stores the register there; `memWrite` is
by definition a write cycle, with OAM DMA after it at $4014. -/
theorem storeResult : Obligations.StoreResult := by
  intro m s hw
  exact ⟨(storeAddr_to m s).nothingStored, rfl, rfl, rfl, fun r =>
    ⟨storeOperand_cpu m r s, storeOperand_storedAt m r hw, rfl⟩⟩

end Sys2Proof.Machine
end

section
/-! The statements of spec/41_transfer_stack.md: the transfers, pushes and pulls. -/

namespace Sys2Proof.Machine

/-! Transfers (R210 to R215). -/

/-- Settles O10: the discarded read at PC leaves the CPU, so a transfer finds every register as it was. -/
theorem transferResult : Obligations.TransferResult := by
  refine ⟨rfl, rfl, rfl, rfl, rfl, rfl, fun s => ?_⟩
  have hcpu : (dummyFetch s).cpu = s.cpu := (dummyFetch_still s).cpu
  simp only [← hcpu]
  exact ⟨rfl, rfl, rfl, rfl, rfl, rfl⟩

/-! Pushes (R216, R217). -/

/-- A push stores its byte at the old stack address and nowhere else. -/
theorem push_storedAt (v : Byte) {s : State} (hw : RamOk s) : StoredAt (stackAddr s) v s (push v s) :=
  ((memWrite_still (stackAddr s) v s).storedAt hw).before (readTo_withCpu _ _)

/-- What PHA and PHP do with the byte they push: the discarded read at PC before it changes neither S nor RAM. -/
theorem push_dummyFetch_spec (v : Byte) {s : State} (hw : RamOk s) :
    (push v (dummyFetch s)).cpu = { s.cpu with s := s.cpu.s - 1 }
    ∧ StoredAt (stackAddr s) v s (push v (dummyFetch s)) := by
  have hread := dummyFetch_still s
  have hram : RamOk (dummyFetch s) := by rw [RamOk, hread.ram]; exact hw
  have haddr : stackAddr (dummyFetch s) = stackAddr s := by rw [stackAddr, hread.cpu, stackAddr]
  have hstored := (push_storedAt v hram).after hread.to
  rw [haddr] at hstored
  exact ⟨by rw [(push_spec v _).1, hread.cpu], hstored⟩

/-- Settles O12: each pushes a byte of the CPU, which the discarded read before has left. -/
theorem pushResult : Obligations.PushResult := by
  intro s hw
  have hcpu : (dummyFetch s).cpu = s.cpu := (dummyFetch_still s).cpu
  have hpha : exec .pha s = .next (push (dummyFetch s).cpu.a (dummyFetch s)) := rfl
  have hphp : exec .php s = .next (push (pPush true (dummyFetch s).cpu) (dummyFetch s)) := rfl
  rw [hcpu] at hpha hphp
  exact ⟨⟨_, hpha, push_dummyFetch_spec _ hw⟩, ⟨_, hphp, push_dummyFetch_spec _ hw⟩⟩

/-! Pulls (R218, R219). -/

/-- Up to the state in which PLA and PLP read the stack only S moves, up by 1. -/
theorem prePull_dummyFetch_to (s : State) : ReadTo { s.cpu with s := s.cpu.s + 1 } s (prePull (dummyFetch s)) := by
  have hread := dummyFetch_still s
  have hpre := prePull_to (dummyFetch s)
  rw [hread.cpu] at hpre
  exact hread.to.trans hpre

/-- The byte PLA and PLP pull is the one at the slot above S. -/
theorem prePull_readStack_value (s : State) :
    (readStack (prePull (dummyFetch s))).1 = peek (stackSlot (s.cpu.s + 1)) s := by
  have hpre := prePull_dummyFetch_to s
  rw [readStack_value, hpre.peek, stackAddr_eq, hpre.cpu]

/-- The three cycles of a pull after its opcode store nothing and change S alone. -/
theorem prePull_readStack_to (s : State) :
    ReadTo { s.cpu with s := s.cpu.s + 1 } s (readStack (prePull (dummyFetch s))).2 :=
  (prePull_dummyFetch_to s).then (readStack_still _)

theorem exec_pla (s : State) : exec .pla s = .next (setNZ (peek (stackSlot (s.cpu.s + 1)) s)
    (setA (peek (stackSlot (s.cpu.s + 1)) s) (readStack (prePull (dummyFetch s))).2)) := by
  rw [← prePull_readStack_value]
  rfl

theorem exec_plp (s : State) : exec .plp s =
    .next (pPull (peek (stackSlot (s.cpu.s + 1)) s) (readStack (prePull (dummyFetch s))).2) := by
  rw [← prePull_readStack_value]
  rfl

/-- Settles O13: the byte pulled goes to A, N and Z, or to the six flags, and what follows the read changes the CPU alone. -/
theorem pullResult : Obligations.PullResult := by
  intro s
  have hread := prePull_readStack_to s
  have hstored := fun c : Cpu => (hread.trans (readTo_withCpu c _)).nothingStored
  refine ⟨⟨_, exec_pla s, ?_, hstored _⟩, ⟨_, exec_plp s, ?_, pPull_eq _ _ ▸ hstored _⟩⟩
  · rw [setNZ_cpu, setA_cpu, hread.cpu]
  · rw [pPull_cpu, hread.cpu, Cpu.pulled]

end Sys2Proof.Machine
end

section
/-! The statements of spec/42_arith_logic.md: addition and subtraction in numbers, logic, BIT and the compares. -/

namespace Sys2Proof.Machine

/-! Addition with carry in numbers (R230). -/

/-- The sum ADC forms, its operands read as unsigned numbers. -/
def unsignedSum (a m : Byte) (c : Bool) : Nat := a.toNat + m.toNat + (if c then 1 else 0)

/-- The same sum with its operands read as signed numbers. -/
def signedSum (a m : Byte) (c : Bool) : Int := a.toInt + m.toInt + (if c then 1 else 0)

/-- The sum of two bytes and a carry fits nine bits. -/
theorem sum9_toNat (a m : Byte) (c : Bool) : (sum9 a m c).toNat = unsignedSum a m c := by
  have ha := a.isLt
  have hm := m.isLt
  cases c <;> simp [sum9, unsignedSum, bit1] <;> omega

theorem sum9_low (a m : Byte) (c : Bool) : (sum9 a m c).setWidth 8 = BitVec.ofNat 8 (unsignedSum a m c) := by
  rw [← sum9_toNat, BitVec.ofNat_toNat]

theorem bit_sum9_carry (a m : Byte) (c : Bool) : bit (sum9 a m c) 8 = decide (255 < unsignedSum a m c) := by
  have hlt := (sum9 a m c).isLt
  have hmsb : bit (sum9 a m c) 8 = (sum9 a m c).msb := (BitVec.msb_eq_getLsbD_last _).symm
  rw [hmsb, BitVec.msb_eq_decide, ← sum9_toNat]
  simp only [decide_eq_decide]
  omega

theorem bit_seven_eq_msb (v : Byte) : bit v 7 = v.msb := (BitVec.msb_eq_getLsbD_last v).symm

/-- A byte as a signed number: from 128 on its sign bit is set and counts 256 down. -/
theorem byte_sign_cases (b : Byte) :
    (b.msb = false ∧ b.toNat < 128 ∧ b.toInt = b.toNat)
    ∨ (b.msb = true ∧ 128 ≤ b.toNat ∧ b.toInt = b.toNat - 256) := by
  have hb := b.isLt
  rw [BitVec.toInt_eq_msb_cond, BitVec.msb_eq_decide]
  by_cases h : 128 ≤ b.toNat
  · exact .inr (by simp [h])
  · exact .inl (by simp [h]; omega)

/-- The signed sum overflows exactly where the operands have one sign and the result has the other. -/
theorem bit_overflow_sum (a m : Byte) (c : Bool) :
    bit (~~~(a ^^^ m) &&& (a ^^^ BitVec.ofNat 8 (unsignedSum a m c))) 7
      = decide (signedSum a m c < -128 ∨ 127 < signedSum a m c) := by
  have hres : (BitVec.ofNat 8 (unsignedSum a m c)).msb = decide (128 ≤ unsignedSum a m c % 256) := by
    rw [BitVec.msb_eq_decide, BitVec.toNat_ofNat]
  rw [bit_seven_eq_msb, BitVec.msb_and, BitVec.msb_not, BitVec.msb_xor, BitVec.msb_xor, hres, unsignedSum, signedSum,
    Bool.eq_iff_iff]
  obtain ⟨ha, hna, hia⟩ | ⟨ha, hna, hia⟩ := byte_sign_cases a <;>
    obtain ⟨hm, hnm, him⟩ | ⟨hm, hnm, him⟩ := byte_sign_cases m <;>
    simp [ha, hm, hia, him] <;> split <;> omega

/-! ADC and SBC in numbers (R230, R231, R239). -/

/-- ADC changes A, N, Z, C and V, each a function of the two sums; D plays no part. -/
theorem adcUse_eq (m : Byte) (s : State) :
    let res := BitVec.ofNat 8 (unsignedSum s.cpu.a m s.cpu.c)
    let signed := signedSum s.cpu.a m s.cpu.c
    adcUse m s = { s with cpu := { s.cpu with
      a := res, n := bit res 7, z := res == 0, c := decide (255 < unsignedSum s.cpu.a m s.cpu.c),
      v := decide (signed < -128 ∨ 127 < signed) } } := by
  simp only [adcUse, sum9_low, bit_sum9_carry, bit_overflow_sum]
  rfl

/-- SBC is ADC of the complemented operand, in V too: its test for unlike signs is ADC's for like ones. -/
theorem sbcUse_eq_adcUse (m : Byte) (s : State) : sbcUse m s = adcUse (~~~m) s := by
  have hm : m ^^^ 0xFF = ~~~m := BitVec.xor_allOnes
  have hv : s.cpu.a ^^^ m = ~~~(s.cpu.a ^^^ ~~~m) := by rw [BitVec.not_xor_right, BitVec.not_not]
  simp only [sbcUse, adcUse, hm, hv]

/-- Adding the complement and the carry subtracts the operand and the borrow, 256 too high as unsigned numbers. -/
theorem unsignedSum_not (a m : Byte) (c : Bool) :
    (unsignedSum a (~~~m) c : Int) = a.toNat - m.toNat - (if c then 0 else 1) + 256 := by
  have hm := m.isLt
  rw [unsignedSum, BitVec.toNat_not]
  cases c <;> simp <;> omega

/-- As signed numbers it is the difference itself: the complement of `m` is `-m - 1`. -/
theorem signedSum_not (a m : Byte) (c : Bool) : signedSum a (~~~m) c = a.toInt - m.toInt - (if c then 0 else 1) := by
  have hnot : (~~~m).toInt = -m.toInt - 1 := by
    have hnat : (~~~m).toNat = 255 - m.toNat := BitVec.toNat_not
    obtain ⟨-, hn, hi⟩ | ⟨-, hn, hi⟩ := byte_sign_cases m <;>
      obtain ⟨-, hn', hi'⟩ | ⟨-, hn', hi'⟩ := byte_sign_cases (~~~m) <;> omega
  rw [signedSum, hnot]
  cases c <;> simp <;> omega

theorem exec_adc (m : ReadMode) (s : State) :
    let r := readOperand m s
    exec (.adc m) s = .next (adcUse r.1 r.2) := rfl

theorem exec_sbc (m : ReadMode) (s : State) :
    let r := readOperand m s
    exec (.sbc m) s = .next (sbcUse r.1 r.2) := rfl

/-- Settles O15: the operand read moves PC alone, so ADC adds to the A and C it found. -/
theorem adcResult : Obligations.AdcResult := by
  intro m s
  have hcpu := (readOperand_to m s).cpu
  rw [exec_adc, adcUse_eq, hcpu]
  rfl

/-- Settles O16: the sums of ADC with the complemented operand are the differences. -/
theorem sbcResult : Obligations.SbcResult := by
  intro m s v t diff signed res
  have hcpu : t.cpu = _ := (readOperand_to m s).cpu
  have hdiff : (unsignedSum s.cpu.a (~~~v) s.cpu.c : Int) = diff + 256 := unsignedSum_not _ _ _
  have hsigned : signedSum s.cpu.a (~~~v) s.cpu.c = signed := signedSum_not _ _ _
  have hres : BitVec.ofNat 8 (unsignedSum s.cpu.a (~~~v) s.cpu.c) = res := by
    rw [← BitVec.ofInt_natCast, hdiff, BitVec.ofInt_add]
    exact BitVec.add_zero _
  have hcarry : 255 < unsignedSum s.cpu.a (~~~v) s.cpu.c ↔ 0 ≤ diff := by omega
  rw [exec_sbc, sbcUse_eq_adcUse, adcUse_eq, hcpu]
  simp only [← hres, ← hsigned, ← hcarry]
  rfl

/-! Logic and BIT (R232 to R234, R238). -/

theorem setNZ_setA_eq (r : Byte) (s : State) :
    setNZ r (setA r s) = { s with cpu := { s.cpu with a := r, n := bit r 7, z := r == 0 } } := rfl

theorem exec_and (m : ReadMode) (s : State) :
    let r := readOperand m s
    exec (.and m) s = .next (setNZ (r.2.cpu.a &&& r.1) (setA (r.2.cpu.a &&& r.1) r.2)) := rfl

theorem exec_ora (m : ReadMode) (s : State) :
    let r := readOperand m s
    exec (.ora m) s = .next (setNZ (r.2.cpu.a ||| r.1) (setA (r.2.cpu.a ||| r.1) r.2)) := rfl

theorem exec_eor (m : ReadMode) (s : State) :
    let r := readOperand m s
    exec (.eor m) s = .next (setNZ (r.2.cpu.a ^^^ r.1) (setA (r.2.cpu.a ^^^ r.1) r.2)) := rfl

theorem exec_bit (m : ReadMode) (s : State) :
    let r := readOperand m s
    exec (.bit m) s = .next (bitUse r.1 r.2) := rfl

theorem bitUse_eq (m : Byte) (s : State) :
    bitUse m s = { s with cpu := { s.cpu with z := decide (s.cpu.a &&& m = 0), n := bit m 7, v := bit m 6 } } := rfl

/-- Settles O17: the operand read moves PC alone, so the operation meets the A it found. -/
theorem logicResult : Obligations.LogicResult := by
  intro m s
  have hcpu := (readOperand_to m s).cpu
  refine ⟨?_, ?_, ?_, ?_⟩
  · rw [exec_and, setNZ_setA_eq, hcpu]
    rfl
  · rw [exec_ora, setNZ_setA_eq, hcpu]
    rfl
  · rw [exec_eor, setNZ_setA_eq, hcpu]
    rfl
  · rw [exec_bit, bitUse_eq, hcpu]
    rfl

/-! Compares (R235 to R237). -/

theorem compareUse_eq (r m : Byte) (s : State) :
    compareUse r m s = { s with cpu := { s.cpu with
      c := decide (m.toNat ≤ r.toNat), z := decide (r = m), n := bit (r - m) 7 } } := rfl

theorem exec_cmp (m : ReadMode) (s : State) :
    let r := readOperand m s
    exec (.cmp m) s = .next (compareUse r.2.cpu.a r.1 r.2) := rfl

theorem exec_cpx (m : ReadMode) (s : State) :
    let r := readOperand m s
    exec (.cpx m) s = .next (compareUse r.2.cpu.x r.1 r.2) := rfl

theorem exec_cpy (m : ReadMode) (s : State) :
    let r := readOperand m s
    exec (.cpy m) s = .next (compareUse r.2.cpu.y r.1 r.2) := rfl

/-- Settles O18: the operand read moves PC alone, so each compare meets the register it found. -/
theorem compareResult : Obligations.CompareResult := by
  intro m s
  have hcpu := (readOperand_to m s).cpu
  refine ⟨?_, ?_, ?_⟩
  · rw [exec_cmp, compareUse_eq, hcpu]
    rfl
  · rw [exec_cpx, compareUse_eq, hcpu]
    rfl
  · rw [exec_cpy, compareUse_eq, hcpu]
    rfl

end Sys2Proof.Machine
end

section
/-! The statements of spec/43_incdec_shift.md: counting, shifting and rotating a register or a memory location. -/

namespace Sys2Proof.Machine

/-! Counting a register (R252 to R255). -/

/-- Settles O19: the discarded read at PC leaves the CPU, so the count starts from the register it found. -/
theorem countRegister : Obligations.CountRegister := by
  intro s t c
  have hcpu : t.cpu = c := (dummyFetch_still s).cpu
  rw [← hcpu]
  exact ⟨rfl, rfl, rfl, rfl⟩

/-! Read-modify-write of any address (R151). -/

theorem rmwStored_storedAt (m : RmwMode) (new : Byte) (c : Cpu) {s : State} (hw : RamOk s) :
    StoredAt (rmwAddr m s).1 new s (rmwStored m new c s) :=
  (rmwWrite_stored m new s hw).2.before (readTo_withCpu c _)

/-- A read-modify-write ends with the read, the dummy write or idle cycle, and the write of the result. -/
theorem rmwStored_cycles (m : RmwMode) (new : Byte) (c : Cpu) (s : State) :
    let ea := (rmwAddr m s).1
    let r := memRead ea (rmwAddr m s).2
    rmwStored m new c s = { memWrite ea new
      (if s.params.dummyCyclesOnBus then memWrite ea r.1 r.2 else tick r.2) with cpu := c } := by
  rw [rmwStored, rmwWrite_cycles]

/-! Counting memory (R250, R251). -/

theorem countMemory_eq (f : Byte → Byte) (m : RmwMode) {s : State} (hw : RamOk s) :
    let r := f (rmwRead m s).2.1
    countMemory f m s = rmwStored m r
      { s.cpu with n := bit r 7, z := r == 0, pc := s.cpu.pc + BitVec.ofNat 16 (m.bytes - 1) } s := by
  rw [countMemory, setNZ_withCpu, (rmwWrite_stored m _ s hw).1]
  rfl

/-- Settles O20: INC and DEC are one read-modify-write with a different count, and after its cycles only flags change. -/
theorem countMemoryResult : Obligations.CountMemory := by
  intro m s hw ea old read c t
  have hcycles : ∀ r : Byte, rmwStored m r (c r) s = t r := fun r => rmwStored_cycles m r (c r) s
  have hcount : ∀ f : Byte → Byte, countMemory f m s = t (f old) := fun f =>
    (countMemory_eq f m hw).trans (hcycles _)
  refine ⟨(rmwAddr_to m s).nothingStored, congrArg _ (hcount _), congrArg _ (hcount _), fun r => ?_⟩
  rw [← hcycles r]
  exact rmwStored_storedAt m r (c r) hw

/-! The shifts and rotates in numbers (R256 to R259). -/

theorem bit_seven_eq_decide (v : Byte) : bit v 7 = decide (128 ≤ v.toNat) := by
  rw [bit_seven_eq_msb, BitVec.msb_eq_decide]

theorem bit_zero_eq_decide {n : Nat} (v : BitVec n) : bit v 0 = decide (v.toNat % 2 = 1) :=
  Nat.testBit_zero v.toNat

theorem ofNat_beq_zero (r : Nat) : (BitVec.ofNat 8 r == 0) = decide (r % 256 = 0) := by
  rw [Bool.eq_iff_iff, beq_iff_eq, decide_eq_true_iff, ← BitVec.toNat_inj, BitVec.toNat_ofNat]
  rfl

theorem toNat_bit1 (c : Bool) : (bit1 c).toNat = if c then 1 else 0 := by
  cases c <;> rfl

theorem toNat_append_eq_add {n m : Nat} (x : BitVec n) (y : BitVec m) :
    (x ++ y).toNat = 2 ^ m * x.toNat + y.toNat := by
  rw [BitVec.toNat_append, Nat.shiftLeft_eq, Nat.mul_comm, ← Nat.two_pow_add_eq_or_of_lt y.isLt]

theorem aslOp_eq (m : Byte) (c : Bool) : aslOp m c = (BitVec.ofNat 8 (2 * m.toNat), bit m 7) := by
  have hval : m <<< 1 = BitVec.ofNat 8 (2 * m.toNat) := by
    apply BitVec.eq_of_toNat_eq
    rw [BitVec.toNat_shiftLeft, Nat.shiftLeft_eq, Nat.mul_comm, BitVec.toNat_ofNat]
  rw [aslOp, hval]

theorem lsrOp_eq (m : Byte) (c : Bool) : lsrOp m c = (BitVec.ofNat 8 (m.toNat / 2), bit m 0) := by
  rw [← lsrOp_toNat m c, BitVec.ofNat_toNat, BitVec.setWidth_eq]
  rfl

theorem rolOp_eq (m : Byte) (c : Bool) :
    rolOp m c = (BitVec.ofNat 8 (2 * m.toNat + if c then 1 else 0), bit m 7) := by
  have hval : field m 0 7 ++ bit1 c = BitVec.ofNat 8 (2 * m.toNat + if c then 1 else 0) := by
    apply BitVec.eq_of_toNat_eq
    rw [toNat_append_eq_add, toNat_bit1, field, BitVec.extractLsb'_toNat, Nat.shiftRight_zero, BitVec.toNat_ofNat]
    split <;> omega
  rw [rolOp, hval]

theorem rorOp_eq (m : Byte) (c : Bool) :
    rorOp m c = (BitVec.ofNat 8 (m.toNat / 2 + 128 * if c then 1 else 0), bit m 0) := by
  have hval : bit1 c ++ field m 1 7 = BitVec.ofNat 8 (m.toNat / 2 + 128 * if c then 1 else 0) := by
    have hm := m.isLt
    apply BitVec.eq_of_toNat_eq
    rw [toNat_append_eq_add, toNat_bit1, field, BitVec.extractLsb'_toNat, Nat.shiftRight_one, BitVec.toNat_ofNat]
    split <;> omega
  rw [rorOp, hval]

/-! Shifting the accumulator. -/

theorem shiftAcc_eq (op : ShiftOp) (s : State) :
    let r := op s.cpu.a s.cpu.c
    shiftAcc op s = { dummyFetch s with
      cpu := { s.cpu with a := r.1, n := bit r.1 7, z := r.1 == 0, c := r.2 } } := by
  rw [← (dummyFetch_still s).cpu]
  rfl

/-- The flags of a result given as a number. -/
theorem shiftAcc_of_number {op : ShiftOp} {s : State} {r : Nat} {b out : Bool}
    (hop : op s.cpu.a s.cpu.c = (BitVec.ofNat 8 r, b)) (hout : b = out) :
    shiftAcc op s = { dummyFetch s with cpu := { s.cpu with
      a := BitVec.ofNat 8 r, n := decide (128 ≤ r % 256), z := decide (r % 256 = 0), c := out } } := by
  rw [shiftAcc_eq, hop, bit_seven_eq_decide, BitVec.toNat_ofNat, ofNat_beq_zero, hout]

/-- Settles O21: each operation on A is a number modulo 256 and the bit shifted out. -/
theorem shiftAccumulator : Obligations.ShiftAccumulator := by
  intro s
  have outHigh := bit_seven_eq_decide s.cpu.a
  have outLow := bit_zero_eq_decide s.cpu.a
  exact ⟨congrArg _ (shiftAcc_of_number (aslOp_eq _ _) outHigh), congrArg _ (shiftAcc_of_number (lsrOp_eq _ _) outLow),
    congrArg _ (shiftAcc_of_number (rolOp_eq _ _) outHigh), congrArg _ (shiftAcc_of_number (rorOp_eq _ _) outLow)⟩

/-! Shifting memory. -/

theorem shiftMemory_eq (op : ShiftOp) (m : RmwMode) {s : State} (hw : RamOk s) :
    let r := op (rmwRead m s).2.1 s.cpu.c
    shiftMemory op m s = rmwStored m r.1 { s.cpu with
      n := bit r.1 7, z := r.1 == 0, c := r.2, pc := s.cpu.pc + BitVec.ofNat 16 (m.bytes - 1) } s := by
  have hcarry : (rmwRead m s).2.2.cpu.c = s.cpu.c := by rw [(rmwRead_to m s).cpu]; rfl
  rw [shiftMemory, shiftFlags_withCpu, (rmwWrite_stored m _ s hw).1, hcarry]
  rfl

/-- Numbers whose bits lie apart are joined by adding. -/
theorem ofNat_or_eq_add {i b : Nat} (hb : b < 2 ^ i) (a : Nat) :
    BitVec.ofNat 8 (2 ^ i * a) ||| BitVec.ofNat 8 b = BitVec.ofNat 8 (2 ^ i * a + b) := by
  rw [Nat.two_pow_add_eq_or_of_lt hb, BitVec.ofNat_or]

/-- R258 as bits: the carry comes in at bit 0. -/
theorem rolOp_eq_or (m : Byte) (c : Bool) :
    rolOp m c = (BitVec.ofNat 8 (2 * m.toNat) ||| if c then 1 else 0, bit m 7) := by
  have hor := ofNat_or_eq_add (i := 1) (b := if c then 1 else 0) (by split <;> decide) m.toNat
  rw [rolOp_eq]
  refine congrArg (·, bit m 7) (hor.symm.trans ?_)
  cases c <;> rfl

/-- R259 as bits: the carry comes in at bit 7. -/
theorem rorOp_eq_or (m : Byte) (c : Bool) :
    rorOp m c = (BitVec.ofNat 8 (m.toNat / 2) ||| if c then 0x80 else 0, bit m 0) := by
  have hm := m.isLt
  have hor := ofNat_or_eq_add (i := 7) (b := m.toNat / 2) (by omega) (if c then 1 else 0)
  rw [rorOp_eq, Nat.add_comm, BitVec.or_comm]
  refine congrArg (·, bit m 0) (hor.symm.trans ?_)
  cases c <;> rfl

/-- Settles O22: the four are one read-modify-write with a different operation, and after its cycles only flags change. -/
theorem shiftMemoryResult : Obligations.ShiftMemory := by
  intro m s hw ea old read c t up down inLow inHigh
  have hcycles : ∀ (r : Byte) (out : Bool), rmwStored m r (c r out) s = t r out := fun r out =>
    rmwStored_cycles m r (c r out) s
  have hshift : ∀ (op : ShiftOp) {r : Byte} {out : Bool}, op old s.cpu.c = (r, out) → shiftMemory op m s = t r out := by
    intro op r out hop
    have hold : (rmwRead m s).2.1 = old := rfl
    have heq := shiftMemory_eq op m hw
    rw [hold, hop] at heq
    exact heq.trans (hcycles r out)
  refine ⟨(rmwAddr_to m s).nothingStored, congrArg _ (hshift aslOp (aslOp_eq _ _)),
    congrArg _ (hshift lsrOp (lsrOp_eq _ _)), congrArg _ (hshift rolOp (rolOp_eq_or _ _)),
    congrArg _ (hshift rorOp (rorOp_eq_or _ _)), fun r out => ?_⟩
  rw [← hcycles r out]
  exact rmwStored_storedAt m r (c r out) hw

end Sys2Proof.Machine
end

section
/-! The statements of spec/44_branch_jump.md: branches and their cycles, JMP, and the subroutine call with its return. -/

namespace Sys2Proof.Machine

/-- Setting PC after an operation that stores nothing. -/
theorem ReadTo.setPc {c : Cpu} {s t : State} (h : ReadTo c s t) (pc : Word) :
    ReadTo { c with pc := pc } s (setPc pc t) := by
  rw [← h.cpu]
  exact h.trans (readTo_withCpu _ t)

/-- Where nothing was stored since `s`, a read of a plain address finds the byte of `s`. -/
theorem ReadTo.memRead_value {c : Cpu} {s t : State} (h : ReadTo c s t) {a : Word} (ha : Plain a s) :
    (memRead a t).1 = Machine.peek a s := by
  rw [memRead_plain a t (h.plain ha), h.peek]

/-! Branches (R269 to R277, R162). -/

/-- Each branch is `branch` with its condition, which reads flags alone. -/
theorem exec_branchClass {e : Instr × (Cpu → Bool)} (he : e ∈ branchClass) :
    (∀ s : State, exec e.1 s = .next (branch e.2 s)) ∧ ∀ (c : Cpu) (pc : Word), e.2 { c with pc := pc } = e.2 c := by
  simp only [branchClass, List.cons_append, List.nil_append, List.mem_cons, List.not_mem_nil, or_false] at he
  rcases he with rfl | rfl | rfl | rfl | rfl | rfl | rfl | rfl <;> exact ⟨fun _ => rfl, fun _ _ => rfl⟩

/-- R123: adding the sign-extended offset is adding it as a signed number modulo 65536. -/
theorem add_sext16_eq_ofInt (pc : Word) (off : Byte) :
    pc + 1 + sext16 off = BitVec.ofInt 16 (pc.toNat + 1 + off.toInt) := by
  rw [BitVec.ofInt_add, BitVec.ofInt_add, BitVec.ofInt_natCast, BitVec.ofNat_toNat, BitVec.setWidth_eq]
  rfl

/-- Settles O24: all eight are one operation, whose reads store nothing. -/
theorem branchResult : Obligations.BranchResult := by
  intro e he s off pc
  obtain ⟨hexec, hcond⟩ := exec_branchClass he
  have hbranch := branch_spec e.2 s
  rw [hcond, add_sext16_eq_ofInt] at hbranch
  exact ⟨fetch_plain s, _, hexec s, hbranch.cpu, hbranch.nothingStored⟩

/-- Settles O36: the offset is one cycle, a taken branch one more, another page one more (R164). -/
theorem branchCycles : Obligations.BranchCycles := by
  intro e he s hidle target
  obtain ⟨hexec, hcond⟩ := exec_branchClass he
  have hcyc := (branch_idle e.2 hidle).2
  rw [hcond] at hcyc
  refine ⟨_, hexec s, ?_⟩
  rw [hcyc]
  split_ifs <;> rfl

/-! Jumps (R278, R163). -/

/-- The absolute form goes to its operand, whose high byte it reads without moving PC. -/
theorem exec_jmp_abs (s : State) :
    ∃ t, exec (.jmp .abs) s = .next t ∧ ReadTo { s.cpu with pc := (fetchWord s).1 } s t :=
  ⟨_, rfl, ((fetch_to s).then (memRead_still _ _)).setPc _⟩

/-- The indirect form goes to the word at its operand, the second byte of it from the page of the first (decision D7). -/
theorem exec_jmp_ind (s : State) :
    ∃ t pc, exec (.jmp .ind) s = .next t ∧ ReadTo { s.cpu with pc := pc } s t
      ∧ (Plain (fetchWord s).1 s → Plain (word (hiByte (fetchWord s).1) (loByte (fetchWord s).1 + 1)) s →
          pc = word (peek (word (hiByte (fetchWord s).1) (loByte (fetchWord s).1 + 1)) s) (peek (fetchWord s).1 s)) := by
  have hptr := fetchWord_to s
  have hlo := hptr.then (memRead_still (fetchWord s).1 _)
  refine ⟨_, _, rfl, (hlo.then (memRead_still _ _)).setPc _, fun plainLo plainHi => ?_⟩
  rw [hptr.memRead_value plainLo, hlo.memRead_value plainHi]

/-- Settles O25: both forms read and then set PC. -/
theorem jumpResult : Obligations.JumpResult := by
  intro s
  obtain ⟨t, habs, kabs⟩ := exec_jmp_abs s
  obtain ⟨u, pc, hind, kind, hpc⟩ := exec_jmp_ind s
  exact ⟨⟨t, habs, kabs.cpu, kabs.nothingStored⟩, ⟨u, pc, hind, kind.cpu, kind.nothingStored, hpc⟩, fetchWord_plain s⟩

/-! JSR (R279). -/

/-- Two pushes after reads. -/
theorem Pushed2.after {a1 a2 : Word} {v1 v2 : Byte} {r s t : State} {c : Cpu}
    (h : Pushed2 a1 a2 v1 v2 s t) (k : ReadTo c r s) (b : BusStill s t) : Pushed2 a1 a2 v1 v2 r t :=
  ⟨h.first, h.second, fun a h1 h2 => (h.byte a h1 h2).trans (k.peek a), (k.bus.trans b).devices⟩

/-- Two pushes before reads. -/
theorem Pushed2.before {a1 a2 : Word} {v1 v2 : Byte} {s t u : State} {c : Cpu}
    (h : Pushed2 a1 a2 v1 v2 s t) (k : ReadTo c t u) (b : BusStill s t) : Pushed2 a1 a2 v1 v2 s u :=
  ⟨(k.peek _).trans h.first, (k.peek _).trans h.second, fun a h1 h2 => (k.peek a).trans (h.byte a h1 h2),
   (b.trans k.bus).devices⟩

/-- The state in which JSR reads the high byte of its operand: the address of that byte is pushed. -/
def callPushed (s : State) : State :=
  push (loByte (s.cpu.pc + 1)) (push (hiByte (s.cpu.pc + 1)) (dummyRead (stackAddr (fetch s).2) (fetch s).2))

/-- Up to the first push JSR fetches the low byte and reads the stack. -/
theorem fetch_stackRead_to (s : State) :
    ReadTo { s.cpu with pc := s.cpu.pc + 1 } s (dummyRead (stackAddr (fetch s).2) (fetch s).2) :=
  (fetch_to s).then (dummyRead_still _ _)

theorem callPushed_spec {s : State} (hw : RamOk s) :
    (callPushed s).cpu = { s.cpu with s := s.cpu.s - 2, pc := s.cpu.pc + 1 }
    ∧ Pushed2 (stackSlot s.cpu.s) (stackSlot (s.cpu.s - 1)) (hiByte (s.cpu.pc + 1)) (loByte (s.cpu.pc + 1)) s
        (callPushed s)
    ∧ BusStill s (callPushed s) := by
  have hread := fetch_stackRead_to s
  have hwf : Memory.wf 0x800 (dummyRead (stackAddr (fetch s).2) (fetch s).2).ram = true := by rw [hread.ram]; exact hw
  obtain ⟨hcpu, hpushed, hbus⟩ := push2_spec (hiByte (s.cpu.pc + 1)) (loByte (s.cpu.pc + 1)) _ hwf
  rw [hread.cpu] at hcpu hpushed
  exact ⟨hcpu, hpushed.after hread hbus, hread.bus.trans hbus⟩

/-- The address JSR goes to: its low byte is read before the pushes, its high byte after them. -/
def callTarget (s : State) : Word := word (memRead (s.cpu.pc + 1) (callPushed s)).1 (fetch s).1

theorem exec_jsr (s : State) :
    exec .jsr s = .next (setPc (callTarget s) (memRead (s.cpu.pc + 1) (callPushed s)).2) := by
  simp only [exec, execJsr, push_cpu, (fetch_stackRead_to s).cpu]
  rfl

/-- Settles O26: no read before, between or after the pushes stores anything. -/
theorem jsrResult : Obligations.JsrResult := by
  intro s hw
  obtain ⟨hcpu, hpushed, hbus⟩ := callPushed_spec hw
  have hread := memRead_still (s.cpu.pc + 1) (callPushed s)
  have hend := hread.to.setPc (callTarget s)
  refine ⟨_, callTarget s, exec_jsr s, ?_, hpushed.before hend hbus, fun plainLo plainHi => ?_⟩
  · rw [hend.cpu, hcpu]
  · rw [hend.peek, callTarget, memRead_plain _ _ (plainHi.congr hbus.cart), fetch_plain s plainLo]

/-! RTS (R280). -/

/-- A pull after reads. -/
theorem ReadTo.pull {c : Cpu} {s t : State} (h : ReadTo c s t) : ReadTo { c with s := c.s + 1 } s (pull t).2 := by
  rw [← h.cpu]
  exact h.trans (pull_to t)

/-- Where nothing was stored since `s`, the stack reads as in `s`. -/
theorem ReadTo.readStack_value {c : Cpu} {s t : State} (h : ReadTo c s t) :
    (readStack t).1 = Machine.peek (stackSlot c.s) s := by
  rw [Machine.readStack_value, h.peek, stackAddr_eq, h.cpu]

/-- S moves by 2 and PC goes behind the address RTS pulls. -/
theorem exec_rts (s : State) : ∃ t, exec .rts s = .next t ∧ ReadTo { s.cpu with
    s := s.cpu.s + 2
    pc := word (peek (stackSlot (s.cpu.s + 2)) s) (peek (stackSlot (s.cpu.s + 1)) s) + 1 } s t := by
  have hpre := prePull_dummyFetch_to s
  have hlo := hpre.pull
  have hs : s.cpu.s + 1 + 1 = s.cpu.s + 2 := BitVec.add_assoc ..
  simp only [hs] at hlo
  have hpc := fun pc : Word => ((hlo.then (readStack_still _)).setPc pc).then (dummyFetch_still _)
  have vlo : (pull (prePull (dummyFetch s))).1 = peek (stackSlot (s.cpu.s + 1)) s := hpre.readStack_value
  refine ⟨_, rfl, ?_⟩
  rw [hlo.readStack_value, vlo, (hpc _).cpu]
  exact (hpc _).setPc _

/-- Settles O27: RTS reads alone, and the stack is RAM, so the two slots are found as they stand. -/
theorem rtsResult : Obligations.RtsResult := by
  intro s
  obtain ⟨t, hexec, hread⟩ := exec_rts s
  exact ⟨t, hexec, hread.cpu, hread.nothingStored⟩

/-! A call and its return (R279, R280). -/

theorem word_hiByte_loByte (a : Word) : word (hiByte a) (loByte a) = a := by
  refine BitVec.eq_of_toNat_eq ?_
  have ha := a.isLt
  rw [word, toNat_append_eq_add]
  simp only [hiByte, loByte, field, BitVec.extractLsb'_toNat, Nat.shiftRight_eq_div_pow]
  omega

/-- A byte of the stack page depends on RAM alone. -/
theorem peek_stackSlot_congr {t u : State} (h : u.ram = t.ram) (b : Byte) :
    peek (stackSlot b) u = peek (stackSlot b) t := by
  simp only [peek, stackSlot_lt, if_true, h]

/-- Settles O28: RTS finds the two bytes JSR pushed, which are the address before the one it returns to. -/
theorem callReturn : Obligations.CallReturn := by
  intro s hw
  obtain ⟨t, pc, hjsr, hcpu, hpushed, -⟩ := jsrResult s hw
  refine ⟨t, hjsr, fun u hram hs => ?_⟩
  obtain ⟨w, hrts, hret, -⟩ := rtsResult u
  have hsp : u.cpu.s = s.cpu.s - 2 := by rw [hs, hcpu]
  have hhi : u.cpu.s + 2 = s.cpu.s := by rw [hsp, BitVec.sub_add_cancel]
  have hlo : u.cpu.s + 1 = s.cpu.s - 1 := by rw [hsp]; bv_omega
  rw [hhi, hlo, peek_stackSlot_congr hram, peek_stackSlot_congr hram, hpushed.first, hpushed.second,
    word_hiByte_loByte, BitVec.add_assoc] at hret
  exact ⟨w, hrts, by rw [hret]; rfl, by rw [hret]⟩

end Sys2Proof.Machine
end

section
/-! The statements of spec/45_flag_system.md: the flag instructions, BRK and the illegal opcodes. -/

namespace Sys2Proof.Machine

/-! Flags (R290 to R297). -/

/-- Settles O29: the discarded read at PC leaves the CPU, so the one flag written is all that changes in it. -/
theorem flagResult : Obligations.FlagResult := by
  refine ⟨rfl, rfl, rfl, rfl, rfl, rfl, rfl, rfl, fun s => ?_⟩
  have hcpu : (dummyFetch s).cpu = s.cpu := (dummyFetch_still s).cpu
  simp only [← hcpu]
  exact ⟨rfl, rfl, rfl, rfl, rfl, rfl, rfl, rfl⟩

/-! BRK (R298, R320). -/

/-- PC, which the status byte does not hold, does not change it (R26). -/
theorem pPush_withPc (b : Bool) (c : Cpu) (pc : Word) : pPush b { c with pc := pc } = pPush b c := rfl

theorem exec_brk (s : State) : exec .brk s = .next (enterException true irqVector (fetch s).2) := rfl

/-- Settles O30: the padding byte is a fetch, which moves PC and stores nothing, and the entry that follows is the one of
every exception; its pushes leave the vector, which no RAM address names. -/
theorem brkResult : Obligations.BrkResult := by
  intro s hw
  have hfetch := fetch_to s
  have hwf : Memory.wf 0x800 (fetch s).2.ram = true := by rw [hfetch.ram]; exact hw
  obtain ⟨⟨pc, hcpu, hpc⟩, hpushed, hbus⟩ :=
    enterException_spec true irqVector (fetch s).2 hwf (by decide) (by decide)
  rw [hfetch.cpu] at hcpu hpushed
  rw [pPush_withPc] at hpushed
  rw [hfetch.peek, hfetch.peek] at hpc
  exact ⟨_, pc, exec_brk s, hcpu, fun hlo hhi => hpc (hfetch.plain hlo) (hfetch.plain hhi),
    Pushed3.of hfetch hpushed hbus⟩

/-! Illegal opcodes (R300, R127, decision D6). -/

theorem exec_ill (op : Byte) (s : State) :
    exec (.ill op) s = .next (skipOperands (illegalBytes op) (illegalCycles s.params op) s) := rfl

/-- Settles O32: whatever count of cycles `IllegalTiming` gives, they are all reads, and PC ends behind the operand bytes. -/
theorem illegalResult : Obligations.IllegalResult := by
  intro op s
  have hskip := skipOperands_to (illegalBytes op) (illegalCycles s.params op) s
  exact ⟨_, exec_ill op s, hskip.cpu, hskip.nothingStored⟩

end Sys2Proof.Machine
end

section
/-! The statements of spec/60_exceptions.md: RTI, the poll at the instruction boundary, the NMI edge detector, and what
no instruction changes. -/

namespace Sys2Proof.Machine

/-! RTI (R299, R321). -/

/-- Settles O31: RTI reads alone, and the stack is RAM, so the three slots are found as they stand. -/
theorem rtiResult : Obligations.RtiResult := by
  refine ⟨rfl, fun s => ?_⟩
  have hreturn := returnFromException_spec s
  exact ⟨_, rfl, hreturn.cpu, hreturn.nothingStored⟩

/-! The poll at the instruction boundary (R314, R315). -/

theorem pollInterrupts_of_nmi {s : State} (h : s.nmiLatch = true) :
    pollInterrupts s = interruptSequence nmiVector { s with nmiLatch := false } := if_pos h

theorem pollInterrupts_of_irq {s : State} (hn : s.nmiLatch = false) (hl : irqLine s = true) (hi : s.cpu.i = false) :
    pollInterrupts s = interruptSequence irqVector s := by
  simp only [pollInterrupts, hn, hl, hi, Bool.false_eq_true, if_false, Bool.not_false, Bool.and_true, if_true]

/-- Nothing to take: the line is not asserted, or I masks it. -/
theorem pollInterrupts_of_none {s : State} (hn : s.nmiLatch = false) (h : irqLine s = false ∨ s.cpu.i = true) :
    pollInterrupts s = s := by
  have hmasked : (irqLine s && !s.cpu.i) = false := by
    rcases h with h | h <;> simp [h]
  simp only [pollInterrupts, hn, hmasked, Bool.false_eq_true, if_false]

/-- R315: the line is the or of its three sources. -/
theorem irqLine_iff (s : State) :
    irqLine s = true ↔ s.apu.frameIrq = true ∨ s.apu.dmc.irq = true ∨ s.cart.irq = true := by
  simp only [irqLine, Bool.or_eq_true, or_assoc]

/-- Settles O38: the poll is the NMI sequence from the state with the latch cleared, which agrees with the state before
on everything the sequence reads; what the sequence stores raises no NMI that PPUCTRL disables. -/
theorem nmiTaken : Obligations.NmiTaken := by
  intro s hw hn t
  have ht : t = interruptSequence nmiVector { s with nmiLatch := false } := pollInterrupts_of_nmi hn
  obtain ⟨hcpu, hpushed, hbus⟩ :=
    interruptSequence_spec nmiVector { s with nmiLatch := false } hw (by decide) (by decide)
  rw [← ht] at hcpu hpushed hbus
  refine ⟨ht, hbus.quiet, hcpu, hpushed, fun hidle => ?_⟩
  rw [ht]
  exact (interruptSequence_idle nmiVector (s := { s with nmiLatch := false }) hidle).2

/-- Settles O39: the three cases of the poll with no NMI latched. -/
theorem irqTaken : Obligations.IrqTaken := by
  intro s hw hn t line
  have hline : irqLine s = true ↔ line := irqLine_iff s
  refine ⟨fun hl => ?_, fun hi => pollInterrupts_of_none hn (.inr hi), fun hl hi => ?_⟩
  · exact pollInterrupts_of_none hn (.inl (Bool.eq_false_iff.2 (mt hline.1 hl)))
  · have ht : t = interruptSequence irqVector s := pollInterrupts_of_irq hn (hline.2 hl) hi
    obtain ⟨hcpu, hpushed, -⟩ := interruptSequence_spec irqVector s hw (by decide) (by decide)
    rw [ht]
    exact ⟨hcpu, hpushed, fun hidle => (interruptSequence_idle irqVector hidle).2⟩

/-! The NMI edge detector in a bus cycle (R312, R313, R73, R75; decisions D2 and D10). -/

/-- R73: the devices tick before or after the access, and then the detector looks. -/
theorem memRead_cycle (a : Word) (s : State) :
    let u := if s.params.tickBeforeAccess then clockDevices s else s
    let w := (readAccess a u).2
    memRead a s = ((readAccess a u).1, endCycle (if s.params.tickBeforeAccess then w else clockDevices w)) := by
  unfold memRead
  cases s.params.tickBeforeAccess <;> rfl

/-- R75: the devices tick before or after the access (notes/assumptions/9.md), and then the detector looks. -/
theorem writeCycle_cycle (a : Word) (v : Byte) (s : State) :
    let w := writeAccess a v (if s.params.tickBeforeAccess then clockDevices s else s)
    writeCycle a v s = endCycle (if s.params.tickBeforeAccess then w else clockDevices w) := by
  unfold writeCycle
  cases s.params.tickBeforeAccess <;> rfl

/-- Settles O42: the detector and the dot are as stated by definition, both kinds of cycle end with a look, and none of
what follows a look upsets the line or clears the latch. -/
theorem edgeDetected : Obligations.EdgeDetected := by
  intro s
  refine ⟨rfl, rfl, fun a v => ⟨memRead_cycle a s, writeCycle_cycle a v s, memRead_edge a s, memWrite_edge a v s,
    fun h => ⟨?_, ?_⟩⟩⟩
  · exact (memRead_still a s).nmiLatch h
  · exact (memWrite_still a v s).never.nmiLatch h

/-! What no instruction changes (R327, R34, R561, R601): no bus cycle changes it, and it is not in the CPU. -/

theorem ReadTo.never {c : Cpu} {s t : State} (h : ReadTo c s t) : NeverChanged s t := h.bus.never

theorem NeverChanged.withCpu {s t : State} (h : NeverChanged s t) (c : Cpu) : NeverChanged s { t with cpu := c } :=
  h.trans (readTo_withCpu c t).never

theorem push_dummyFetch_never (v : Byte) (s : State) : NeverChanged s (push v (dummyFetch s)) :=
  ((dummyFetch_still s).bus.trans (push_bus v _)).never

theorem storeOperand_never (m : StoreMode) (r : Byte) (s : State) : NeverChanged s (storeOperand m r s) :=
  (storeAddr_to m s).never.trans (memWrite_still _ r _).never

theorem dummyWrite_never (a : Word) (v : Byte) (s : State) : NeverChanged s (dummyWrite a v s) := by
  rcases dummyWrite_cases a v s with hwrite | hread
  · exact hwrite.never
  · exact hread.to.never

theorem rmwStored_never (m : RmwMode) (new : Byte) (c : Cpu) (s : State) : NeverChanged s (rmwStored m new c s) :=
  (((rmwRead_to m s).never.trans (dummyWrite_never _ _ _)).trans (memWrite_still _ new _).never).withCpu c

theorem callPushed_bus (s : State) : BusStill s (callPushed s) :=
  ((fetch_stackRead_to s).bus.trans (push_bus _ _)).trans (push_bus _ _)

theorem enterException_bus (b : Bool) (vec : Word) (s : State) : BusStill s (enterException b vec s) :=
  (((push_bus _ s).trans (push_bus _ _)).trans (push_bus _ _)).trans (loadVector_to vec _).bus

/-! The same of an instruction, class by class. -/

theorem exec_readClass_never {f : ReadMode → Instr} (hf : f ∈ readClass) (m : ReadMode) (s : State) :
    ∃ t, exec (f m) s = .next t ∧ NeverChanged s t := by
  obtain ⟨c, he, -⟩ := exec_readClass hf m s
  exact ⟨_, he, (readOperand_to m s).never.withCpu c⟩

theorem exec_registerClass_never {i : Instr} (hi : i ∈ registerClass) (s : State) :
    ∃ t, exec i s = .next t ∧ NeverChanged s t := by
  obtain ⟨c, he, -⟩ := exec_registerClass hi s
  exact ⟨_, he, (dummyFetch_still s).to.never.withCpu c⟩

theorem exec_rmwClass_never {f : RmwMode → Instr} (hf : f ∈ rmwClass) (m : RmwMode) (s : State) :
    ∃ t, exec (f m) s = .next t ∧ NeverChanged s t := by
  obtain ⟨_, he, new, c, rfl⟩ := exec_rmwClass hf m s
  exact ⟨_, he, rmwStored_never m new c s⟩

/-- A shift or rotate is of one class on the accumulator and of another on memory. -/
theorem exec_shift_never {f : ShiftMode → Instr} (hacc : f .acc ∈ registerClass)
    (hmem : (fun m => f (.mem m)) ∈ rmwClass) (m : ShiftMode) (s : State) :
    ∃ t, exec (f m) s = .next t ∧ NeverChanged s t := by
  cases m with
  | acc => exact exec_registerClass_never hacc s
  | mem m => exact exec_rmwClass_never hmem m s

theorem exec_controlClass_never {i : Instr} (hi : i ∈ controlClass) (s : State) :
    ∃ t, exec i s = .next t ∧ NeverChanged s t := by
  simp only [controlClass, List.mem_cons, List.not_mem_nil, or_false] at hi
  rcases hi with rfl | rfl | rfl | rfl | rfl | rfl | rfl | rfl | rfl | rfl
  · exact ⟨_, rfl, push_dummyFetch_never _ s⟩
  · exact ⟨_, rfl, push_dummyFetch_never _ s⟩
  · exact ⟨_, exec_pla s, (prePull_readStack_to s).never.withCpu _⟩
  · exact ⟨_, exec_plp s, pPull_eq _ _ ▸ (prePull_readStack_to s).never.withCpu _⟩
  · obtain ⟨t, he, hread⟩ := exec_jmp_abs s
    exact ⟨t, he, hread.never⟩
  · obtain ⟨t, _, he, hread, -⟩ := exec_jmp_ind s
    exact ⟨t, he, hread.never⟩
  · exact ⟨_, exec_jsr s, ((callPushed_bus s).trans (memRead_still _ _).bus).never.withCpu _⟩
  · obtain ⟨t, he, hread⟩ := exec_rts s
    exact ⟨t, he, hread.never⟩
  · exact ⟨_, exec_brk s, ((fetch_to s).bus.trans (enterException_bus _ _ _)).never⟩
  · exact ⟨_, rfl, (returnFromException_spec s).never⟩

/-- Settles O45: every instruction is one of a class, a store, a branch or illegal. -/
theorem neverChangedByInstruction : Obligations.NeverChangedByInstruction := by
  intro i s
  cases i with
  | lda m | ldx m | ldy m | adc m | sbc m | and m | ora m | eor m | cmp m | cpx m | cpy m | bit m =>
    exact exec_readClass_never (by simp [readClass]) m s
  | sta m | stx m | sty m => exact ⟨_, rfl, storeOperand_never m _ s⟩
  | tax | tay | txa | tya | tsx | txs | inx | iny | dex | dey | clc | sec | cli | sei | clv | cld | sed | nop =>
    exact exec_registerClass_never (by simp [registerClass]) s
  | inc m | dec m => exact exec_rmwClass_never (by simp [rmwClass]) m s
  | asl m | lsr m | rol m | ror m => exact exec_shift_never (by simp [registerClass]) (by simp [rmwClass]) m s
  | bcc | bcs | beq | bne | bmi | bpl | bvc | bvs => exact ⟨_, rfl, (branch_spec _ s).never⟩
  | jmp m => cases m <;> exact exec_controlClass_never (by simp [controlClass]) s
  | pha | php | pla | plp | jsr | rts | brk | rti => exact exec_controlClass_never (by simp [controlClass]) s
  | ill op => exact ⟨_, exec_ill op s, (skipOperands_to _ _ s).never⟩

end Sys2Proof.Machine
end

section
/-! The statements of spec/61_ppu.md: a read of $2002, the palette's images, the length of a frame, vertical blank, and the
scroll and address latches. -/

namespace Sys2Proof.Machine

/-! A read of $2002 (R405, decisions D14 and D24). -/

theorem readDecode_status {a : Word} (h : IsPpuReg 2 a) (s : State) :
    readDecode a s = ((statusRead s.busLatch s.ppu).1, { s with ppu := (statusRead s.busLatch s.ppu).2 }) := by
  obtain ⟨hlo, hhi, hreg⟩ := h
  rw [readDecode_ppu hlo hhi, hreg]
  rfl

theorem bit_append {n m : Nat} (x : BitVec n) (y : BitVec m) (k : Nat) :
    bit (x ++ y) k = if k < m then bit y k else bit x (k - m) := BitVec.getLsbD_append

theorem bit_field {n len k : Nat} (v : BitVec n) (lo : Nat) (hk : k < len) : bit (field v lo len) k = bit v (lo + k) := by
  simp [bit, field, hk]

theorem bit_bit1 (b : Bool) : bit (bit1 b) 0 = b := by
  cases b <;> rfl

/-- R405: the byte is the three flags over the low five bits of the bus. -/
theorem bit_statusRead (bus : Byte) (p : Ppu) :
    bit (statusRead bus p).1 7 = p.vblank ∧ bit (statusRead bus p).1 6 = p.spr0Hit
    ∧ bit (statusRead bus p).1 5 = p.sprOverflow ∧ ∀ k, k < 5 → bit (statusRead bus p).1 k = bit bus k := by
  refine ⟨?_, ?_, ?_, fun k hk => ?_⟩
  · exact (bit_append _ _ 7).trans ((bit_append _ _ 2).trans ((bit_append _ _ 1).trans (bit_bit1 p.vblank)))
  · exact (bit_append _ _ 6).trans ((bit_append _ _ 1).trans ((bit_append _ _ 0).trans (bit_bit1 p.spr0Hit)))
  · exact (bit_append _ _ 5).trans ((bit_append _ _ 0).trans (bit_bit1 p.sprOverflow))
  · rw [statusRead, bit_append, if_pos hk, bit_field bus 0 hk, Nat.zero_add]

/-! The palette (R424). -/

/-- The image of a palette address among the first 32. -/
theorem paletteImage_toNat (a : PpuAddr) : (0x3F00 ||| (a &&& 0x1F)).toNat = 0x3F00 + a.toNat % 32 := by
  have hlow : (a &&& 0x1F).toNat = a.toNat % 32 := by
    rw [BitVec.toNat_and]
    exact Nat.and_two_pow_sub_one_eq_mod a.toNat 5
  have hlt : a.toNat % 32 < 2 ^ 8 := by omega
  rw [BitVec.toNat_or, hlow]
  exact (Nat.two_pow_add_eq_or_of_lt hlt 0x3F).symm

theorem ppuMemRead_palette {a : PpuAddr} (h : 0x3F00 ≤ a.toNat) (c : Cartridge) (p : Ppu) :
    ppuMemRead c p a = (p.palette.get (palIndex a)).setWidth 8 := by
  rw [ppuMemRead, if_neg (by omega), if_neg (by omega)]

theorem ppuMemWrite_palette {a : PpuAddr} (h : 0x3F00 ≤ a.toNat) (c : Cartridge) (p : Ppu) (v : Byte) :
    ppuMemWrite c p a v = (c, { p with palette := p.palette.set (palIndex a) (field v 0 6) }) := by
  rw [ppuMemWrite, if_neg (by omega), if_neg (by omega)]

/-- The four sprite backdrop entries and the background entries they are. -/
theorem palIndex_backdrop {i : PpuAddr} (hi : i ∈ ([0x00, 0x04, 0x08, 0x0C] : List PpuAddr)) :
    0x3F00 ≤ (0x3F10 + i).toNat ∧ 0x3F00 ≤ (0x3F00 + i).toNat ∧ palIndex (0x3F10 + i) = palIndex (0x3F00 + i) := by
  simp only [List.mem_cons, List.not_mem_nil, or_false] at hi
  rcases hi with rfl | rfl | rfl | rfl <;> decide

/-- Settles O52: an image and a backdrop entry have the same place in the palette, on which accesses depend alone. -/
theorem paletteMirrored : Obligations.PaletteMirrored := by
  refine fun c p => ⟨fun a ha => ?_, fun i hi => ?_⟩
  · have himage := paletteImage_toNat a
    have hplace : (0x3F00 + a.toNat % 32) % 32 = a.toNat % 32 := by omega
    rw [ppuMemRead_palette ha, ppuMemRead_palette (by omega), palIndex, palIndex, himage, hplace]
  · obtain ⟨hs, hb, hplace⟩ := palIndex_backdrop hi
    refine ⟨?_, fun v => ?_⟩
    · rw [ppuMemRead_palette hs, ppuMemRead_palette hb, hplace]
    · rw [ppuMemWrite_palette hs, ppuMemWrite_palette hb, hplace]

/-! The length of a frame (R430 to R432, decisions D18 and D19). -/

theorem ppuTick_bgEn (c : Cartridge) (p : Ppu) : bgEn (ppuTick c p) = bgEn p := by
  rw [bgEn, (ppuTick_still c p).regs.mask, bgEn]

/-- The frame `p` starts is one dot short (R432). -/
def shortFrame (p : Ppu) : Bool := p.oddFrame && bgEn p

theorem shortFrame_iff (p : Ppu) : shortFrame p = true ↔ p.oddFrame = true ∧ bgEn p = true := Bool.and_eq_true_iff

/-- The number, among the 89342 of a full frame, of the dot that comes after `n` dots of the frame `p` starts: in a short
frame dot 339 of the pre-render line is left out. -/
def dotNumber (p : Ppu) (n : Nat) : Nat := if shortFrame p && decide (339 ≤ n) then n + 1 else n

theorem dotNumber_of_long {p : Ppu} (h : shortFrame p = false) (n : Nat) : dotNumber p n = n := by
  simp [dotNumber, h]

theorem dotNumber_of_short {p : Ppu} (h : shortFrame p = true) (n : Nat) :
    dotNumber p n = if 339 ≤ n then n + 1 else n := by
  simp [dotNumber, h]

/-- The number of the dot after dot number `m`. -/
def nextDotNumber (p : Ppu) (m : Nat) : Nat := if shortFrame p = true ∧ m = 338 then 340 else m + 1

theorem dotNumber_succ (p : Ppu) (n : Nat) : dotNumber p (n + 1) = nextDotNumber p (dotNumber p n) := by
  unfold nextDotNumber
  cases h : shortFrame p
  · simp [dotNumber_of_long h]
  · simp only [dotNumber_of_short h, true_and]
    split_ifs <;> omega

theorem dotNumber_mono (p : Ppu) : Monotone (dotNumber p) := monotone_nat_of_le_succ fun n => by
  rw [dotNumber_succ, nextDotNumber]
  split_ifs <;> omega

theorem le_dotNumber (p : Ppu) (n : Nat) : n ≤ dotNumber p n := by
  unfold dotNumber
  split_ifs <;> omega

/-- In the frame `p` starts, the PPU `q` stands at dot number `m`. -/
structure AtDot (p : Ppu) (m : Nat) (q : Ppu) : Prop where
  scanline : q.scanline = (m / 341 : Nat) - 1
  dot : q.dot = m % 341
  oddFrame : q.oddFrame = p.oddFrame
  background : bgEn q = bgEn p

/-- Within a frame a dot leads to the next one that is not left out. -/
theorem AtDot.tick {p q : Ppu} {m : Nat} (h : AtDot p m q) (hm : m < 89341) (c : Cartridge) :
    AtDot p (nextDotNumber p m) (ppuTick c q) := by
  obtain ⟨hline, hdot, hodd, hbg⟩ := h
  obtain ⟨tline, tdot, todd⟩ := ppuTick_position c q
  have hmid : ¬ (q.dot = 340 ∧ q.scanline = 260) := by omega
  have hskip : (q.scanline = -1 ∧ q.dot = 338 ∧ q.oddFrame = true ∧ bgEn q = true) ↔ (shortFrame p = true ∧ m = 338) := by
    have hm338 : q.scanline = -1 ∧ q.dot = 338 ↔ m = 338 := by omega
    rw [shortFrame_iff, hodd, hbg, ← and_assoc, hm338, and_comm]
  refine ⟨?_, ?_, todd.trans ((if_neg hmid).trans hodd), (ppuTick_bgEn c q).trans hbg⟩
  · rw [tline, nextDotNumber]
    split_ifs <;> omega
  · rw [tdot, nextDotNumber]
    by_cases hk : shortFrame p = true ∧ m = 338
    · rw [if_neg (by omega), if_pos (hskip.2 hk), if_pos hk]
    · rw [if_neg (mt hskip.1 hk), if_neg hk]
      split_ifs <;> omega

/-- The last dot of a frame leads to the first of the next one, of the other parity. -/
theorem AtDot.tick_last {p q : Ppu} (h : AtDot p 89341 q) (c : Cartridge) :
    (ppuTick c q).scanline = -1 ∧ (ppuTick c q).dot = 0 ∧ (ppuTick c q).oddFrame = !p.oddFrame := by
  have hline : q.scanline = 260 := h.scanline
  have hdot : q.dot = 340 := h.dot
  obtain ⟨tline, tdot, todd⟩ := ppuTick_position c q
  rw [if_pos hdot] at tline tdot
  rw [if_pos hline] at tline
  rw [if_pos ⟨hdot, hline⟩, h.oddFrame] at todd
  exact ⟨tline, tdot, todd⟩

/-- The PPU goes through the dots of the frame in order. -/
theorem atDot_iterate {p : Ppu} (hline : p.scanline = -1) (hdot : p.dot = 0) (c : Cartridge) {n : Nat}
    (hn : dotNumber p n < 89342) : AtDot p (dotNumber p n) ((ppuTick c)^[n] p) := by
  induction n with
  | zero => exact ⟨by simp [dotNumber, hline], by simp [dotNumber, hdot], rfl, rfl⟩
  | succ n ih =>
    rw [dotNumber_succ] at hn ⊢
    have hlt : dotNumber p n < 89341 := by
      unfold nextDotNumber at hn
      split_ifs at hn <;> omega
    rw [Function.iterate_succ_apply']
    exact (ih (hlt.trans (by decide))).tick hlt c

/-- Settles O54: the last dot is number 89341, and no dot after the first has the number 0. -/
theorem frameLength : Obligations.FrameLength := by
  intro c p hline hdot frame at_
  obtain ⟨last, hframe, hlast⟩ : ∃ n, frame = n + 1 ∧ dotNumber p n = 89341 := by
    simp only [frame, ← shortFrame_iff]
    cases h : shortFrame p
    · exact ⟨89341, rfl, dotNumber_of_long h _⟩
    · exact ⟨89340, rfl, dotNumber_of_short h _⟩
  have hat : ∀ n, n ≤ last → AtDot p (dotNumber p n) (at_ n) := fun n hn =>
    atDot_iterate hline hdot c (Nat.lt_succ_of_le (hlast ▸ dotNumber_mono p hn))
  have hend : (at_ frame).scanline = -1 ∧ (at_ frame).dot = 0 ∧ (at_ frame).oddFrame = !p.oddFrame := by
    rw [hframe]
    simp only [at_, Function.iterate_succ_apply']
    exact (hlast ▸ hat last le_rfl).tick_last c
  refine ⟨hend.1, hend.2.1, hend.2.2, fun n hpos hn ⟨hl, hd⟩ => ?_⟩
  obtain ⟨eline, edot, -, -⟩ := hat n (by omega)
  have hle := le_dotNumber p n
  omega

/-! Vertical blank (R460 to R462, R405). -/

theorem advance_clock (sl : Int) (d : Nat) (p : Ppu) :
    (advance sl d p).vblank = p.vblank ∧ (advance sl d p).suppressVbl = p.suppressVbl
    ∧ (advance sl d p).frameDone = p.frameDone ∧ (advance sl d p).spr0Hit = p.spr0Hit
    ∧ (advance sl d p).sprOverflow = p.sprOverflow := by
  unfold advance
  split_ifs <;> exact ⟨rfl, rfl, rfl, rfl, rfl⟩

/-- Of a dot only its first end changes the vertical-blank flag, its suppression and the mark of the frame's end. -/
theorem ppuTick_flags (c : Cartridge) (p : Ppu) :
    let q := statusFlags p.scanline p.dot p
    (ppuTick c p).vblank = q.vblank ∧ (ppuTick c p).suppressVbl = q.suppressVbl ∧ (ppuTick c p).frameDone = q.frameDone := by
  intro q
  have hwork := dotWork_clock c p.scanline p.dot q
  obtain ⟨hv, hs, hf, -⟩ := advance_clock p.scanline p.dot (dotWork c p.scanline p.dot q)
  exact ⟨hv.trans hwork.vblank, hs.trans hwork.suppressVbl, hf.trans hwork.frameDone⟩

theorem statusFlags_vblStart (p : Ppu) : statusFlags 241 1 p = vblStart p := rfl

theorem statusFlags_preRender (p : Ppu) :
    statusFlags (-1) 1 p = { p with vblank := false, spr0Hit := false, sprOverflow := false } := rfl

theorem statusFlags_other {sl : Int} {d : Nat} (h : d ≠ 1 ∨ (sl ≠ 241 ∧ sl ≠ -1)) (p : Ppu) :
    statusFlags sl d p = p := by
  have h241 : (sl == 241 && d == 1) = false := by
    simp only [Bool.and_eq_false_iff, beq_eq_false_iff_ne]
    omega
  have hpre : (sl == -1 && d == 1) = false := by
    simp only [Bool.and_eq_false_iff, beq_eq_false_iff_ne]
    omega
  simp only [statusFlags, h241, hpre, Bool.false_eq_true, if_false]

/-- The two sprite flags are the same. -/
structure SpriteFlagsKept (p q : Ppu) : Prop where
  hit : q.spr0Hit = p.spr0Hit
  overflow : q.sprOverflow = p.sprOverflow

theorem SpriteFlagsKept.refl (p : Ppu) : SpriteFlagsKept p p := ⟨rfl, rfl⟩

theorem SpriteFlagsKept.trans {p q r : Ppu} (h : SpriteFlagsKept p q) (k : SpriteFlagsKept q r) : SpriteFlagsKept p r :=
  ⟨k.hit.trans h.hit, k.overflow.trans h.overflow⟩

theorem SpriteFlagsKept.ite {p q r : Ppu} {b : Prop} [Decidable b] (h : SpriteFlagsKept p q) (k : SpriteFlagsKept p r) :
    SpriteFlagsKept p (if b then q else r) := by
  split <;> assumption

theorem bgFetch_spriteFlags (c : Cartridge) (d : Nat) (p : Ppu) : SpriteFlagsKept p (bgFetch c d p) := by
  unfold bgFetch
  split
  · split <;> exact ⟨rfl, rfl⟩
  · exact .refl p

theorem spriteFetch_spriteFlags (c : Cartridge) (sl : Int) (d : Nat) (p : Ppu) :
    SpriteFlagsKept p (spriteFetch c sl d p) := by
  have hslot : ∀ (i ph : Nat) (q : Ppu), SpriteFlagsKept q (sprFetchSlot c sl i ph q) := by
    intro i ph q
    unfold sprFetchSlot
    dsimp only
    split <;> exact ⟨rfl, rfl⟩
  refine .ite (.trans ?_ (hslot _ _ _)) (.refl p)
  exact .ite (.ite ⟨rfl, rfl⟩ ⟨rfl, rfl⟩) ⟨rfl, rfl⟩

/-- R442, R453: evaluation and the pixel alone set the sprite flags, and the pre-render line has neither. -/
theorem dotWork_preRender (c : Cartridge) (d : Nat) (p : Ppu) : SpriteFlagsKept p (dotWork c (-1) d p) := by
  have hbefore : SpriteFlagsKept p (renderBefore (-1) d p) := .ite ⟨rfl, rfl⟩ (.refl p)
  have hunits : ∀ q, SpriteFlagsKept q (spriteUnitsStep d q) := fun q => .ite ⟨rfl, rfl⟩ (.refl q)
  have hscroll : ∀ q, SpriteFlagsKept q (scrollStep (-1) d q) := fun _ => ⟨rfl, rfl⟩
  have hafter : ∀ q, SpriteFlagsKept q (renderAfter c (-1) d q) := fun q =>
    .ite ((hunits q).trans ((bgFetch_spriteFlags c d _).trans ((hscroll _).trans (spriteFetch_spriteFlags c (-1) d _))))
      (.refl q)
  exact hbefore.trans (hafter _)

/-- R401: a write of a register leaves the vertical-blank flag. -/
theorem ppuRegWrite_vblank (c : Cartridge) (r : Nat) (v : Byte) (p : Ppu) :
    (ppuRegWrite c r v p).2.vblank = p.vblank := by
  unfold ppuRegWrite
  split
  · rfl
  · rfl
  · rfl
  · rfl
  · change (scrollWrite v p).vblank = p.vblank
    unfold scrollWrite
    split <;> rfl
  · change (addrWrite v p).vblank = p.vblank
    unfold addrWrite
    split <;> rfl
  · change (ppuMemWrite c p (vAddr p) v).2.vblank = p.vblank
    unfold ppuMemWrite
    split_ifs <;> rfl
  · rfl

/-- R401: of the registers a read of $2002 alone changes the vertical-blank flag. -/
theorem ppuRegRead_vblank (c : Cartridge) (bus : Byte) {r : Nat} (hr : r ≠ 2) (p : Ppu) :
    (ppuRegRead c bus r p).2.vblank = p.vblank := by
  unfold ppuRegRead
  split
  · exact absurd rfl hr
  · rfl
  · rw [dataRead_frame]
  · rfl

/-- Settles O55: of a dot its first end alone changes the flag, and each register on its own. -/
theorem vblankTiming : Obligations.VblankTiming := by
  intro c p q
  obtain ⟨hv, hs, hf⟩ := ppuTick_flags c p
  refine ⟨fun hline hdot => ?_, fun hline hdot => ?_, fun h => ?_, fun r v => ppuRegWrite_vblank c r v p,
    fun r bus hr => ppuRegRead_vblank c bus hr p⟩
  · rw [hline, hdot, statusFlags_vblStart] at hv hs hf
    refine ⟨hv, hs, hf, ?_⟩
    rw [nmiOut, (ppuTick_still c p).regs.ctrl]
  · have hwork := dotWork_preRender c 1 (statusFlags (-1) 1 p)
    obtain ⟨-, -, -, hhit, hovf⟩ := advance_clock (-1) 1 (dotWork c (-1) 1 (statusFlags (-1) 1 p))
    rw [hline, hdot, statusFlags_preRender] at hv
    have hq : q = advance (-1) 1 (dotWork c (-1) 1 (statusFlags (-1) 1 p)) := by
      rw [← hline, ← hdot]
      exact ppuTick_eq c p
    rw [← hq] at hhit hovf
    exact ⟨hv, hhit.trans hwork.hit, hovf.trans hwork.overflow⟩
  · exact hv.trans (congrArg _ (statusFlags_other h p))

/-! The scroll and address latches (R408, R409, decision D37). -/

/-- What each bit is after a field is written. -/
theorem getLsbD_putField {n m : Nat} (v : BitVec n) (lo : Nat) (x : BitVec m) {i : Nat} (hi : i < n) :
    (putField v lo x).getLsbD i = if lo ≤ i ∧ i < lo + m then x.getLsbD (i - lo) else v.getLsbD i := by
  by_cases hlo : i < lo
  · simp [putField, hi, hlo, Nat.not_le.2 hlo]
  · by_cases hhi : i < lo + m
    · have hin : i - lo < m := by omega
      simp [putField, hi, hlo, hhi, Nat.not_lt.1 hlo, hin]
    · have hzero : x.getLsbD (i - lo) = false := BitVec.getLsbD_of_ge x _ (by omega)
      simp [putField, hi, hlo, hhi, hzero, show ¬ i - lo < m by omega]

/-- A field reads as written. -/
theorem field_putField_same {n m : Nat} (v : BitVec n) (lo : Nat) (x : BitVec m) (h : lo + m ≤ n) :
    field (putField v lo x) lo m = x := by
  apply BitVec.eq_of_getLsbD_eq
  intro i hi
  rw [field, BitVec.getLsbD_extractLsb', getLsbD_putField v lo x (by omega), if_pos (by omega), Nat.add_sub_cancel_left]
  simp [hi]

/-- A field apart from the one written reads as before. -/
theorem field_putField_apart {n m : Nat} (v : BitVec n) (lo : Nat) (x : BitVec m) {k len : Nat} (hn : k + len ≤ n)
    (h : k + len ≤ lo ∨ lo + m ≤ k) : field (putField v lo x) k len = field v k len := by
  apply BitVec.eq_of_getLsbD_eq
  intro i hi
  rw [field, field, BitVec.getLsbD_extractLsb', BitVec.getLsbD_extractLsb', getLsbD_putField v lo x (by omega),
    if_neg (by omega)]

theorem field_toNat {n : Nat} (v : BitVec n) (lo len : Nat) : (field v lo len).toNat = v.toNat / 2 ^ lo % 2 ^ len := by
  rw [field, BitVec.extractLsb'_toNat, Nat.shiftRight_eq_div_pow]

/-- R409: the address the two bytes of $2006 leave, bits 13 to 8 from the first, 7 to 0 from the second. -/
theorem address_eq_append (t : BitVec 15) (x y : Byte) :
    putField (putField (putField t 8 (field x 0 6)) 14 (0#1)) 0 y = 0#1 ++ field x 0 6 ++ y := by
  apply BitVec.eq_of_getLsbD_eq
  intro i hi
  rw [getLsbD_putField _ _ _ hi, getLsbD_putField _ _ _ hi, getLsbD_putField _ _ _ hi, BitVec.getLsbD_append,
    BitVec.getLsbD_append]
  by_cases hlow : i < 8
  · rw [if_pos ⟨Nat.zero_le i, by omega⟩, if_pos hlow]
    rfl
  · rw [if_neg (fun h => hlow (by omega)), if_neg hlow]
    by_cases hmid : i < 14
    · rw [if_neg (by omega), if_pos (by omega), if_pos (by omega)]
    · rw [if_pos (by omega), if_neg (by omega), Nat.sub_sub]

theorem addrWrite_first {p : Ppu} (h : p.w = false) (v : Byte) :
    addrWrite v p = { p with t := putField (putField p.t 8 (field v 0 6)) 14 (0#1), w := true } := by
  simp [addrWrite, h]

theorem addrWrite_second {p : Ppu} (h : p.w = true) (v : Byte) :
    addrWrite v p = { p with t := putField p.t 0 v, v := putField p.t 0 v, w := false } := by
  simp [addrWrite, h]

theorem scrollWrite_first {p : Ppu} (h : p.w = false) (v : Byte) :
    scrollWrite v p = { p with t := putField p.t 0 (field v 3 5), fineX := field v 0 3, w := true } := by
  simp [scrollWrite, h]

theorem scrollWrite_second {p : Ppu} (h : p.w = true) (v : Byte) :
    scrollWrite v p = { p with t := putField (putField p.t 12 (field v 0 3)) 5 (field v 3 5), w := false } := by
  simp [scrollWrite, h]

/-- R409: two writes of $2006 put the joined address in `v` and `t`. -/
theorem addrWrite_twice {p : Ppu} (h : p.w = false) (x y : Byte) :
    addrWrite y (addrWrite x p) =
      { p with t := 0#1 ++ field x 0 6 ++ y, v := 0#1 ++ field x 0 6 ++ y, w := false } := by
  rw [addrWrite_first h, addrWrite_second rfl, address_eq_append]

/-- R408: two writes of $2005 write the three scroll fields of `t`, and fine X. -/
theorem scrollWrite_twice {p : Ppu} (h : p.w = false) (x y : Byte) :
    scrollWrite y (scrollWrite x p) =
      { p with t := putField (putField (putField p.t 0 (field x 3 5)) 12 (field y 0 3)) 5 (field y 3 5),
               fineX := field x 0 3, w := false } := by
  rw [scrollWrite_first h, scrollWrite_second rfl]

theorem address_toNat (x y : Byte) : (0#1 ++ field x 0 6 ++ y).toNat = x.toNat % 64 * 256 + y.toNat := by
  rw [toNat_append_eq_add, toNat_append_eq_add, field_toNat]
  show 256 * (64 * 0 + x.toNat / 1 % 64) + y.toNat = _
  omega

theorem byteHigh_toNat (v : Byte) : (field v 3 5).toNat = v.toNat / 8 := by
  have hv := v.isLt
  rw [field_toNat]
  omega

theorem byteLow_toNat (v : Byte) : (field v 0 3).toNat = v.toNat % 8 := by
  rw [field_toNat]
  omega

/-- Settles O56: the address is its bytes joined, and each scroll field is the last one written over fields apart. -/
theorem scrollAndAddress : Obligations.ScrollAndAddress := by
  intro c p x y hw
  refine ⟨?_, ?_⟩
  · have hq : (ppuRegWrite c 6 y (ppuRegWrite c 6 x p).2).2 = _ := addrWrite_twice hw x y
    rw [hq]
    exact ⟨address_toNat x y, rfl, rfl, rfl⟩
  · have hq : (ppuRegWrite c 5 y (ppuRegWrite c 5 x p).2).2 = _ := scrollWrite_twice hw x y
    rw [hq]
    refine ⟨byteLow_toNat x, ?_, ?_, ?_, ?_, rfl, rfl⟩
    · rw [field_putField_apart _ _ _ (by decide) (by decide), field_putField_apart _ _ _ (by decide) (by decide),
        field_putField_same _ _ _ (by decide), byteHigh_toNat]
    · rw [field_putField_apart _ _ _ (by decide) (by decide), field_putField_same _ _ _ (by decide), byteLow_toNat]
    · rw [field_putField_same _ _ _ (by decide), byteHigh_toNat]
    · rw [field_putField_apart _ _ _ (by decide) (by decide), field_putField_apart _ _ _ (by decide) (by decide),
        field_putField_apart _ _ _ (by decide) (by decide)]

end Sys2Proof.Machine

namespace Sys2Proof

/-- Settles O51: the address map sends the read to the status register, whose byte is read off bit by bit. -/
theorem statusRead : Obligations.StatusRead := by
  intro a s ha
  rw [Machine.readDecode_status ha]
  obtain ⟨h7, h6, h5, hlow⟩ := Machine.bit_statusRead s.busLatch s.ppu
  exact ⟨h7, h6, h5, hlow, rfl⟩

end Sys2Proof
end

section
/-! The statements of spec/62_apu.md: the frame counter, the length counters, the DMC's output level. -/

namespace Sys2Proof.Machine

/-! The frame counter (R502, R506, decision D27). -/

theorem timerClocks_frameIrq (a : Apu) : (timerClocks a).frameIrq = a.frameIrq := by
  unfold timerClocks
  dsimp only
  split <;> rfl

/-- R501: of a tick the frame counter's step alone changes the frame counter and its interrupt. -/
theorem apuTick_frame (a : Apu) :
    let b := frameCounterStep { a with parity := !a.parity }
    (apuTick a).fcCycle = b.fcCycle ∧ (apuTick a).frameIrq = b.frameIrq :=
  ⟨(timerClocks_frame _).1, timerClocks_frameIrq _⟩

/-- R502: in the four-step mode the counter goes from 29829 to 0, and 29829 is where the interrupt is asserted. -/
theorem frameCounterStep_fourStep {a : Apu} (h : a.fcMode = false) :
    (frameCounterStep a).fcCycle = (if a.fcCycle + 1 = 29830 then 0 else a.fcCycle + 1)
    ∧ (frameCounterStep a).frameIrq = (a.frameIrq || (decide (a.fcCycle + 1 = 29829) && !a.fcIrqInhibit)) := by
  unfold frameCounterStep
  generalize a.fcCycle + 1 = k
  simp only [h, Bool.false_eq_true, if_false]
  by_cases hirq : k = 29829
  · subst hirq
    exact ⟨rfl, rfl⟩
  · rw [decide_eq_false hirq, Bool.false_and, Bool.or_false]
    by_cases hlast : k = 29830
    · subst hlast
      exact ⟨rfl, rfl⟩
    · simp only [hirq, hlast, if_false]
      split_ifs <;> exact ⟨rfl, rfl⟩

/-- The frame counter in the four-step mode with the interrupt enabled, at cycle `n` of its first period. -/
structure FrameAt (n : Nat) (a : Apu) : Prop where
  mode : a.fcMode = false
  enabled : a.fcIrqInhibit = false
  cycle : a.fcCycle.toNat = n % 29830
  irq : a.frameIrq = decide (29829 ≤ n)

theorem FrameAt.tick {n : Nat} {a : Apu} (h : FrameAt n a) (hn : n < 29830) : FrameAt (n + 1) (apuTick a) := by
  obtain ⟨hmode, henabled, hcycle, hirq⟩ := h
  have hkept := apuTick_kept a
  obtain ⟨tcycle, tirq⟩ := apuTick_frame a
  obtain ⟨scycle, sirq⟩ := frameCounterStep_fourStep (a := { a with parity := !a.parity }) hmode
  have hnext : (a.fcCycle + 1).toNat = n + 1 := by
    rw [BitVec.toNat_add, hcycle]
    show (n % 29830 + 1) % 65536 = n + 1
    omega
  have hstep : ∀ k : Word, a.fcCycle + 1 = k ↔ n + 1 = k.toNat := fun k => by rw [← BitVec.toNat_inj, hnext]
  refine ⟨hkept.fcMode.trans hmode, hkept.fcIrqInhibit.trans henabled, ?_, ?_⟩
  · rw [tcycle, scycle]
    by_cases hlast : a.fcCycle + 1 = 29830
    · rw [if_pos hlast, (hstep _).1 hlast]
      rfl
    · rw [if_neg hlast, hnext, Nat.mod_eq_of_lt]
      exact lt_of_le_of_ne hn (mt (hstep 29830).2 hlast)
  · have hirq29829 : a.fcCycle + 1 = 29829 ↔ n + 1 = 29829 := hstep _
    rw [tirq, sirq]
    simp only [hirq, henabled, hirq29829, Bool.not_false, Bool.and_true, ← Bool.decide_or, decide_eq_decide]
    omega

theorem FrameAt.iterate {a : Apu} (h : FrameAt 0 a) {n : Nat} (hn : n ≤ 29830) : FrameAt n (apuTick^[n] a) := by
  induction n with
  | zero => exact h
  | succ n ih =>
    rw [Function.iterate_succ_apply']
    exact (ih (by omega)).tick hn

/-- Settles O57: by induction on the ticks, the mode and the inhibition kept. -/
theorem frameCounterPeriod : Obligations.FrameCounterPeriod := by
  intro a n hmode henabled hcycle hirq hn
  have hstart : FrameAt 0 a := ⟨hmode, henabled, by rw [hcycle]; rfl, hirq⟩
  exact ⟨(hstart.iterate hn).cycle, (hstart.iterate hn).irq⟩

/-! The length counters (R511, R502, R504, R505, R507). -/

/-- A length counter after a half frame, in numbers. -/
def countedDown (halt : Bool) (l : Byte) : Byte := BitVec.ofNat 8 (if halt then l.toNat else l.toNat - 1)

/-- R511: at 0 or halted a length counter stays. -/
theorem lengthClock_eq_countedDown (halt : Bool) (l : Byte) : lengthClock halt l = countedDown halt l := by
  cases halt
  · by_cases hl : l = 0
    · subst hl
      rfl
    · have hc : (!false && l != 0) = true := by simpa using hl
      rw [lengthClock, if_pos hc, countedDown, if_neg Bool.false_ne_true]
      bv_omega
  · exact ((BitVec.ofNat_toNat 8 l).trans (BitVec.setWidth_eq l)).symm

/-- `b` has the length counters of `a`, counted down where `a` does not halt them. -/
def LengthsCounted (a b : Apu) : Prop :=
  b.pulse1.length = countedDown a.pulse1.env.loop a.pulse1.length
  ∧ b.pulse2.length = countedDown a.pulse2.env.loop a.pulse2.length
  ∧ b.tri.length = countedDown a.tri.control a.tri.length
  ∧ b.noise.length = countedDown a.noise.env.loop a.noise.length

/-- `b` has the length counters of `a` and their halt flags. -/
structure LengthsLeft (a b : Apu) : Prop where
  pulse1 : b.pulse1.length = a.pulse1.length
  pulse2 : b.pulse2.length = a.pulse2.length
  tri : b.tri.length = a.tri.length
  noise : b.noise.length = a.noise.length
  halt1 : b.pulse1.env.loop = a.pulse1.env.loop
  halt2 : b.pulse2.env.loop = a.pulse2.env.loop
  haltTri : b.tri.control = a.tri.control
  haltNoise : b.noise.env.loop = a.noise.env.loop

theorem LengthsLeft.trans {a b c : Apu} (h : LengthsLeft a b) (k : LengthsLeft b c) : LengthsLeft a c :=
  ⟨k.pulse1.trans h.pulse1, k.pulse2.trans h.pulse2, k.tri.trans h.tri, k.noise.trans h.noise, k.halt1.trans h.halt1,
   k.halt2.trans h.halt2, k.haltTri.trans h.haltTri, k.haltNoise.trans h.haltNoise⟩

theorem LengthsLeft.lengths {a b : Apu} (h : LengthsLeft a b) :
    b.pulse1.length = a.pulse1.length ∧ b.pulse2.length = a.pulse2.length ∧ b.tri.length = a.tri.length
    ∧ b.noise.length = a.noise.length :=
  ⟨h.pulse1, h.pulse2, h.tri, h.noise⟩

theorem LengthsLeft.counted {a b c : Apu} (h : LengthsLeft a b) (k : LengthsCounted b c) : LengthsCounted a c := by
  unfold LengthsCounted at *
  rwa [h.pulse1, h.pulse2, h.tri, h.noise, h.halt1, h.halt2, h.haltTri, h.haltNoise] at k

theorem LengthsCounted.left {a b c : Apu} (h : LengthsCounted a b) (k : LengthsLeft b c) : LengthsCounted a c := by
  obtain ⟨hpulse1, hpulse2, htri, hnoise⟩ := h
  exact ⟨k.pulse1.trans hpulse1, k.pulse2.trans hpulse2, k.tri.trans htri, k.noise.trans hnoise⟩

/-- The frame counter's registers and flags, the DMC and the sample are apart from the length counters. -/
theorem withFrame_left (a : Apu) (d : Dmc) (m i p f : Bool) (k : Word) (x : Rat) :
    LengthsLeft a { a with dmc := d, fcMode := m, fcIrqInhibit := i, fcCycle := k, parity := p, sample := x, frameIrq := f } :=
  ⟨rfl, rfl, rfl, rfl, rfl, rfl, rfl, rfl⟩

theorem halfFrame_counted (a : Apu) : LengthsCounted a (halfFrame a) :=
  ⟨lengthClock_eq_countedDown _ _, lengthClock_eq_countedDown _ _, lengthClock_eq_countedDown _ _,
   lengthClock_eq_countedDown _ _⟩

theorem quarterFrame_left (a : Apu) : LengthsLeft a (quarterFrame a) :=
  ⟨rfl, rfl, rfl, rfl, (envelopeClock_kept _).loop, (envelopeClock_kept _).loop, rfl, (envelopeClock_kept _).loop⟩

theorem pulseTimerClock_length (p : Pulse) : (pulseTimerClock p).length = p.length := by
  unfold pulseTimerClock
  split <;> rfl

theorem timerClocks_left (a : Apu) : LengthsLeft a (timerClocks a) := by
  have hkept := timerClocks_kept a
  obtain ⟨-, -, -, -, htri⟩ := triangleTimerClock_kept a.tri
  obtain ⟨-, -, -, -, hnoise⟩ := noiseTimerClock_kept a.noise
  have hlengths : (timerClocks a).pulse1.length = a.pulse1.length ∧ (timerClocks a).pulse2.length = a.pulse2.length
      ∧ (timerClocks a).tri.length = a.tri.length ∧ (timerClocks a).noise.length = a.noise.length := by
    unfold timerClocks
    dsimp only
    split
    · exact ⟨pulseTimerClock_length _, pulseTimerClock_length _, htri, hnoise⟩
    · exact ⟨rfl, rfl, htri, rfl⟩
  obtain ⟨h1, h2, h3, h4⟩ := hlengths
  exact ⟨h1, h2, h3, h4, hkept.pulse1.env.loop, hkept.pulse2.env.loop, hkept.triControl, hkept.noiseEnv.loop⟩

/-- The step to `k` is a half frame (R502). -/
def IsHalfStep (fiveStep : Bool) (k : Word) : Prop :=
  k = 14913 ∨ (fiveStep = false ∧ k = 29829) ∨ (fiveStep = true ∧ k = 37281)

theorem frameCounterStep_half {a : Apu} (h : IsHalfStep a.fcMode (a.fcCycle + 1)) :
    ∃ irq, frameCounterStep a =
      { halfFrame (quarterFrame { a with fcCycle := a.fcCycle + 1 }) with frameIrq := irq } := by
  unfold frameCounterStep
  rcases h with hk | ⟨hm, hk⟩ | ⟨hm, hk⟩
  · simp only [hk]
    exact ⟨_, rfl⟩
  · simp only [hk, hm]
    exact ⟨_, rfl⟩
  · simp only [hk, hm]
    exact ⟨_, rfl⟩

theorem frameCounterStep_left {a : Apu} (h : ¬ IsHalfStep a.fcMode (a.fcCycle + 1)) :
    LengthsLeft a (frameCounterStep a) := by
  have hset : ∀ k, LengthsLeft a { a with fcCycle := k } := fun _ => withFrame_left a _ _ _ _ _ _ _
  have hquarter : LengthsLeft a (quarterFrame { a with fcCycle := a.fcCycle + 1 }) := (hset _).trans (quarterFrame_left _)
  unfold frameCounterStep
  dsimp only
  split_ifs with h1 h2 h3 hm h4 h5 h6 h7
  · exact hquarter
  · exact absurd (.inl h2) h
  · exact hquarter
  · exact absurd (.inr (.inr ⟨hm, h4⟩)) h
  · exact hset _
  · exact hset _
  · exact absurd (.inr (.inl ⟨Bool.eq_false_iff.2 hm, h6⟩)) h
  · exact hset _
  · exact hset _

theorem apuTick_left (a : Apu) : LengthsLeft (frameCounterStep { a with parity := !a.parity }) (apuTick a) :=
  (timerClocks_left _).trans (withFrame_left _ _ _ _ _ _ _ _)

/-- R502: the steps of half frames, in numbers. -/
theorem isHalfStep_iff (m : Bool) (x : Word) : IsHalfStep m (x + 1) ↔
    x.toNat + 1 = 14913 ∨ (m = false ∧ x.toNat + 1 = 29829) ∨ (m = true ∧ x.toNat + 1 = 37281) := by
  have hnum : ∀ n : Word, n ≠ 0 → (x + 1 = n ↔ x.toNat + 1 = n.toNat) := fun n hn => by bv_omega
  rw [IsHalfStep, hnum _ (by decide), hnum _ (by decide), hnum _ (by decide)]
  rfl

theorem apuTick_counted {a : Apu} (h : IsHalfStep a.fcMode (a.fcCycle + 1)) : LengthsCounted a (apuTick a) := by
  obtain ⟨irq, hstep⟩ := frameCounterStep_half (a := { a with parity := !a.parity }) h
  have hafter := apuTick_left a
  rw [hstep] at hafter
  have hquarter := (withFrame_left a a.dmc a.fcMode a.fcIrqInhibit (!a.parity) a.frameIrq (a.fcCycle + 1) a.sample).trans
    (quarterFrame_left _)
  exact (hquarter.counted (halfFrame_counted _)).left ((withFrame_left _ _ _ _ _ _ _ _).trans hafter)

theorem apuTick_lengths {a : Apu} (h : ¬ IsHalfStep a.fcMode (a.fcCycle + 1)) : LengthsLeft a (apuTick a) :=
  ((withFrame_left a a.dmc a.fcMode a.fcIrqInhibit (!a.parity) a.frameIrq a.fcCycle a.sample).trans
    (frameCounterStep_left h)).trans (apuTick_left a)

theorem frameCounterWrite_counted {v : Byte} (h : bit v 7 = true) (a : Apu) :
    LengthsCounted a (frameCounterWrite v a) := by
  rw [frameCounterWrite, if_pos h]
  exact ((withFrame_left a _ _ _ _ _ _ _).trans (quarterFrame_left _)).counted (halfFrame_counted _)

theorem frameCounterWrite_left {v : Byte} (h : bit v 7 = false) (a : Apu) : LengthsLeft a (frameCounterWrite v a) := by
  rw [frameCounterWrite, if_neg (Bool.eq_false_iff.1 h)]
  exact withFrame_left a _ _ _ _ _ _ _

theorem pulseOut_silent (one : Bool) {p : Pulse} (h : p.length = 0) : pulseOut one p = 0 := by
  simp [pulseOut, h]

theorem noiseOut_silent {n : Noise} (h : n.length = 0) : noiseOut n = 0 := by
  simp [noiseOut, h]

theorem triangleTimerClock_silent {t : Triangle} (h : t.length = 0) : (triangleTimerClock t).seqPos = t.seqPos := by
  unfold triangleTimerClock
  split
  · simp [h]
  · rfl

/-- Settles O58: the frame counter's step is a half frame in the steps named, and what else a tick does leaves the counters;
each register on its own. -/
theorem lengthCounters : Obligations.LengthCounters := by
  intro a v down counted left k half
  have hhalf : IsHalfStep a.fcMode (a.fcCycle + 1) ↔ half := isHalfStep_iff a.fcMode a.fcCycle
  exact ⟨halfFrame_counted a, (quarterFrame_left a).lengths, (timerClocks_left a).lengths,
    fun h => apuTick_counted (hhalf.2 h), fun h => (apuTick_lengths (mt hhalf.1 h)).lengths,
    fun h => frameCounterWrite_counted h a, fun h => (frameCounterWrite_left h a).lengths,
    rfl, rfl, rfl, rfl,
    fun h => if_neg (Bool.eq_false_iff.1 h), fun h => if_neg (Bool.eq_false_iff.1 h),
    fun h => if_neg (Bool.eq_false_iff.1 h), fun h => if_neg (Bool.eq_false_iff.1 h),
    pulseOut_silent true, pulseOut_silent false, noiseOut_silent, triangleTimerClock_silent⟩

/-! The DMC's output level (R549). -/

/-- In numbers: up by 2 for a 1 bit and down by 2 for a 0 bit, within 0 to 127, and not in silence. -/
theorem dmcLevel_toNat (d : Dmc) : (dmcLevel d).toNat =
    (if d.silence then d.level.toNat
     else if bit d.shift 0 then (if d.level.toNat ≤ 125 then d.level.toNat + 2 else d.level.toNat)
     else (if 2 ≤ d.level.toNat then d.level.toNat - 2 else d.level.toNat)) := by
  have hup : (d.level ≤ 125) ↔ d.level.toNat ≤ 125 := BitVec.le_def
  have hdown : (2 ≤ d.level) ↔ 2 ≤ d.level.toNat := BitVec.le_def
  simp only [dmcLevel, hup, hdown]
  split_ifs with _ _ hle hge
  · rfl
  · bv_omega
  · rfl
  · bv_omega
  · rfl

/-- R549: the timer runs down without the level, and at 0 reloads with the level's step. -/
theorem dmcTimerClock_running {d : Dmc} (h : d.timer ≠ 0) : dmcTimerClock d = { d with timer := d.timer - 1 } := if_pos h

theorem dmcTimerClock_out {d : Dmc} (h : d.timer = 0) :
    (dmcTimerClock d).timer = d.period - 1 ∧ (dmcTimerClock d).level = dmcLevel d := by
  unfold dmcTimerClock
  rw [if_neg (not_not.2 h)]
  dsimp only
  split_ifs <;> exact ⟨rfl, rfl⟩

end Sys2Proof.Machine

namespace Sys2Proof

/-- Settles O60: the level moves where the timer has run out, by the step of the shifter's bit. -/
theorem dmcLevel : Obligations.DmcLevel := by
  intro d e
  refine ⟨fun h => ?_, fun h => ?_⟩
  · change (Machine.dmcTimerClock d).level = d.level
    rw [Machine.dmcTimerClock_running h]
  · obtain ⟨htimer, hlevel⟩ := Machine.dmcTimerClock_out h
    exact ⟨htimer, (congrArg _ hlevel).trans (Machine.dmcLevel_toNat d)⟩

end Sys2Proof
end

section
/-! The statements of spec/70_reset_and_hazards.md: the reset sequence, and the machine at power-on. -/

namespace Sys2Proof.Machine

/-! The reset sequence (R602, R314, R322; decisions D5 and D9). -/

theorem step_of_resetPending {s : State} (h : s.resetPending = true) : step s = .next (resetSequence s) := if_pos h

/-- R602: the reset sequence reads alone. -/
theorem resetSequence_nothingStored (s : State) :
    NothingStored { s with resetPending := false, nmiLatch := false } (resetSequence s) := by
  obtain ⟨-, hram, hbus⟩ := resetSequence_spec s
  exact ReadTo.nothingStored ⟨rfl, hram, hbus⟩

/-- Settles O40: a step with a reset pending is the reset sequence, which starts from the reset consumed and no NMI latched,
and reads alone. -/
theorem resetTaken : Obligations.ResetTaken := by
  intro s h
  obtain ⟨⟨pc, hcpu, hpc⟩, -, hbus⟩ := resetSequence_spec s
  exact ⟨_, pc, step_of_resetPending h, hcpu, hpc, resetSequence_nothingStored s, hbus.resetPending, hbus.quiet,
    fun hidle => (resetSequence_idle hidle).2⟩

/-! The machine at power-on (R600, decisions D14, D23 and D28). -/

/-- R47: secondary OAM at power-on. -/
theorem Ppu.powerOn_oam2 (p : PowerOn) : ∀ k, k < 32 → (Ppu.powerOn p).oam2.get k = 0xFF := by
  change ∀ k, k < 32 → Memory.get ((List.range 32).map fun k => (k, 0xFF#8)) k = 0xFF
  decide

/-- Mapper 0 has no state of its own (R85). -/
theorem Cartridge.powerOn_nrom (p : PowerOn) {c : Cartridge} (h : c.mapper = 0) :
    (c.powerOn p).regs = [] ∧ (c.powerOn p).observer = [] := by
  rw [Cartridge.powerOn, h]
  exact ⟨rfl, rfl⟩

/-- Settles O41: every part as `State.powerOn` gives it; secondary OAM and mapper 0 by their own lemmas. -/
theorem powerOnState : Obligations.PowerOnState := fun p _ _ =>
  ⟨rfl, rfl, rfl, rfl, rfl, rfl, rfl, rfl, rfl, rfl, rfl, Ppu.powerOn_oam2 p, rfl, rfl, rfl, rfl, Cartridge.powerOn_nrom p⟩

end Sys2Proof.Machine
end
